-- ==== Sys2Proof/Word.lean ====
section
/-! DEFINITION. The word types of FT8TS-CORE (spec 00_scope R10, R12): 32-bit registers, 64-bit data-memory
words, bytes of the host window, and the bit patterns of binary64 numbers. -/

namespace Sys2Proof

/-- One byte of the host's window onto the data memory (R73). -/
abbrev Byte := BitVec 8

/-- A register value (R10, R31). -/
abbrev Word32 := BitVec 32

/-- A data-memory word (R10, R45). -/
abbrev Word64 := BitVec 64

/-- The bit pattern of an IEEE 754 binary64 number, sign in bit 63 (R12, R73). -/
abbrev F64 := BitVec 64

end Sys2Proof
end

