-- ==== Sys2Proof/Config.lean ====
section
/-! DEFINITION. What an implementation fixes (spec 00_scope R8) and the free values. A constant without a body
is a parameter the spec leaves OPEN, or a value it leaves free: no proof can rest on what it is. -/

namespace Sys2Proof.Config

/-- `DMEM_WORDS` (R8, D4): the data memory holds 2^19 words of 64 bits. -/
def dmemWords : Nat := 524288

/-- `NMAX_FFT` (R8, D5): the longest transform. -/
def nmaxFft : Nat := 262144

/-- `NORM_SUBTRACT_MEAN` (R8, R224, D23). -/
def normSubtractMean : Bool := true

/-- The four functions of the parameter `TRIG` (R8, R12, D6). -/
structure Trig where
  cos : F64 → F64
  sin : F64 → F64
  tanh : F64 → F64
  atanh : F64 → F64
deriving Inhabited

/-- `TRIG`, OPEN (R8, U13). -/
opaque trig : Trig

/-- `MIX_TAPER`, OPEN (R8, R211, U15): `mixTaper M j` is weight `j` of the `M` weights. -/
opaque mixTaper : Nat → Nat → F64

/-- The tables `LDPC_H`, as its two lists `Nm` and `Mn`, and `LDPC_GEN` (R8, R150, R154). -/
structure LdpcTables where
  /-- `Nm[m]`: the bits of check m. -/
  nm : List (List Nat)
  /-- `Mn[n]`: the checks that hold bit n. -/
  mn : List (List Nat)
  /-- `GEN[q][k]`, row q of parity bit q. -/
  gen : List (List Bool)
deriving DecidableEq, Repr, Inhabited

/-- `LDPC_H` and `LDPC_GEN` as built into the block, OPEN (R8, N1, U14). The decoder uses them through
`Sys2Proof.Machine.ldpcCode`, which holds them to the constraints of R150 and R154. -/
opaque ldpcTables : LdpcTables

/-- `BASE / 8`, OPEN (R8, D3, U17). -/
opaque baseUnits : Nat

/-- `BASE`, the byte address of the register block on the host bus. DEDUCED: a multiple of 8, so that the
alignment of a host address and that of its offset agree (log entry 6). -/
def base : Nat := 8 * baseUnits

/-- The free 64-bit values the machine draws, one for each value of the state's draw counter (U3, U4). -/
opaque freeWord : Nat → Word64

/-- The free choices between 'keeps its value' and 'takes a free value' (R352, U4). -/
opaque freeBit : Nat → Bool

end Sys2Proof.Config
end

