-- ==== Sys2Proof/Syntax.lean ====
section
/-! DEFINITION. The commands of FT8TS-CORE (spec 30_encoding R95), one constructor for each row of the opcode
table. A command's array operands are not part of it: they come from the argument snapshot (R90, R99). -/

namespace Sys2Proof

/-- The protocol mode a command's MODE flag selects (R92, R200). -/
inductive Mode where
  | ft8
  | ft4
deriving DecidableEq, Repr

/-- A command, with the flag fields its row defines (R92, R95). -/
inductive Instr where
  | nop
  | fft
  | ifft
  | ldpcEncode
  | ldpcDecode (maskEn : Bool)
  | crc14Gen
  | crc14Check
  | mixDown
  | symbolTones (mode : Mode)
  | syncCount (mode : Mode)
  | softBits (mode : Mode)
  | pack77
  | unpack77 (useHt : Bool)
  | hashCompute
  | hashSave
  | hashLookup (width : BitVec 2)
  | hashClear
  | hashSize
deriving DecidableEq, Repr

/-- Why a command word encodes no command (R91, steps 1 to 4). -/
inductive DecodeError where
  /-- OP is not in the opcode map (step 1). -/
  | opcode
  /-- RSV is not 0, or a flag bit the row does not define is set (steps 2 and 3). -/
  | reserved
  /-- A defined flag field holds a reserved value (step 4). -/
  | arg
deriving DecidableEq, Repr

end Sys2Proof
end

