-- ==== Sys2Proof/Machine/State.lean ====
section
/-! DEFINITION. The architectural state of FT8TS-CORE (spec 10_state R30 to R55), the reasons a step can stop,
and the state after power-on reset (70_reset_and_hazards R350). -/

namespace Sys2Proof.Machine

/-- The error codes of STATUS.ERRCODE (R320); the codes 0x08 to 0xFF are never written, so they are no value. -/
inductive ErrCode where
  | none
  | opcode
  | reserved
  | arg
  | len
  | addr
  | overlap
  | value
deriving DecidableEq, Repr

/-- A bank of eight 32-bit registers: ARG0 to ARG7, RES0 to RES7, an argument snapshot (R31, R39). -/
abbrev Regs8 := Vector Word32 8

/-- The stored fields of STATUS (R34). BUSY is the engine phase (R52) and the reserved bits read 0. -/
structure Status where
  done : Bool
  err : Bool
  ok : Bool
  ovr : Bool
  errCode : ErrCode
  lastOp : BitVec 8
deriving DecidableEq, Repr

/-- The engine phase (R52): idle, or busy with a command word and the argument snapshot of its start. The
in-progress internal state has no architectural meaning and is left out. -/
inductive Phase where
  | idle
  | busy (cmd : Word32) (args : Regs8)
deriving DecidableEq, Repr

/-- The data memory as the bytes that have a value, at their byte offsets in the host's window (R71, R73): byte
`8·a + k` is byte k of word a. A byte that is not listed has no value (R47, R76). -/
abbrev Memory := List Host.Cell

/-- A callsign of the hash table (R48, R291). -/
abbrev Callsign := List Char

/-- The hash-call table (R48, R51). HT10 and HT12 list their occupied entries by rising hash; HT22 is in its own
order, front first. -/
structure HashTable where
  ht10 : List (Nat × Callsign)
  ht12 : List (Nat × Callsign)
  ht22 : List (Nat × Callsign)
deriving DecidableEq, Repr

/-- What the host side does next (R7, R362): a bus access of a number of bytes at a host byte address, or, with
`engine`, the engine's completion step ordered before the next access. The MODEL's own (log entry 1). -/
inductive BusEvent where
  | engine
  | read (addr bytes : Nat)
  | write (addr bytes : Nat) (data : Word64)
deriving DecidableEq, Repr

/-- What the host's last bus access answered. The MODEL's own (log entry 1). -/
inductive BusResponse where
  | none
  | written
  | data32 (v : Word32)
  | data64 (v : Word64)
deriving DecidableEq, Repr

/-- The machine. ID and VERSION are hardwired (R32) and IRQ is a function of CTRL.IE and STATUS.DONE (R53), so
none of them is stored. -/
structure State where
  /-- CTRL.IE (R33). -/
  ie : Bool
  /-- STATUS (R34). -/
  status : Status
  /-- CMD (R35). -/
  cmd : Word32
  /-- ARG0 to ARG7 (R36). -/
  args : Regs8
  /-- RES0 to RES7 (R37). -/
  res : Regs8
  /-- The engine phase (R52). -/
  phase : Phase
  /-- DMEM (R45). -/
  dmem : Memory
  /-- HT (R48). -/
  ht : HashTable
  /-- The host's coming accesses, next first. The MODEL's own (log entry 1). -/
  bus : List BusEvent
  /-- The answer to the host's last access. The MODEL's own (log entry 1). -/
  response : BusResponse
  /-- How many free values have been drawn. The MODEL's own (log entry 3). -/
  draws : Nat
deriving DecidableEq, Repr

/-- Why the machine stops: the two model faults of R327. -/
inductive Fault where
  /-- MODEL_UNINIT_READ (R47, R327): raised by a command that reads a data-memory word without a value. Safe:
  the spec gives the hardware no behaviour there. -/
  | uninitRead
  /-- MODEL_HOST_RACE (R80, R327): raised by a host write into the running command's footprint. Safe: the spec
  gives the hardware no behaviour there. -/
  | hostRace
deriving DecidableEq, Repr

/-- Why the machine refuses to step. -/
inductive Refusal where
  /-- Raised for a command without a meaning in this model; safe. No command is without one. -/
  | notModelled (mnemonic : String)
  /-- Raised by a host access of an illegal width or alignment: the block answers with a bus error and the model
  refuses the step (R74, R75, U11). Safe: the access has no effect. -/
  | busError
deriving DecidableEq, Repr

/-- Eight registers of zeros. -/
def Regs8.zero : Regs8 := #v[0, 0, 0, 0, 0, 0, 0, 0]

/-- STATUS after reset (R350): every bit 0. -/
def Status.reset : Status :=
  { done := false, err := false, ok := false, ovr := false, errCode := .none, lastOp := 0 }

/-- The empty hash-call table (R296, R350). -/
def HashTable.empty : HashTable := { ht10 := [], ht12 := [], ht22 := [] }

/-- The machine after power-on reset (R350). -/
def State.reset : State :=
  { ie := false
    status := Status.reset
    cmd := 0
    args := Regs8.zero
    res := Regs8.zero
    phase := .idle
    dmem := []
    ht := HashTable.empty
    bus := []
    response := .none
    draws := 0 }

end Sys2Proof.Machine
end

