-- ==== Sys2Proof/Machine/Ops.lean ====
section
/-! DEFINITION. The operations the commands share: the data memory, the checks a command makes, and how a command
starts, completes and raises an error (spec 00_scope R15, R16; 10_state R39 to R42; 20_memory R72 to R78). -/

namespace Sys2Proof.Machine

/-! ## The data memory -/

/-- The value of one byte of the data memory; none where it has no value (R47, R76). -/
def readByte : Memory → Nat → Option Byte
  | [], _ => none
  | (b, v) :: rest, a => if b = a then some v else readByte rest a

/-- The cells of a run of bytes from an offset. -/
def cellsAt : Nat → List Byte → Memory
  | _, [] => []
  | a, b :: bs => (a, b) :: cellsAt (a + 1) bs

/-- The memory with a run of bytes stored from an offset. -/
def writeSpan (m : Memory) (a : Nat) (bs : List Byte) : Memory :=
  m.filter (fun c => decide (c.1 < a)) ++ cellsAt a bs ++ m.filter (fun c => decide (a + bs.length ≤ c.1))

/-- The number whose bytes are given, lowest first (R73). -/
def leNat : List Byte → Nat
  | [] => 0
  | b :: bs => b.toNat + 256 * leNat bs

/-- The lowest `n` bytes of a number, lowest first (R73). -/
def leBytes : Nat → Nat → List Byte
  | 0, _ => []
  | n + 1, v => BitVec.ofNat 8 v :: leBytes n (v / 256)

/-- The values of `n` bytes from an offset, if all of them have one. -/
def readBytes (m : Memory) : Nat → Nat → Option (List Byte)
  | _, 0 => some []
  | a, n + 1 =>
    match readByte m a, readBytes m (a + 1) n with
    | some b, some bs => some (b :: bs)
    | _, _ => none

/-- `MemRead` of R15: the word at word address `a`; none where the word has no value (R47, R76). -/
def readWord (m : Memory) (a : Nat) : Option Word64 :=
  (readBytes m (8 * a) 8).map fun bs => BitVec.ofNat 64 (leNat bs)

/-- The bytes of words, each in the window's byte order (R73). -/
def wordBytes (ws : List Word64) : List Byte := ws.flatMap fun w => leBytes 8 w.toNat

/-- `MemWrite` of R15 for consecutive words from word address `a`. -/
def writeWords (m : Memory) (a : Nat) (ws : List Word64) : Memory := writeSpan m (8 * a) (wordBytes ws)

/-- The memory's one canonical form: byte offsets strictly rising. A byte that is not listed has no value, so no
listed byte equals it. -/
def Memory.wf (m : Memory) : Bool := decide (m.Pairwise fun x y => x.1 < y.1)

/-- Every byte with a value lies in the data memory (R45, R71). -/
def Memory.inRange (m : Memory) : Bool := m.all fun c => decide (c.1 < 8 * Config.dmemWords)

/-! ## What a command can end in before it completes -/

/-- Why a command's rule stops: `raise E` of R16, or a model fault of R327. -/
inductive Stop where
  | error (e : ErrCode)
  | fault (f : Fault)
deriving DecidableEq, Repr

/-- A computation that may stop. -/
abbrev Check (α : Type) := Except Stop α

/-- `raise e` unless the condition holds (R16). -/
def require (c : Bool) (e : ErrCode) : Check Unit := if c then .ok () else .error (.error e)

/-- A command's read of one word (R15, R47). -/
def memRead (m : Memory) (a : Nat) : Check Word64 :=
  match readWord m a with
  | some w => .ok w
  | none => .error (.fault .uninitRead)

/-- `n` words read in order from word address `a`, each taken through `f`. -/
def readAll {α : Type} (f : Word64 → Check α) (m : Memory) : Nat → Nat → Check (List α)
  | _, 0 => .ok []
  | a, n + 1 => do
    let w ← memRead m a
    let x ← f w
    let xs ← readAll f m (a + 1) n
    .ok (x :: xs)

/-- `ReadF` of R15, over `n` words. -/
def readFs (m : Memory) (a n : Nat) : Check (List F64) := readAll .ok m a n

/-- A word as a bit (`ReadBit` of R15). -/
def asBit (w : Word64) : Check Bool :=
  if w = 0 then .ok false else if w = 1 then .ok true else .error (.error .value)

/-- `ReadBit` of R15, over `n` words. -/
def readBits (m : Memory) (a n : Nat) : Check (List Bool) := readAll asBit m a n

/-- A word as a character (`ReadChar` of R15, R17). -/
def asChar (w : Word64) : Check Char :=
  if w.toNat < 128 then .ok (Char.ofNat w.toNat) else .error (.error .value)

/-- `ReadChar` of R15, over `n` words. -/
def readChars (m : Memory) (a n : Nat) : Check (List Char) := readAll asChar m a n

/-- A bit as the word that holds it (R45). -/
def bitWord (b : Bool) : Word64 := if b then 1 else 0

/-- A character as the word that holds it (R17). -/
def charWord (c : Char) : Word64 := BitVec.ofNat 64 c.toNat

/-! ## Operand ranges -/

/-- An array operand: a base word address and a length in words (R78). -/
structure Range where
  base : Nat
  len : Nat
deriving DecidableEq, Repr

/-- Two ranges intersect (R78); an empty range intersects nothing. -/
def Range.intersects (r t : Range) : Bool :=
  decide (0 < r.len ∧ 0 < t.len ∧ r.base < t.base + t.len ∧ t.base < r.base + r.len)

/-- The word address lies in the range. -/
def Range.mem (r : Range) (a : Nat) : Bool := decide (r.base ≤ a ∧ a < r.base + r.len)

/-- `CheckRange` of R15: the range fits in the data memory, on unbounded integers (R72). -/
def Range.fits (r : Range) : Bool := decide (r.base + r.len ≤ Config.dmemWords)

/-- An output range intersects an input range or another output range (R78). -/
def overlaps (ins : List Range) : List Range → Bool
  | [] => false
  | out :: outs => ins.any out.intersects || outs.any out.intersects || overlaps ins outs

/-- The range checks of a command: first every range fits, then no output overlaps (R72, R78). -/
def checkRanges (ins outs : List Range) : Check Unit := do
  require ((ins ++ outs).all Range.fits) .addr
  require (!overlaps ins outs) .overlap

/-! ## Starting and ending a command -/

/-- A command's start (R39): the word, its opcode, BUSY, and the snapshot of the arguments, at once. -/
def State.startCommand (w : Word32) (s : State) : State :=
  { s with
    cmd := w
    status := { s.status with lastOp := w.extractLsb' 0 8 }
    phase := .busy w s.args }

/-- Completion without error (R41). -/
def State.complete (r : Regs8) (s : State) : State :=
  { s with
    res := r
    status := { s.status with errCode := .none, ok := r[0].getLsbD 0, done := true }
    phase := .idle }

/-- Completion with an error code (R42, R322): the block's only exception entry (R331). The command word, the
arguments and LASTOP stay. -/
def State.raiseError (e : ErrCode) (s : State) : State :=
  { s with
    res := Regs8.zero
    status := { s.status with errCode := e, ok := false, err := true, done := true }
    phase := .idle }

/-- The host's acknowledgement of a completion (R332): DONE and ERR cleared. There is no return instruction. -/
def State.acknowledge (s : State) : State :=
  { s with status := { s.status with done := false, err := false } }

/-- The command word the engine runs next, if a command has been started (R39, R52). The block fetches no
instruction from memory (R84). -/
def State.fetchCommand (s : State) : Option Word32 :=
  match s.phase with
  | .idle => none
  | .busy w _ => some w

/-- What a command writes when it completes without error: runs of words, the hash table, the results. -/
structure Effect where
  writes : List (Nat × List Word64)
  ht : HashTable
  res : Regs8
deriving DecidableEq, Repr

/-- The result registers: the values a rule names, in order from RES0, and 0 in the others (R37). -/
def results (vs : List Nat) : Regs8 :=
  #v[BitVec.ofNat 32 (vs.getD 0 0), BitVec.ofNat 32 (vs.getD 1 0), BitVec.ofNat 32 (vs.getD 2 0),
     BitVec.ofNat 32 (vs.getD 3 0), BitVec.ofNat 32 (vs.getD 4 0), BitVec.ofNat 32 (vs.getD 5 0),
     BitVec.ofNat 32 (vs.getD 6 0), BitVec.ofNat 32 (vs.getD 7 0)]

/-- The memory after runs of words are written, in order. -/
def writeRuns (m : Memory) (writes : List (Nat × List Word64)) : Memory :=
  writes.foldl (fun m run => writeWords m run.1 run.2) m

/-- The machine after a command's effect and its completion (R41, R44). -/
def State.commit (eff : Effect) (s : State) : State :=
  State.complete eff.res { s with dmem := writeRuns s.dmem eff.writes, ht := eff.ht }

/-- The outcome of a command's rule, in one step (R44): its effect, or the error it raises, which leaves the data
memory and the hash table as they were (R321 to R323), or the model fault it meets (R327). -/
def runCommand (c : Check Effect) (s : State) : Host.Outcome State Fault Refusal :=
  match c with
  | .ok eff => .next (s.commit eff)
  | .error (.error e) => .next (s.raiseError e)
  | .error (.fault f) => .fault f

end Sys2Proof.Machine
end

