-- ==== Sys2Proof/Machine/Text.lean ====
section
/-! DEFINITION. Strings, alphabets and fields of bit arrays (spec 00_scope R11, R17; 43_codec R242). -/

namespace Sys2Proof.Machine

/-- The alphabet of free text (R242). -/
def A42 : List Char := " 0123456789ABCDEFGHIJKLMNOPQRSTUVWXYZ+-./?".toList

/-- The alphabet of nonstandard callsigns and of the callsign hash (R242). -/
def A38 : List Char := " 0123456789ABCDEFGHIJKLMNOPQRSTUVWXYZ/".toList

/-- The alphabet of a standard callsign's first position (R242). -/
def A37 : List Char := " 0123456789ABCDEFGHIJKLMNOPQRSTUVWXYZ".toList

/-- The alphabet of a standard callsign's second position (R242). -/
def A36 : List Char := "0123456789ABCDEFGHIJKLMNOPQRSTUVWXYZ".toList

/-- The decimal digits (R242). -/
def A10 : List Char := "0123456789".toList

/-- The alphabet of a standard callsign's last three positions and of CQ suffixes (R242). -/
def A27 : List Char := " ABCDEFGHIJKLMNOPQRSTUVWXYZ".toList

/-- The letters. -/
def letters : List Char := "ABCDEFGHIJKLMNOPQRSTUVWXYZ".toList

/-- `idx` of R17 for a character of the alphabet. -/
def alphaIdx (alphabet : List Char) (c : Char) : Nat := alphabet.idxOf c

/-- The character at a position of an alphabet. -/
def alphaChar (alphabet : List Char) (k : Nat) : Char := alphabet.getD k ' '

/-- `trim` of R17: leading and trailing spaces removed. -/
def trim (t : List Char) : List Char :=
  ((t.dropWhile (· == ' ')).reverse.dropWhile (· == ' ')).reverse

/-- `upper` of R17 on one character. -/
def upperChar (c : Char) : Char := if 97 ≤ c.toNat ∧ c.toNat ≤ 122 then Char.ofNat (c.toNat - 32) else c

/-- `upper` of R17. -/
def upper (t : List Char) : List Char := t.map upperChar

/-- The text padded with spaces on the right to `n` characters. -/
def padRight (n : Nat) (t : List Char) : List Char := t ++ List.replicate (n - t.length) ' '

/-- The text right-justified with spaces to `n` characters (R245). -/
def padLeft (n : Nat) (t : List Char) : List Char := List.replicate (n - t.length) ' ' ++ t

/-- The number whose digits in the alphabet's base are the characters, most significant first. -/
def alphaValue (alphabet : List Char) (t : List Char) : Nat :=
  t.foldl (fun acc c => acc * alphabet.length + alphaIdx alphabet c) 0

/-- The `n` characters of a number in the alphabet's base, most significant first (R245, R257, R259): repeated
division from the last character up. -/
def alphaText (alphabet : List Char) : Nat → Nat → List Char
  | 0, _ => []
  | n + 1, v => alphaText alphabet n (v / alphabet.length) ++ [alphaChar alphabet (v % alphabet.length)]

/-- The words of a text: maximal runs without a space. -/
def words : List Char → List (List Char)
  | [] => []
  | c :: cs =>
    if c = ' ' then words cs
    else
      match cs with
      | [] => [[c]]
      | d :: _ =>
        if d = ' ' then [c] :: words cs
        else
          match words cs with
          | [] => [[c]]
          | w :: ws => (c :: w) :: ws

/-- Words joined by single spaces. -/
def unwords : List (List Char) → List Char
  | [] => []
  | [w] => w
  | w :: ws => w ++ ' ' :: unwords ws

/-- A bit of a bit array. -/
def bitAt (bs : List Bool) (i : Nat) : Bool := bs.getD i false

/-- `uint` of R11: the number of a bit array, its first bit the most significant. -/
def bitsNat (bs : List Bool) : Nat := bs.foldl (fun acc b => 2 * acc + b.toNat) 0

/-- `uintN` of R254: the `n` bits of a number, most significant first. -/
def natBits : Nat → Nat → List Bool
  | 0, _ => []
  | n + 1, v => natBits n (v / 2) ++ [decide (v % 2 = 1)]

/-- `uint(b[i .. i+n-1])` of R11. -/
def bitField (bs : List Bool) (i n : Nat) : Nat := bitsNat ((bs.drop i).take n)

end Sys2Proof.Machine
end

