-- ==== Sys2Proof/Machine/HashTable.lean ====
section
/-! DEFINITION. The callsign hash and the hash-call table (spec 44_hashcall R290 to R296). -/

namespace Sys2Proof.Machine

/-- HASH_MULT (R8, R290). -/
def hashMult : Nat := 47055833459

/-- HT22_CAP (R8, R48). -/
def ht22Cap : Nat := 1000

/-- n8, the base-38 number of a callsign padded to 11 characters (R290). -/
def callsignNumber (t : List Char) : Nat := alphaValue A38 (padRight 11 t)

/-- hash_w, the top w bits of the wrapped 64-bit product (R290). -/
def hashBits (w : Nat) (t : List Char) : Nat := hashMult * callsignNumber t % 2 ^ 64 / 2 ^ (64 - w)

/-- hash_10 (R290). -/
def hash10 (t : List Char) : Nat := hashBits 10 t

/-- hash_12 (R290). -/
def hash12 (t : List Char) : Nat := hashBits 12 t

/-- hash_22 (R290). -/
def hash22 (t : List Char) : Nat := hashBits 22 t

/-- A character of A38 other than a space (R291). -/
def callsignChar (c : Char) : Bool := A38.contains c && c != ' '

/-- A callsign as the table stores it: 1 to 11 characters of A38, none a space (R291). -/
def validCallsign (t : List Char) : Bool :=
  decide (1 ≤ t.length ∧ t.length ≤ 11) && t.all callsignChar

/-- One pair of angle brackets around a text removed, where it has them (R291). -/
def stripBrackets (t : List Char) : List Char :=
  if t.head? = some '<' ∧ t.getLast? = some '>' then t.tail.dropLast else t

/-- canon (R291). -/
def canon (t : List Char) : Option Callsign :=
  let x := stripBrackets (trim (upper t))
  if validCallsign x then some x else none

/-- The entry of a direct-indexed map at a hash (R292). -/
def getEntry : List (Nat × Callsign) → Nat → Option Callsign
  | [], _ => none
  | (k, x) :: rest, h => if k = h then some x else getEntry rest h

/-- A direct-indexed map with its entry at a hash overwritten (R292). -/
def putEntry (h : Nat) (x : Callsign) : List (Nat × Callsign) → List (Nat × Callsign)
  | [] => [(h, x)]
  | (k, y) :: rest =>
    if h < k then (h, x) :: (k, y) :: rest
    else if h = k then (h, x) :: rest
    else (k, y) :: putEntry h x rest

/-- lookup10 (R293). -/
def HashTable.lookup10 (t : HashTable) (h : Nat) : Option Callsign := getEntry t.ht10 h

/-- lookup12 (R293). -/
def HashTable.lookup12 (t : HashTable) (h : Nat) : Option Callsign := getEntry t.ht12 h

/-- lookup22 (R293): the first pair from the front. -/
def HashTable.lookup22 (t : HashTable) (h : Nat) : Option Callsign := getEntry t.ht22 h

/-- A direct-indexed map after a save of x at hash h: overwritten unless it holds x there (R294). -/
def saveEntry (h : Nat) (x : Callsign) (map : List (Nat × Callsign)) : List (Nat × Callsign) :=
  if getEntry map h = some x then map else putEntry h x map

/-- HT22 after a save (R294): unless x is in it, x goes to the front, and a full list loses its last pair. -/
def saveFront (x : Callsign) (list : List (Nat × Callsign)) : List (Nat × Callsign) :=
  if list.any (fun p => p.2 == x) then list
  else (hash22 x, x) :: if list.length = ht22Cap then list.dropLast else list

/-- save (R294): the table after it. -/
def HashTable.save (t : HashTable) (x : Callsign) : HashTable :=
  { ht10 := saveEntry (hash10 x) x t.ht10
    ht12 := saveEntry (hash12 x) x t.ht12
    ht22 := saveFront x t.ht22 }

/-- save (R294): whether it changes the table. -/
def HashTable.saveChanges (t : HashTable) (x : Callsign) : Bool :=
  t.lookup10 (hash10 x) != some x || t.lookup12 (hash12 x) != some x || !t.ht22.any (fun p => p.2 == x)

/-- The form of a direct-indexed map of w-bit hashes: rising hashes below 2^w, each the hash of its valid
callsign (R48, R291, R292). -/
def mapWf (w : Nat) (map : List (Nat × Callsign)) : Bool :=
  decide (map.Pairwise fun p q => p.1 < q.1)
    && map.all fun p => decide (p.1 < 2 ^ w) && p.1 == hashBits w p.2 && validCallsign p.2

/-- The form of HT22: at most HT22_CAP pairs, no callsign twice, each with the hash of its valid callsign
(R48, R291, R292, R294). -/
def listWf (list : List (Nat × Callsign)) : Bool :=
  decide (list.length ≤ ht22Cap) && decide ((list.map Prod.snd).Nodup)
    && list.all fun p => p.1 == hash22 p.2 && validCallsign p.2

/-- The form of the hash-call table (R48, R292). -/
def HashTable.wf (t : HashTable) : Bool := mapWf 10 t.ht10 && mapWf 12 t.ht12 && listWf t.ht22

end Sys2Proof.Machine
end

