-- ==== Sys2Proof/WellFormed.lean ====
section
/-! DEFINITION. Which commands an encoding can carry: the only field value with no meaning is HASH_LOOKUP's
reserved WIDTH = 3 (spec 30_encoding R92). -/

namespace Sys2Proof

/-- A command whose flag fields hold no reserved value (R91 step 4, R92). -/
def Instr.wellFormed : Instr → Bool
  | .nop => true
  | .fft => true
  | .ifft => true
  | .ldpcEncode => true
  | .ldpcDecode _ => true
  | .crc14Gen => true
  | .crc14Check => true
  | .mixDown => true
  | .symbolTones _ => true
  | .syncCount _ => true
  | .softBits _ => true
  | .pack77 => true
  | .unpack77 _ => true
  | .hashCompute => true
  | .hashSave => true
  | .hashLookup width => width != 3
  | .hashClear => true
  | .hashSize => true

end Sys2Proof
end

