-- ==== Sys2Proof/Decode.lean ====
section
/-! DEFINITION. Decoding and encoding of command words (spec 30_encoding R90 to R97, R102). -/

namespace Sys2Proof

/-- The field OP of a command word (R90). -/
def opField (w : Word32) : BitVec 8 := w.extractLsb' 0 8

/-- The field FL of a command word (R90). -/
def flField (w : Word32) : BitVec 4 := w.extractLsb' 8 4

/-- The field RSV of a command word (R90). -/
def rsvField (w : Word32) : BitVec 20 := w.extractLsb' 12 20

/-- The MODE flag, FL bit 0 (R92). -/
def modeOfFlags (fl : BitVec 4) : Mode := if fl.getLsbD 0 then .ft4 else .ft8

/-- The WIDTH field, FL[1:0] (R92). -/
def widthOfFlags (fl : BitVec 4) : BitVec 2 := fl.extractLsb' 0 2

/-- The opcode map (R95): for an opcode of the map, the flag bits its row defines (R92) and the command
those flags select; nothing for an illegal opcode (R96). -/
def opcodeRow (op : BitVec 8) : Option (BitVec 4 × (BitVec 4 → Instr)) :=
  match op.toNat with
  | 0x00 => some (0b0000, fun _ => .nop)
  | 0x01 => some (0b0000, fun _ => .fft)
  | 0x02 => some (0b0000, fun _ => .ifft)
  | 0x10 => some (0b0000, fun _ => .ldpcEncode)
  | 0x11 => some (0b0001, fun fl => .ldpcDecode (fl.getLsbD 0))
  | 0x12 => some (0b0000, fun _ => .crc14Gen)
  | 0x13 => some (0b0000, fun _ => .crc14Check)
  | 0x20 => some (0b0000, fun _ => .mixDown)
  | 0x21 => some (0b0001, fun fl => .symbolTones (modeOfFlags fl))
  | 0x22 => some (0b0001, fun fl => .syncCount (modeOfFlags fl))
  | 0x23 => some (0b0001, fun fl => .softBits (modeOfFlags fl))
  | 0x30 => some (0b0000, fun _ => .pack77)
  | 0x31 => some (0b0001, fun fl => .unpack77 (fl.getLsbD 0))
  | 0x38 => some (0b0000, fun _ => .hashCompute)
  | 0x39 => some (0b0000, fun _ => .hashSave)
  | 0x3A => some (0b0011, fun fl => .hashLookup (widthOfFlags fl))
  | 0x3B => some (0b0000, fun _ => .hashClear)
  | 0x3C => some (0b0000, fun _ => .hashSize)
  | _ => none

/-- The command a word encodes, or the first of the checks of R91 that it fails. -/
def decode (w : Word32) : Except DecodeError Instr :=
  match opcodeRow (opField w) with
  | none => .error .opcode
  | some (defined, command) =>
    if rsvField w ≠ 0 then .error .reserved
    else if flField w &&& ~~~defined ≠ 0 then .error .reserved
    else if (command (flField w)).wellFormed then .ok (command (flField w))
    else .error .arg

/-- The opcode of a command (R95). -/
def Instr.opcode : Instr → BitVec 8
  | .nop => 0x00
  | .fft => 0x01
  | .ifft => 0x02
  | .ldpcEncode => 0x10
  | .ldpcDecode _ => 0x11
  | .crc14Gen => 0x12
  | .crc14Check => 0x13
  | .mixDown => 0x20
  | .symbolTones _ => 0x21
  | .syncCount _ => 0x22
  | .softBits _ => 0x23
  | .pack77 => 0x30
  | .unpack77 _ => 0x31
  | .hashCompute => 0x38
  | .hashSave => 0x39
  | .hashLookup _ => 0x3A
  | .hashClear => 0x3B
  | .hashSize => 0x3C

/-- A one-bit flag in FL bit 0 (R92). -/
def flagBit (b : Bool) : BitVec 4 := if b then 0b0001 else 0b0000

/-- The MODE flag of a mode (R92). -/
def flagsOfMode : Mode → BitVec 4
  | .ft8 => 0b0000
  | .ft4 => 0b0001

/-- The flag field of a command (R92). -/
def Instr.flags : Instr → BitVec 4
  | .nop => 0
  | .fft => 0
  | .ifft => 0
  | .ldpcEncode => 0
  | .ldpcDecode maskEn => flagBit maskEn
  | .crc14Gen => 0
  | .crc14Check => 0
  | .mixDown => 0
  | .symbolTones mode => flagsOfMode mode
  | .syncCount mode => flagsOfMode mode
  | .softBits mode => flagsOfMode mode
  | .pack77 => 0
  | .unpack77 useHt => flagBit useHt
  | .hashCompute => 0
  | .hashSave => 0
  | .hashLookup width => width.setWidth 4
  | .hashClear => 0
  | .hashSize => 0

/-- The command word of a command: `OP | (FL << 8)` with RSV = 0 (R102). -/
def encode (i : Instr) : Word32 := (0#20) ++ i.flags ++ i.opcode

/-- The command the decoder reads from a row of the opcode table whose bits are `w`; the table's rows are
whole command words (R90), so a bit at or above `nbits` is 0. -/
def decodeTableWord (nbits w : Nat) : Option Instr :=
  (decode (BitVec.ofNat 32 (w % 2 ^ nbits))).toOption

end Sys2Proof
end

