-- ==== Sys2Proof/Machine/Operands.lean ====
section
/-! DEFINITION. The operands of every command (spec 30_encoding R98, R99): the argument snapshot, its readings,
and the input and output ranges each command names (20_memory R78, R79). -/

namespace Sys2Proof.Machine

/-- The arguments a command reads (R36, R39): the running command's snapshot. No step runs a command on an idle
engine; there the value is the one a start at that moment would take (log entry 2). -/
def State.snapshot (s : State) : Regs8 :=
  match s.phase with
  | .idle => s.args
  | .busy _ args => args

/-- A base, length or hash argument: `A[i]` as an unbounded natural number (R98). -/
def argNat (args : Regs8) (i : Fin 8) : Nat := args[i].toNat

/-- A signed argument: `A[i]` read as s32 (R98). -/
def argInt (args : Regs8) (i : Fin 8) : Int := args[i].toInt

/-- The range at base argument `i` of a given length. -/
def rangeAt (args : Regs8) (i : Fin 8) (len : Nat) : Range := { base := argNat args i, len := len }

/-- T, the tones of a symbol (R200). -/
def tones : Mode → Nat
  | .ft8 => 8
  | .ft4 => 4

/-- NF, the symbols of a frame (R200). -/
def frameSymbols : Mode → Nat
  | .ft8 => 79
  | .ft4 => 103

/-- NV, the metric arrays of a frame (R200). -/
def metricArrays : Mode → Nat
  | .ft8 => 4
  | .ft4 => 3

/-- The length of a frame's tone array (R99, R206). -/
def toneWords (mode : Mode) : Nat := 2 * tones mode * frameSymbols mode

/-- The words a command reads (R99). The transforms' two ranges are both input and output (R122). -/
def inputRanges (i : Instr) (args : Regs8) : List Range :=
  match i with
  | .nop => []
  | .fft => [rangeAt args 0 (argNat args 2), rangeAt args 1 (argNat args 2)]
  | .ifft => [rangeAt args 0 (argNat args 2), rangeAt args 1 (argNat args 2)]
  | .ldpcEncode => [rangeAt args 0 91]
  | .ldpcDecode maskEn => rangeAt args 0 174 :: if maskEn then [rangeAt args 1 174] else []
  | .crc14Gen => [rangeAt args 0 77]
  | .crc14Check => [rangeAt args 0 91]
  | .mixDown => [rangeAt args 0 (argNat args 2), rangeAt args 1 (argNat args 2)]
  | .symbolTones _ => [rangeAt args 0 (argNat args 2), rangeAt args 1 (argNat args 2)]
  | .syncCount mode => [rangeAt args 0 (toneWords mode)]
  | .softBits mode => [rangeAt args 0 (toneWords mode)]
  | .pack77 => [rangeAt args 0 (argNat args 1)]
  | .unpack77 _ => [rangeAt args 0 77]
  | .hashCompute => [rangeAt args 0 (argNat args 1)]
  | .hashSave => [rangeAt args 0 (argNat args 1)]
  | .hashLookup _ => []
  | .hashClear => []
  | .hashSize => []

/-- The words a command may write (R99). -/
def outputRanges (i : Instr) (args : Regs8) : List Range :=
  match i with
  | .nop => []
  | .fft => [rangeAt args 0 (argNat args 2), rangeAt args 1 (argNat args 2)]
  | .ifft => [rangeAt args 0 (argNat args 2), rangeAt args 1 (argNat args 2)]
  | .ldpcEncode => [rangeAt args 1 174]
  | .ldpcDecode _ => [rangeAt args 2 174]
  | .crc14Gen => [rangeAt args 1 14]
  | .crc14Check => []
  | .mixDown => [rangeAt args 5 (argNat args 4), rangeAt args 6 (argNat args 4)]
  | .symbolTones mode => [rangeAt args 6 (2 * tones mode * argNat args 5)]
  | .syncCount _ => []
  | .softBits mode => [rangeAt args 1 (174 * metricArrays mode)]
  | .pack77 => [rangeAt args 2 77]
  | .unpack77 _ => [rangeAt args 1 (argNat args 2)]
  | .hashCompute => []
  | .hashSave => []
  | .hashLookup _ => [rangeAt args 1 (argNat args 2)]
  | .hashClear => []
  | .hashSize => []

/-- The running command and its arguments, when the engine is busy with a word that decodes (R52). -/
def State.running (s : State) : Option (Instr × Regs8) :=
  match s.phase with
  | .idle => none
  | .busy w args => (decode w).toOption.map fun i => (i, args)

/-- The output ranges of the running command; none while idle, or busy with a word that encodes no command
(R80, R352, log entry 5). -/
def State.runningOutputs (s : State) : List Range :=
  match s.running with
  | none => []
  | some (i, args) => outputRanges i args

/-- The footprint of the running command in the data memory (R79). -/
def State.footprint (s : State) : List Range :=
  match s.running with
  | none => []
  | some (i, args) => inputRanges i args ++ outputRanges i args

end Sys2Proof.Machine
end

