-- ==== Sys2Proof/Machine/Codec.lean ====
section
/-! DEFINITION. The 77-bit message codec and the commands PACK77 and UNPACK77 (spec 43_codec R240 to R280). -/

namespace Sys2Proof.Machine

/-! ## Callsign tokens -/

/-- NTOKENS (R245). -/
def nTokens : Nat := 2063592

/-- MAX22 (R245). -/
def max22 : Nat := 4194304

/-- A decimal digit. -/
def isDigit (c : Char) : Bool := A10.contains c

/-- A letter A to Z. -/
def isLetter (c : Char) : Bool := letters.contains c

/-- p of R246: the highest 1-based position from 2 on that holds a digit. -/
def lastDigitPos (c : List Char) : Option Nat :=
  ((List.range (c.length + 1)).drop 2).reverse.find? fun p => isDigit (c.getD (p - 1) ' ')

/-- n of R246 for the 6-character form. -/
def sixCharValue (c6 : List Char) : Nat :=
  ((((alphaIdx A37 (c6.getD 0 ' ') * 36 + alphaIdx A36 (c6.getD 1 ' ')) * 10
    + alphaIdx A10 (c6.getD 2 ' ')) * 27 + alphaIdx A27 (c6.getD 3 ' ')) * 27
    + alphaIdx A27 (c6.getD 4 ' ')) * 27 + alphaIdx A27 (c6.getD 5 ' ')

/-- n of R246 for a standard callsign; none for any other text. -/
def standardValue (c : List Char) : Option Nat :=
  if 3 ≤ c.length ∧ c.length ≤ 6 ∧ c.all A36.contains = true then
    match lastDigitPos c with
    | none => none
    | some p =>
      if (p = 2 ∨ p = 3) ∧ (c.take (p - 1)).any isLetter = true ∧ (c.drop p).all isLetter = true
          ∧ (c.drop p).length ≤ 3 then
        some (sixCharValue (padRight 6 (if p = 2 then ' ' :: c else c)))
      else none
  else none

/-- The text of a standard callsign's n (R246). -/
def standardText (n : Nat) : List Char :=
  trim [alphaChar A37 (n / 27 / 27 / 27 / 10 / 36), alphaChar A36 (n / 27 / 27 / 27 / 10 % 36),
    alphaChar A10 (n / 27 / 27 / 27 % 10), alphaChar A27 (n / 27 / 27 % 27), alphaChar A27 (n / 27 % 27),
    alphaChar A27 (n % 27)]

/-- What a c28 token means (R245). -/
inductive Token where
  /-- DE, QRZ or a CQ form, with its text. -/
  | special (text : List Char)
  | unused
  | hashed (h22 : Nat)
  | standard (text : List Char)
deriving DecidableEq, Repr

/-- The meaning of a 28-bit token (R245). -/
def tokenOf (v : Nat) : Token :=
  if v = 0 then .special "DE".toList
  else if v = 1 then .special "QRZ".toList
  else if v = 2 then .special "CQ".toList
  else if v ≤ 1002 then .special ("CQ ".toList ++ alphaText A10 3 (v - 3))
  else if v ≤ 532443 then .special ("CQ ".toList ++ trim (alphaText A27 4 (v - 1003)))
  else if v < nTokens then .unused
  else if v < nTokens + max22 then .hashed (v - nTokens)
  else .standard (standardText (v - nTokens - max22))

/-! ## Grid, report and acknowledgement -/

/-- A grid (R248). -/
def isGrid : List Char → Bool
  | [l1, l2, d1, d2] =>
    (letters.take 18).contains l1 && (letters.take 18).contains l2 && isDigit d1 && isDigit d2
  | _ => false

/-- The g15 value of a grid (R248). -/
def gridValue (t : List Char) : Nat :=
  (alphaIdx letters (t.getD 0 'A') * 18 + alphaIdx letters (t.getD 1 'A')) * 100
    + alphaIdx A10 (t.getD 2 '0') * 10 + alphaIdx A10 (t.getD 3 '0')

/-- The grid of a g15 value (R248). -/
def gridText (g : Nat) : List Char :=
  [alphaChar letters (g / 1800), alphaChar letters (g / 100 % 18), alphaChar A10 (g / 10 % 10),
    alphaChar A10 (g % 10)]

/-- The value of a report, a sign and two digits, within -30 to +99 (R247, R253). -/
def reportValue : List Char → Option Int
  | [sign, d1, d2] =>
    if isDigit d1 = true ∧ isDigit d2 = true then
      let v : Int := (alphaIdx A10 d1 * 10 + alphaIdx A10 d2 : Nat)
      if sign = '+' then some v
      else if sign = '-' ∧ v ≤ 30 then some (-v)
      else none
    else none
  | _ => none

/-- The text of a report (R247). -/
def reportText (r : Int) : List Char := (if r < 0 then '-' else '+') :: alphaText A10 2 r.natAbs

/-- The text of the g15 field with R1; the empty text for no extra field, none where unpacking fails (R247). -/
def extraText (r1 : Bool) (g : Nat) : Option (List Char) :=
  if g < 32400 then some (if r1 then "R ".toList ++ gridText g else gridText g)
  else if 32405 ≤ g ∧ g ≤ 32534 then
    some (if r1 then 'R' :: reportText ((g : Int) - 32435) else reportText ((g : Int) - 32435))
  else if r1 then none
  else if g = 32401 then some []
  else if g = 32402 then some "RRR".toList
  else if g = 32403 then some "RR73".toList
  else if g = 32404 then some "73".toList
  else none

/-! ## Token readers of the packer -/

/-- The suffix of a callsign (R244). -/
inductive Suffix where
  | none
  | slashR
  | slashP
deriving DecidableEq, Repr

/-- A packed call: its c28 token and its suffix (R253). -/
structure Call where
  c28 : Nat
  suffix : Suffix
deriving DecidableEq, Repr

/-- A text without its `/R` or `/P`, and which it had (R253). -/
def splitSuffix (x : List Char) : List Char × Suffix :=
  match x.reverse with
  | 'R' :: '/' :: rest => (rest.reverse, .slashR)
  | 'P' :: '/' :: rest => (rest.reverse, .slashP)
  | _ => (x, .none)

/-- stdcall (R253). -/
def stdCall (x : List Char) : Option Call :=
  (standardValue (splitSuffix x).1).map fun n => { c28 := nTokens + max22 + n, suffix := (splitSuffix x).2 }

/-- The callsign y of a text `<y>`, where hashtok accepts it (R253). -/
def bracketed (x : List Char) : Option (List Char) :=
  let y := x.tail.dropLast
  if x.head? = some '<' ∧ x.getLast? = some '>' ∧ validCallsign y = true then some y else none

/-- hashtok (R253). -/
def hashTok (x : List Char) : Option Call :=
  (bracketed x).map fun y => { c28 := nTokens + hash22 y, suffix := .none }

/-- stdcall or hashtok (R254). -/
def callTok (x : List Char) : Option Call :=
  match stdCall x with
  | some c => some c
  | none => hashTok x

/-- cqtok at the first word: the token and how many words it takes (R253). -/
def cqTok : List (List Char) → Option (Nat × Nat)
  | [] => none
  | x :: rest =>
    if x = "DE".toList then some (0, 1)
    else if x = "QRZ".toList then some (1, 1)
    else if x = "CQ".toList then
      match rest with
      | [] => some (2, 1)
      | y :: more =>
        if y.length = 3 ∧ y.all isDigit = true then some (3 + alphaValue A10 y, 2)
        else if 1 ≤ y.length ∧ y.length ≤ 4 ∧ y.all isLetter = true ∧ more ≠ [] then
          some (1003 + alphaValue A27 (padLeft 4 y), 2)
        else some (2, 1)
    else none

/-- extra: R1 and g15 of the remaining words (R253). RR73 is never read as a grid, after an R neither (log entry
26). -/
def extraTok : List (List Char) → Option (Bool × Nat)
  | [] => some (false, 32401)
  | [x] =>
    if x = "RRR".toList then some (false, 32402)
    else if x = "RR73".toList then some (false, 32403)
    else if x = "73".toList then some (false, 32404)
    else if isGrid x then some (false, gridValue x)
    else
      match reportValue x with
      | some r => some (false, (32435 + r).toNat)
      | none =>
        if x.head? = some 'R' then (reportValue x.tail).map fun r => (true, (32435 + r).toNat) else none
  | [x, y] =>
    if x = "R".toList ∧ isGrid y = true ∧ y ≠ "RR73".toList then some (true, gridValue y) else none
  | _ => none

/-- r2 (R254). -/
def ackTok (rest : List (List Char)) : Option Nat :=
  if rest = [] then some 0
  else if rest = ["RRR".toList] then some 1
  else if rest = ["RR73".toList] then some 2
  else if rest = ["73".toList] then some 3
  else none

/-- nonstd (R254). -/
def nonStd (x : List Char) : Bool :=
  decide (3 ≤ x.length ∧ x.length ≤ 11) && x.all callsignChar && (stdCall x).isNone

/-! ## Packing -/

/-- A packed message: its 77 bits, its type and the form that matched (R270). -/
structure Packed where
  bits : List Bool
  i3 : Nat
  n3 : Nat
  form : Nat
deriving DecidableEq, Repr

/-- Two suffixes that one message type can carry (R254). -/
def suffixesAgree (a b : Suffix) : Bool := !((a == .slashR && b == .slashP) || (a == .slashP && b == .slashR))

/-- The bits of a standard message (R244). -/
def standardBits (a b : Call) (r1 : Bool) (g : Nat) (i3 : Nat) : List Bool :=
  natBits 28 a.c28 ++ [a.suffix != .none] ++ natBits 28 b.c28 ++ [b.suffix != .none] ++ [r1]
    ++ natBits 15 g ++ natBits 3 i3

/-- The first call of a standard message and how many words it takes (R254). -/
def firstCall (w : List (List Char)) : Option (Call × Nat) :=
  match cqTok w with
  | some (v, used) => some ({ c28 := v, suffix := .none }, used)
  | none =>
    match w with
    | [] => none
    | x :: _ => (callTok x).map fun a => (a, 1)

/-- Step 1 of PACK: a standard message (R254). -/
def packStandard (w : List (List Char)) : Option Packed := do
  let (a, k) ← firstCall w
  let x ← w[k]?
  let b ← callTok x
  let (r1, g) ← extraTok (w.drop (k + 1))
  if suffixesAgree a.suffix b.suffix then
    let i3 := if a.suffix = .slashP ∨ b.suffix = .slashP then 2 else 1
    some { bits := standardBits a b r1 g i3, i3 := i3, n3 := 0, form := 1 }
  else none

/-- The bits of a message with one hashed call (R249). -/
def hashedBits (h12 : Nat) (call : List Char) (h1 : Bool) (r2 : Nat) (c1 : Bool) : List Bool :=
  natBits 12 h12 ++ natBits 58 (callsignNumber call) ++ [h1] ++ natBits 2 r2 ++ [c1] ++ natBits 3 4

/-- Step 2 of PACK with two calls and an acknowledgement (R254). -/
def packTwoCalls (x y : List Char) (rest : List (List Char)) : Option (List Bool) :=
  match ackTok rest with
  | none => none
  | some r =>
    match bracketed x, bracketed y with
    | some h, none => if nonStd y then some (hashedBits (hash12 h) y false r false) else none
    | none, some h => if nonStd x then some (hashedBits (hash12 h) x true r false) else none
    | _, _ => none

/-- Step 2 of PACK: one hashed call (R254). -/
def packHashed : List (List Char) → Option Packed
  | x :: y :: rest =>
    (if x = "CQ".toList ∧ rest = [] ∧ nonStd y = true then some (hashedBits 0 y false 0 true)
      else packTwoCalls x y rest).map fun bits => { bits := bits, i3 := 4, n3 := 0, form := 4 }
  | _ => none

/-- The 13 characters of step 3 of PACK (R254). -/
def freeTextChars (t : List Char) : List Char :=
  (padRight 13 (t.take 13)).map fun c => if A42.contains c then c else ' '

/-- Step 3 of PACK: free text (R254). -/
def packFree (t : List Char) : Packed :=
  { bits := natBits 71 (alphaValue A42 (freeTextChars t)) ++ natBits 3 0 ++ natBits 3 0
    i3 := 0, n3 := 0, form := 0 }

/-- PACK on the words of a normalized text (R254). -/
def pack (w : List (List Char)) : Packed :=
  match packStandard w with
  | some p => p
  | none =>
    match packHashed w with
    | some p => p
    | none => packFree (unwords w)

/-- The words of the normalized text (R252). -/
def normalizedWords (t : List Char) : List (List Char) := words (upper t)

/-! ## Unpacking -/

/-- A message's i3 (R240). -/
def messageI3 (m : List Bool) : Nat := bitField m 74 3

/-- A message's n3, 0 unless i3 = 0 (R240, R275, log entry 9). -/
def messageN3 (m : List Bool) : Nat := if messageI3 m = 0 then bitField m 71 3 else 0

/-- The text of a hash's lookup (R250). -/
def resolvedText : Option Callsign → List Char
  | some x => '<' :: x ++ ['>']
  | none => "<...>".toList

/-- An unpacked message: its text, and the callsign it teaches the table (R251). -/
structure Unpacked where
  text : List Char
  learn : Option Callsign
deriving DecidableEq, Repr

/-- Unpacking of free text (R257). -/
def unpackFree (m : List Bool) : Option Unpacked :=
  let f71 := bitField m 0 71
  if 42 ^ 13 ≤ f71 then none else some { text := trim (alphaText A42 13 f71), learn := none }

/-- The word of a callsign token with its suffix bit; none where unpacking fails (R258). -/
def tokenWord (lookup : Nat → Option Callsign) (sfx : List Char) (r : Bool) : Token → Option (List Char)
  | .special text => if r then none else some text
  | .unused => none
  | .hashed h => if r then none else some (resolvedText (lookup h))
  | .standard text => some (if r then text ++ sfx else text)

/-- The word of the second token, which DE, QRZ and the CQ forms may not be (R258). -/
def secondWord (lookup : Nat → Option Callsign) (sfx : List Char) (r : Bool) (v : Nat) : Option (List Char) :=
  if v < nTokens then none else tokenWord lookup sfx r (tokenOf v)

/-- The callsign a second token teaches: a standard one in the form the table stores (R251, R294, log entry 10). -/
def learnedCall : Token → Option Callsign
  | .special _ => none
  | .unused => none
  | .hashed _ => none
  | .standard text => if validCallsign text then some text else none

/-- Unpacking of a standard message (R258). -/
def unpackStandard (lookup22 : Nat → Option Callsign) (m : List Bool) : Option Unpacked := do
  let sfx := if messageI3 m = 1 then "/R".toList else "/P".toList
  let c28b := bitField m 29 28
  let word1 ← tokenWord lookup22 sfx (bitAt m 28) (tokenOf (bitField m 0 28))
  let word2 ← secondWord lookup22 sfx (bitAt m 57) c28b
  let ext ← extraText (bitAt m 58) (bitField m 59 15)
  some { text := word1 ++ ' ' :: word2 ++ (if ext = [] then [] else ' ' :: ext)
         learn := learnedCall (tokenOf c28b) }

/-- The text after the two calls of a type-4 message (R249, R259). -/
def ackText (r2 : Nat) : List Char :=
  match r2 with
  | 1 => " RRR".toList
  | 2 => " RR73".toList
  | 3 => " 73".toList
  | _ => []

/-- Unpacking of a message with one hashed call (R259). -/
def unpackHashed (lookup12 : Nat → Option Callsign) (m : List Bool) : Option Unpacked :=
  let c58 := bitField m 12 58
  let x := trim (alphaText A38 11 c58)
  if 38 ^ 11 ≤ c58 ∨ x = [] then none
  else if bitAt m 73 then some { text := "CQ ".toList ++ x, learn := none }
  else
    let hc := resolvedText (lookup12 (bitField m 0 12))
    let calls := if bitAt m 70 then x ++ ' ' :: hc else hc ++ ' ' :: x
    some { text := calls ++ ackText (bitField m 71 2), learn := none }

/-- Unpacking by type (R256); nothing where it fails. -/
def unpack (lookup22 lookup12 : Nat → Option Callsign) (m : List Bool) : Option Unpacked :=
  let i3 := messageI3 m
  if i3 = 0 ∧ messageN3 m = 0 then unpackFree m
  else if i3 = 1 ∨ i3 = 2 then unpackStandard lookup22 m
  else if i3 = 4 then unpackHashed lookup12 m
  else none

/-- Unpacking with the table's lookups, or with none when USE_HT = 0 (R250). -/
def unpackWith (useHt : Bool) (t : HashTable) (m : List Bool) : Option Unpacked :=
  if useHt then unpack t.lookup22 t.lookup12 m else unpack (fun _ => none) (fun _ => none) m

/-! ## The commands -/

/-- TEXT_MAX (R8, D30). -/
def textMax : Nat := 40

/-- The effect of packing a normalized text (R270). -/
def packEffect (s : State) (out : Nat) (w : List (List Char)) : Effect :=
  if w = [] then { writes := [], ht := s.ht, res := results [0] }
  else
    { writes := [(out, (pack w).bits.map bitWord)]
      ht := s.ht
      res := results [1, (pack w).i3, (pack w).n3, (pack w).form] }

/-- The rule of PACK77 (R270). -/
def pack77Rule (s : State) : Check Effect := do
  let L := argNat s.snapshot 1
  require (decide (L ≤ 256)) .len
  checkRanges (inputRanges .pack77 s.snapshot) (outputRanges .pack77 s.snapshot)
  let t ← readChars s.dmem (argNat s.snapshot 0) L
  .ok (packEffect s (argNat s.snapshot 2) (normalizedWords t))

/-- The callsign an unpacking teaches the table: none with USE_HT = 0 (R251). -/
def learning (useHt : Bool) (u : Unpacked) : Option Callsign := if useHt then u.learn else none

/-- The effect of unpacking a message (R251, R275). -/
def unpackEffect (useHt : Bool) (s : State) (out : Nat) (m : List Bool) : Effect :=
  match unpackWith useHt s.ht m with
  | none => { writes := [], ht := s.ht, res := results [0, 0, messageI3 m, messageN3 m] }
  | some u =>
    match learning useHt u with
    | none =>
      { writes := [(out, u.text.map charWord)]
        ht := s.ht
        res := results [1, u.text.length, messageI3 m, messageN3 m, 0] }
    | some x =>
      { writes := [(out, u.text.map charWord)]
        ht := s.ht.save x
        res := results [1, u.text.length, messageI3 m, messageN3 m, (s.ht.saveChanges x).toNat] }

/-- The rule of UNPACK77 (R275). -/
def unpack77Rule (useHt : Bool) (s : State) : Check Effect := do
  require (decide (textMax ≤ argNat s.snapshot 2)) .len
  checkRanges (inputRanges (.unpack77 useHt) s.snapshot) (outputRanges (.unpack77 useHt) s.snapshot)
  let m ← readBits s.dmem (argNat s.snapshot 0) 77
  .ok (unpackEffect useHt s (argNat s.snapshot 1) m)

/-- PACK77 (R270). -/
def execPack77 (s : State) : Host.Outcome State Fault Refusal := runCommand (pack77Rule s) s

/-- UNPACK77 (R275). -/
def execUnpack77 (useHt : Bool) (s : State) : Host.Outcome State Fault Refusal :=
  runCommand (unpack77Rule useHt s) s

end Sys2Proof.Machine
end

