-- ==== Sys2Proof/Machine/HashCall.lean ====
section
/-! DEFINITION. The hash-table commands HASH_COMPUTE, HASH_SAVE, HASH_LOOKUP, HASH_CLEAR and HASH_SIZE, and NOP
(spec 44_hashcall R300 to R312). -/

namespace Sys2Proof.Machine

/-- The rule of NOP (R312). -/
def nopRule (s : State) : Check Effect := .ok { writes := [], ht := s.ht, res := results [1] }

/-- The rule of HASH_COMPUTE (R300). -/
def hashComputeRule (s : State) : Check Effect := do
  let L := argNat s.snapshot 1
  require (decide (L ≠ 0 ∧ L ≤ 11)) .len
  checkRanges (inputRanges .hashCompute s.snapshot) (outputRanges .hashCompute s.snapshot)
  let t ← readChars s.dmem (argNat s.snapshot 0) L
  let x := upper t
  require (x.all A38.contains) .value
  .ok { writes := [], ht := s.ht, res := results [1, hash10 x, hash12 x, hash22 x] }

/-- The effect of a save of what the host gave as a callsign (R301). -/
def saveEffect (s : State) (x : Option Callsign) : Effect :=
  match x with
  | none => { writes := [], ht := s.ht, res := results [0] }
  | some x =>
    { writes := []
      ht := s.ht.save x
      res := results [1, (s.ht.saveChanges x).toNat, (s.ht.save x).ht22.length] }

/-- The rule of HASH_SAVE (R301). -/
def hashSaveRule (s : State) : Check Effect := do
  let L := argNat s.snapshot 1
  require (decide (L ≤ 256)) .len
  checkRanges (inputRanges .hashSave s.snapshot) (outputRanges .hashSave s.snapshot)
  let t ← readChars s.dmem (argNat s.snapshot 0) L
  .ok (saveEffect s (canon t))

/-- The hash width of a WIDTH field; none for the reserved value (R92). -/
def widthBits (width : BitVec 2) : Option Nat :=
  match width.toNat with
  | 0 => some 10
  | 1 => some 12
  | 2 => some 22
  | _ => none

/-- lookup_w for a WIDTH field (R293, R303). -/
def HashTable.lookup (t : HashTable) (width : BitVec 2) (h : Nat) : Option Callsign :=
  match width.toNat with
  | 0 => t.lookup10 h
  | 1 => t.lookup12 h
  | _ => t.lookup22 h

/-- The effect of a lookup (R303). -/
def lookupEffect (s : State) (out : Nat) (x : Option Callsign) : Effect :=
  match x with
  | none => { writes := [], ht := s.ht, res := results [0] }
  | some x => { writes := [(out, x.map charWord)], ht := s.ht, res := results [1, x.length] }

/-- The rule of HASH_LOOKUP (R303). -/
def hashLookupRule (width : BitVec 2) (s : State) : Check Effect := do
  match widthBits width with
  | none => .error (.error .arg)
  | some w =>
    let h := argNat s.snapshot 0
    require (decide (h < 2 ^ w)) .arg
    require (decide (11 ≤ argNat s.snapshot 2)) .len
    checkRanges (inputRanges (.hashLookup width) s.snapshot) (outputRanges (.hashLookup width) s.snapshot)
    .ok (lookupEffect s (argNat s.snapshot 1) (s.ht.lookup width h))

/-- The rule of HASH_CLEAR (R296, R305). -/
def hashClearRule (_ : State) : Check Effect := .ok { writes := [], ht := HashTable.empty, res := results [1] }

/-- The rule of HASH_SIZE (R306). -/
def hashSizeRule (s : State) : Check Effect :=
  .ok { writes := []
        ht := s.ht
        res := results [1, s.ht.ht22.length, s.ht.ht10.length, s.ht.ht12.length] }

/-- NOP (R312). -/
def execNop (s : State) : Host.Outcome State Fault Refusal := runCommand (nopRule s) s

/-- HASH_COMPUTE (R300). -/
def execHashCompute (s : State) : Host.Outcome State Fault Refusal := runCommand (hashComputeRule s) s

/-- HASH_SAVE (R301). -/
def execHashSave (s : State) : Host.Outcome State Fault Refusal := runCommand (hashSaveRule s) s

/-- HASH_LOOKUP (R303). -/
def execHashLookup (width : BitVec 2) (s : State) : Host.Outcome State Fault Refusal :=
  runCommand (hashLookupRule width s) s

/-- HASH_CLEAR (R305). -/
def execHashClear (s : State) : Host.Outcome State Fault Refusal := runCommand (hashClearRule s) s

/-- HASH_SIZE (R306). -/
def execHashSize (s : State) : Host.Outcome State Fault Refusal := runCommand (hashSizeRule s) s

end Sys2Proof.Machine
end

