-- ==== Sys2Proof/Machine/Float64.lean ====
section
/-! DEFINITION. IEEE 754 binary64 arithmetic on bit patterns (spec 00_scope R12): every operation is computed
exactly on integers and rounded once, to nearest, ties to even; subnormals and signed zeros are kept, and a NaN
result is the canonical quiet NaN. -/

namespace Sys2Proof.Machine

/-- The canonical quiet NaN (R12, U18). -/
def qNaN : F64 := 0x7FF8000000000000

/-- An infinity. -/
def infF64 (neg : Bool) : F64 := if neg then 0xFFF0000000000000 else 0x7FF0000000000000

/-- A signed zero. -/
def zeroF64 (neg : Bool) : F64 := if neg then 0x8000000000000000 else 0

/-- 1.0. -/
def oneF64 : F64 := 0x3FF0000000000000

/-- -1.0. -/
def negOneF64 : F64 := 0xBFF0000000000000

/-- 2.0. -/
def twoF64 : F64 := 0x4000000000000000

/-- What a bit pattern stands for: `fin neg m e` is the number (-1)^neg · m · 2^e. -/
inductive FVal where
  | nan
  | inf (neg : Bool)
  | fin (neg : Bool) (m : Nat) (e : Int)
deriving DecidableEq, Repr

/-- The value of a binary64 pattern (R12, R73). -/
def fval (x : F64) : FVal :=
  let neg := x.msb
  let ex : Nat := x.toNat / 2 ^ 52 % 2048
  let fr : Nat := x.toNat % 2 ^ 52
  if ex = 2047 then (if fr = 0 then .inf neg else .nan)
  else if ex = 0 then .fin neg fr (-1074)
  else .fin neg (2 ^ 52 + fr) ((ex : Int) - 1075)

/-- `m / 2^k` rounded to the nearest integer, ties to even. -/
def roundShift (m k : Nat) : Nat :=
  let q := m / 2 ^ k
  let r := 2 * (m % 2 ^ k)
  if 2 ^ k < r then q + 1
  else if r = 2 ^ k then q + q % 2
  else q

/-- The binary64 number nearest to (-1)^neg · m · 2^e, ties to even (R12). The unit of the result's last place is
2^q, not below the subnormals' 2^-1074; a carry out of the rounded fraction runs into the exponent field, and a
result that reaches the exponent 2047 is an infinity. -/
def roundF64 (neg : Bool) (m : Nat) (e : Int) : F64 :=
  if m = 0 then zeroF64 neg
  else
    let q := max ((m.log2 : Int) + e - 52) (-1074)
    let n := if e ≤ q then roundShift m (q - e).toNat else m * 2 ^ (e - q).toNat
    let bits := (q + 1074).toNat * 2 ^ 52 + n
    if 0x7FF0000000000000 ≤ bits then infF64 neg
    else BitVec.ofNat 64 (bits + if neg then 2 ^ 63 else 0)

/-- Is the pattern a NaN? -/
def isNaN (x : F64) : Bool := fval x == .nan

/-- A pattern with every NaN replaced by the canonical one (R12). -/
def canonNaN (x : F64) : F64 := if isNaN x then qNaN else x

/-- A function of the parameter TRIG as the engine applies it (R12): a NaN argument gives a NaN, as in every other
operation (R167), and a NaN result is the canonical one (log entry 7). -/
def trigValue (f : F64 → F64) (x : F64) : F64 := if isNaN x then qNaN else canonNaN (f x)

/-- Negation (R13's conj, R165). -/
def fneg (x : F64) : F64 := if isNaN x then qNaN else x ^^^ 0x8000000000000000

/-- Magnitude of a real number (R152). -/
def fabs (x : F64) : F64 := if isNaN x then qNaN else x &&& 0x7FFFFFFFFFFFFFFF

/-- A signed integer from a sign and a magnitude. -/
def signedInt (neg : Bool) (m : Nat) : Int := if neg then -(m : Int) else (m : Int)

/-- Addition (R12). An exact zero sum is -0 only when both operands are. -/
def fadd (x y : F64) : F64 :=
  match fval x, fval y with
  | .nan, _ => qNaN
  | _, .nan => qNaN
  | .inf a, .inf b => if a = b then infF64 a else qNaN
  | .inf a, .fin _ _ _ => infF64 a
  | .fin _ _ _, .inf b => infF64 b
  | .fin s m e, .fin t n f =>
    let g := min e f
    let v := signedInt s (m * 2 ^ (e - g).toNat) + signedInt t (n * 2 ^ (f - g).toNat)
    if v = 0 then zeroF64 (s && t) else roundF64 (decide (v < 0)) v.natAbs g

/-- Subtraction (R12). -/
def fsub (x y : F64) : F64 := fadd x (fneg y)

/-- Multiplication (R12). -/
def fmul (x y : F64) : F64 :=
  match fval x, fval y with
  | .nan, _ => qNaN
  | _, .nan => qNaN
  | .inf a, .inf b => infF64 (a != b)
  | .inf a, .fin t n _ => if n = 0 then qNaN else infF64 (a != t)
  | .fin s m _, .inf b => if m = 0 then qNaN else infF64 (s != b)
  | .fin s m e, .fin t n f => roundF64 (s != t) (m * n) (e + f)

/-- Division (R12, R326). The quotient is taken to at least 67 bits with the remainder kept as a last sticky bit,
so that one rounding gives the nearest number. -/
def fdiv (x y : F64) : F64 :=
  match fval x, fval y with
  | .nan, _ => qNaN
  | _, .nan => qNaN
  | .inf _, .inf _ => qNaN
  | .inf a, .fin t _ _ => infF64 (a != t)
  | .fin s _ _, .inf b => zeroF64 (s != b)
  | .fin s m e, .fin t n f =>
    if n = 0 then (if m = 0 then qNaN else infF64 (s != t))
    else
      let q := m * 2 ^ 120 / n
      let sticky := if m * 2 ^ 120 % n = 0 then 0 else 1
      roundF64 (s != t) (2 * q + sticky) (e - f - 121)

/-- The integer square root of `n`, found bit by bit from bit `k - 1` down, above the part `r` already found. -/
def isqrtFrom (n : Nat) : Nat → Nat → Nat
  | 0, r => r
  | k + 1, r => if (r + 2 ^ k) * (r + 2 ^ k) ≤ n then isqrtFrom n k (r + 2 ^ k) else isqrtFrom n k r

/-- Correctly rounded square root (R12): the root of m · 2^e with an even exponent, taken to at least 59 bits
with a last sticky bit. -/
def fsqrt (x : F64) : F64 :=
  match fval x with
  | .nan => qNaN
  | .inf neg => if neg then qNaN else infF64 false
  | .fin neg m e =>
    if m = 0 then zeroF64 neg
    else if neg then qNaN
    else
      let odd := (e % 2).toNat
      let n := m * 2 ^ (120 + odd)
      let r := isqrtFrom n 90 0
      let sticky := if r * r = n then 0 else 1
      roundF64 false (2 * r + sticky) ((e - odd) / 2 - 61)

/-- Order of two numbers of the form (-1)^neg · m · 2^e. -/
def finLt (s : Bool) (m : Nat) (e : Int) (t : Bool) (n : Nat) (f : Int) : Bool :=
  let g := min e f
  signedInt s (m * 2 ^ (e - g).toNat) < signedInt t (n * 2 ^ (f - g).toNat)

/-- `x < y` (R12): false when either is a NaN. -/
def flt (x y : F64) : Bool :=
  match fval x, fval y with
  | .nan, _ => false
  | _, .nan => false
  | .inf a, .inf b => a && !b
  | .inf a, .fin _ _ _ => a
  | .fin _ _ _, .inf b => !b
  | .fin s m e, .fin t n f => finLt s m e t n f

/-- The number nearest to a natural number (exact below 2^53). -/
def fofNat (n : Nat) : F64 := roundF64 false n 0

/-- The larger of two numbers, a NaN when either is one (R18). -/
def fmax (x y : F64) : F64 :=
  if isNaN x || isNaN y then qNaN else if flt x y then y else x

/-- `x` held between `lo` and `hi`; a NaN stays a NaN (R165). -/
def fclamp (x lo hi : F64) : F64 := if flt x lo then lo else if flt hi x then hi else x

/-- The sum of a list from 0.0, in list order (R152, R224). -/
def fsum (xs : List F64) : F64 := xs.foldl fadd 0

/-- A complex number (R13). -/
abbrev Cplx := F64 × F64

/-- Complex addition (R13). -/
def cadd (z w : Cplx) : Cplx := (fadd z.1 w.1, fadd z.2 w.2)

/-- Complex subtraction (R13). -/
def csub (z w : Cplx) : Cplx := (fsub z.1 w.1, fsub z.2 w.2)

/-- Complex multiplication (R13). -/
def cmul (z w : Cplx) : Cplx :=
  (fsub (fmul z.1 w.1) (fmul z.2 w.2), fadd (fmul z.1 w.2) (fmul z.2 w.1))

/-- Complex conjugate (R13). -/
def conj (z : Cplx) : Cplx := (z.1, fneg z.2)

/-- Complex magnitude (R12). -/
def cabs (z : Cplx) : F64 := fsqrt (fadd (fmul z.1 z.1) (fmul z.2 z.2))

end Sys2Proof.Machine
end

