-- ==== Sys2Proof/Machine/Ldpc.lean ====
section
/-! DEFINITION. The LDPC(174,91) encoder and decoder, CRC-14, and the commands LDPC_ENCODE, LDPC_DECODE, CRC14_GEN
and CRC14_CHECK (spec 41_ldpc R150 to R182). -/

namespace Sys2Proof.Machine

/-! ## The code -/

/-- The sum of bits modulo 2. -/
def xorAll (bs : List Bool) : Bool := bs.foldl xor false

/-- Nm[m] (R150). -/
def checkBits (C : Config.LdpcTables) (m : Nat) : List Nat := C.nm.getD m []

/-- Mn[n] (R150). -/
def bitChecks (C : Config.LdpcTables) (n : Nat) : List Nat := C.mn.getD n []

/-- GEN[q][k] (R154). -/
def genBit (C : Config.LdpcTables) (q k : Nat) : Bool := bitAt (C.gen.getD q []) k

/-- Check m of a word fails (R153). -/
def checkFails (C : Config.LdpcTables) (c : List Bool) (m : Nat) : Bool :=
  xorAll ((checkBits C m).map (bitAt c))

/-- parity_fail (R153). -/
def parityFail (C : Config.LdpcTables) (c : List Bool) : Nat :=
  ((List.range 83).filter (checkFails C c)).length

/-- Parity bit q of a message (R154). -/
def parityBit (C : Config.LdpcTables) (u : List Bool) (q : Nat) : Bool :=
  xorAll ((List.range 91).map fun k => genBit C q k && bitAt u k)

/-- The codeword of a 91-bit message (R154). -/
def codeword (C : Config.LdpcTables) (u : List Bool) : List Bool :=
  u ++ (List.range 83).map (parityBit C u)

/-- The message with bit k alone set. -/
def unitMessage (k : Nat) : List Bool := (List.range 91).map fun i => decide (i = k)

/-- The two lists describe one matrix H in ascending lists (R150), and every row of the generator is a codeword,
so that parity_fail is 0 on every codeword (R154). -/
def validTables (C : Config.LdpcTables) : Bool :=
  decide (C.nm.length = 83) && decide (C.mn.length = 174)
    && decide (C.gen.length = 83) && C.gen.all (fun row => decide (row.length = 91))
    && C.nm.all (fun l => decide (l.Pairwise (· < ·)) && l.all fun n => decide (n < 174))
    && C.mn.all (fun l => decide (l.Pairwise (· < ·)) && l.all fun m => decide (m < 83))
    && (List.range 83).all (fun m => (List.range 174).all fun n =>
        (checkBits C m).contains n == (bitChecks C n).contains m)
    && (List.range 91).all (fun k => decide (parityFail C (codeword C (unitMessage k)) = 0))

/-- The tables with no check and no parity: they meet the constraints of R150 and R154. -/
def emptyTables : Config.LdpcTables :=
  { nm := List.replicate 83 [], mn := List.replicate 174 [], gen := List.replicate 83 (List.replicate 91 false) }

/-- The code's tables: the OPEN parameters, held to the constraints of R150 and R154 (log entry 4). -/
def ldpcCode : Config.LdpcTables :=
  if validTables Config.ldpcTables then Config.ldpcTables else emptyTables

/-! ## CRC-14 -/

/-- One step of the CRC register, with the next bit of the padded string (R155). -/
def crcStep (r : BitVec 14) (b : Bool) : BitVec 14 :=
  let shifted := (r <<< 1) ||| (BitVec.ofBool b).setWidth 14
  if r.getLsbD 13 then shifted ^^^ 0x2757 else shifted

/-- CRC14 of a payload (R155): 19 zeros follow it. -/
def crc14 (m : List Bool) : BitVec 14 := (m ++ List.replicate 19 false).foldl crcStep 0

/-- The 14 CRC bits, the most significant first (R156). -/
def crcBits (r : BitVec 14) : List Bool := natBits 14 r.toNat

/-- CRC14_OK (R156). -/
def crcOk (w : List Bool) : Bool := decide ((crc14 (w.take 77)).toNat = bitField w 77 14)

/-! ## Belief propagation -/

/-- The hard decision hd (R151). -/
def hard (l : F64) : Bool := flt 0 l

/-- nhard (R152). -/
def hardErrors (cw : List Bool) (llr : List F64) : Nat :=
  ((cw.zip llr).filter fun p => p.1 != hard p.2).length

/-- dist (R152). -/
def distance (cw : List Bool) (llr : List F64) : F64 :=
  fsum (((cw.zip llr).filter fun p => p.1 != hard p.2).map fun p => fabs p.2)

/-- An f64 of a list. -/
def fAt (xs : List F64) (i : Nat) : F64 := xs.getD i 0

/-- tanh of the parameter TRIG (R12). -/
def trigTanh (T : Config.Trig) (x : F64) : F64 := trigValue T.tanh x

/-- atanh of the parameter TRIG, with atanh(±1) = ±∞ as R165 has it (log entry 7). -/
def trigAtanh (T : Config.Trig) (x : F64) : F64 :=
  if x = oneF64 then infF64 false else if x = negOneF64 then infF64 true else trigValue T.atanh x

/-- BP_CLAMP, the binary64 number nearest to 18.71 (R8). -/
def bpClamp : F64 := 0x4032B5C28F5C28F6

/-- The beliefs zn (R161). -/
def beliefs (llr : List F64) (ap : List Bool) (tov : List (List F64)) : List F64 :=
  (List.range 174).map fun n =>
    if bitAt ap n then fAt llr n else (tov.getD n []).foldl fadd (fAt llr n)

/-- The bit-to-check messages toc (R164). -/
def bitToCheck (C : Config.LdpcTables) (zn : List F64) (tov : List (List F64)) : List (List F64) :=
  (List.range 83).map fun m =>
    (checkBits C m).map fun n => fsub (fAt zn n) (fAt (tov.getD n []) ((bitChecks C n).idxOf m))

/-- The values th (R165). -/
def tanhMessages (T : Config.Trig) (toc : List (List F64)) : List (List F64) :=
  toc.map fun row => row.map fun t => trigTanh T (fdiv (fneg t) twoF64)

/-- The product T of R165 over check m without bit n, from 1.0, in ascending position. -/
def productWithout (C : Config.LdpcTables) (th : List (List F64)) (m n : Nat) : F64 :=
  (((checkBits C m).zip (th.getD m [])).filter fun p => p.1 != n).foldl (fun acc p => fmul acc p.2) oneF64

/-- The check-to-bit messages tov (R165). -/
def checkToBit (T : Config.Trig) (C : Config.LdpcTables) (th : List (List F64)) : List (List F64) :=
  (List.range 174).map fun n =>
    (bitChecks C n).map fun m =>
      fclamp (fmul twoF64 (trigAtanh T (fneg (productWithout C th m n)))) (fneg bpClamp) bpClamp

/-- The first check-to-bit messages, all 0.0 (R160). -/
def tovInit (C : Config.LdpcTables) : List (List F64) :=
  (List.range 174).map fun n => (bitChecks C n).map fun _ => 0

/-- How a decoder ends: a codeword on success, and its count of iterations (BP) or its status (OSD). -/
structure Decoded where
  cw : Option (List Bool)
  info : Nat
deriving DecidableEq, Repr

/-- The stall counter after an iteration (R163). -/
def stallCount (iter ncheck nclast ncnt : Nat) : Nat :=
  if iter = 0 then ncnt else if ncheck < nclast then 0 else ncnt + 1

/-- The stall test (R163): BP_STALL_RUN = 5, BP_STALL_AFTER = 10, BP_STALL_ABOVE = 15. -/
def stalled (iter ncheck ncnt : Nat) : Bool :=
  decide (0 < iter ∧ 5 ≤ ncnt ∧ 10 ≤ iter ∧ 15 < ncheck)

/-- The iterations of BP from `iter` on, at most as many as the first argument says (R166). -/
def bpLoop (T : Config.Trig) (C : Config.LdpcTables) (llr : List F64) (ap : List Bool) :
    Nat → Nat → Nat → Nat → List (List F64) → Decoded
  | 0, _, _, _, _ => { cw := none, info := 30 }
  | fuel + 1, iter, ncnt, nclast, tov =>
    let zn := beliefs llr ap tov
    let cw := zn.map hard
    let ncheck := parityFail C cw
    if ncheck = 0 ∧ crcOk cw = true then { cw := some cw, info := iter }
    else if stalled iter ncheck (stallCount iter ncheck nclast ncnt) then { cw := none, info := iter }
    else
      bpLoop T C llr ap fuel (iter + 1) (stallCount iter ncheck nclast ncnt) ncheck
        (checkToBit T C (tanhMessages T (bitToCheck C zn tov)))

/-- Belief propagation (R166): iterations 0 to BP_MAXIT = 30. -/
def beliefPropagation (T : Config.Trig) (C : Config.LdpcTables) (llr : List F64) (ap : List Bool) : Decoded :=
  bpLoop T C llr ap 31 0 0 0 (tovInit C)

/-! ## Ordered statistics -/

/-- Bit a stands before or level with bit b in the reliability order: larger first, NaN last (R171). -/
def relBefore (ra rb : F64) : Bool :=
  if isNaN ra then isNaN rb else if isNaN rb then true else !flt ra rb

/-- Insertion of an index into a list in the reliability order, before its equals. -/
def relInsert (rel : List F64) (i : Nat) : List Nat → List Nat
  | [] => [i]
  | j :: js => if relBefore (fAt rel i) (fAt rel j) then i :: j :: js else j :: relInsert rel i js

/-- The stable sort of indices by falling reliability (R171). -/
def relSort (rel : List F64) (idxs : List Nat) : List Nat := idxs.foldr (relInsert rel) []

/-- Row r of the systematic generator Gsys (R172). -/
def generatorRow (C : Config.LdpcTables) (r : Nat) : List Bool :=
  (List.range 91).map (fun c => decide (c = r)) ++ (List.range 83).map fun q => genBit C q r

/-- A list with the elements at two positions exchanged. -/
def swapAt {α : Type} (d : α) (i j : Nat) (xs : List α) : List α :=
  (xs.set i (xs.getD j d)).set j (xs.getD i d)

/-- The exclusive or of two rows. -/
def xorRow (a b : List Bool) : List Bool := List.zipWith xor a b

/-- The permuted generator and the permutation. -/
structure Elim where
  rows : List (List Bool)
  perm : List Nat
deriving DecidableEq, Repr

/-- The first pivot for row `id`: the first column from id to 110 with a 1 in a row from id on, and the first
such row (R173). -/
def findPivot (g : List (List Bool)) (id : Nat) : Option (Nat × Nat) :=
  (((List.range 111).drop id).findSome? fun col =>
    (((List.range 91).drop id).find? fun r => bitAt (g.getD r []) col).map fun r => (col, r))

/-- One turn of the elimination's outer loop (R173). -/
def eliminateStep (e : Elim) (id : Nat) : Option Elim :=
  match findPivot e.rows id with
  | none => none
  | some (col, r) =>
    let rows := swapAt [] r id (e.rows.map (swapAt false id col))
    let pivot := rows.getD id []
    some
      { rows := rows.mapIdx fun r2 row => if r2 != id && bitAt row id then xorRow row pivot else row
        perm := swapAt 0 id col e.perm }

/-- Gaussian elimination over the rows in turn; nothing when some row has no pivot (R173). -/
def eliminate (e : Elim) : Option Elim :=
  (List.range 91).foldl (fun acc id => acc.bind fun e => eliminateStep e id) (some e)

/-- D(c) (R175). -/
def weight (hp : List Bool) (relp : List F64) (c : List Bool) : F64 :=
  fsum (((c.zip hp).zip relp).filterMap fun p => if p.1.1 != p.1.2 then some p.2 else none)

/-- A candidate replaces the best one only on a strict decrease of the distance (R176). -/
def keepBest (hp : List Bool) (relp : List F64) (best : List Bool × F64) (c : List Bool) : List Bool × F64 :=
  let d := weight hp relp c
  if flt d best.2 then (c, d) else best

/-- The order-1 candidates in order (R176). -/
def orderOne (g : List (List Bool)) (app c0 : List Bool) : List (List Bool) :=
  ((List.range 91).filter fun i => !bitAt app i).map fun i => xorRow c0 (g.getD i [])

/-- The order-2 candidates in order (R177), within the OSD_ORDER2_WINDOW = 64 last information bits. -/
def orderTwo (g : List (List Bool)) (app c0 : List Bool) : List (List Bool) :=
  ((List.range 91).drop 27).flatMap fun i =>
    (((List.range 91).drop (i + 1)).filter fun j => !bitAt app i && !bitAt app j).map fun j =>
      xorRow (xorRow c0 (g.getD i [])) (g.getD j [])

/-- The baseline codeword c0 (R174). -/
def baseline (g : List (List Bool)) (hp : List Bool) : List Bool :=
  (List.range 174).map fun j => xorAll ((List.range 91).map fun r => bitAt hp r && bitAt (g.getD r []) j)

/-- The word whose bit perm[j] is bit j of the given one (R178). -/
def unpermute (perm : List Nat) (best : List Bool) : List Bool :=
  (List.range 174).map fun n => bitAt best (perm.idxOf n)

/-- Ordered-statistics decoding (R170 to R178); the info is osd_status. -/
def orderedStatistics (C : Config.LdpcTables) (llr : List F64) (ap : List Bool) (d : Int) : Decoded :=
  let rel := llr.map fabs
  let perm0 := relSort rel (List.range 174)
  let g0 := (List.range 91).map fun r => perm0.map (bitAt (generatorRow C r))
  match eliminate { rows := g0, perm := perm0 } with
  | none => { cw := none, info := 2 }
  | some e =>
    let hp := e.perm.map fun n => hard (fAt llr n)
    let relp := e.perm.map (fAt rel)
    let app := e.perm.map (bitAt ap)
    let c0 := baseline e.rows hp
    let candidates := orderOne e.rows app c0 ++ if 1 ≤ d then orderTwo e.rows app c0 else []
    let best := (candidates.foldl (keepBest hp relp) (c0, weight hp relp c0)).1
    let cw := unpermute e.perm best
    if crcOk cw then { cw := some cw, info := 1 } else { cw := none, info := 3 }

/-! ## The commands -/

/-- The two halves of an f64 result, low first (R37). -/
def f64Halves (x : F64) : List Nat := [(x.extractLsb' 0 32).toNat, (x.extractLsb' 32 32).toNat]

/-- The rule of LDPC_ENCODE (R157). -/
def ldpcEncodeRule (s : State) : Check Effect := do
  checkRanges (inputRanges .ldpcEncode s.snapshot) (outputRanges .ldpcEncode s.snapshot)
  let u ← readBits s.dmem (argNat s.snapshot 0) 91
  .ok { writes := [(argNat s.snapshot 1, (codeword ldpcCode u).map bitWord)], ht := s.ht, res := results [1] }

/-- The outcome of a decode (R180): BP, then OSD where BP failed and the depth asks for it. -/
structure DecodeReport where
  cw : Option (List Bool)
  variant : Nat
  iters : Nat
  osd : Nat
deriving DecidableEq, Repr

/-- BP and the OSD fallback by depth (R159, R170, R180). -/
def decodeMetrics (T : Config.Trig) (C : Config.LdpcTables) (llr : List F64) (ap : List Bool) (d : Int) :
    DecodeReport :=
  let bp := beliefPropagation T C llr ap
  match bp.cw with
  | some cw => { cw := some cw, variant := 1, iters := bp.info, osd := 0 }
  | none =>
    if 0 ≤ d then
      let o := orderedStatistics C llr ap d
      { cw := o.cw, variant := if o.cw.isSome then 2 else 0, iters := bp.info, osd := o.info }
    else { cw := none, variant := 0, iters := bp.info, osd := 0 }

/-- The effect of a decode on the output range and the results (R180). -/
def decodeEffect (s : State) (out : Nat) (llr : List F64) (r : DecodeReport) : Effect :=
  match r.cw with
  | some cw =>
    { writes := [(out, cw.map bitWord)]
      ht := s.ht
      res := results ([1, r.variant, hardErrors cw llr, r.iters] ++ f64Halves (distance cw llr) ++ [r.osd]) }
  | none => { writes := [], ht := s.ht, res := results [0, 0, 0, r.iters, 0, 0, r.osd] }

/-- The a-priori mask: all zero unless MASK_EN = 1 (R92, R180). -/
def readMask (maskEn : Bool) (m : Memory) (a : Nat) : Check (List Bool) :=
  if maskEn then readBits m a 174 else .ok (List.replicate 174 false)

/-- The rule of LDPC_DECODE (R180). The mask's value check comes before the metrics are read (R323, log entry 8). -/
def ldpcDecodeRule (maskEn : Bool) (s : State) : Check Effect := do
  checkRanges (inputRanges (.ldpcDecode maskEn) s.snapshot) (outputRanges (.ldpcDecode maskEn) s.snapshot)
  let ap ← readMask maskEn s.dmem (argNat s.snapshot 1)
  let llr ← readFs s.dmem (argNat s.snapshot 0) 174
  .ok (decodeEffect s (argNat s.snapshot 2) llr
    (decodeMetrics Config.trig ldpcCode llr ap (argInt s.snapshot 3)))

/-- The rule of CRC14_GEN (R158). -/
def crc14GenRule (s : State) : Check Effect := do
  checkRanges (inputRanges .crc14Gen s.snapshot) (outputRanges .crc14Gen s.snapshot)
  let m ← readBits s.dmem (argNat s.snapshot 0) 77
  .ok { writes := [(argNat s.snapshot 1, (crcBits (crc14 m)).map bitWord)]
        ht := s.ht
        res := results [1, (crc14 m).toNat] }

/-- The rule of CRC14_CHECK (R181). -/
def crc14CheckRule (s : State) : Check Effect := do
  checkRanges (inputRanges .crc14Check s.snapshot) (outputRanges .crc14Check s.snapshot)
  let w ← readBits s.dmem (argNat s.snapshot 0) 91
  .ok { writes := []
        ht := s.ht
        res := results [(crcOk w).toNat, (crc14 (w.take 77)).toNat, bitField w 77 14] }

/-- LDPC_ENCODE (R157). -/
def execLdpcEncode (s : State) : Host.Outcome State Fault Refusal := runCommand (ldpcEncodeRule s) s

/-- LDPC_DECODE (R180). -/
def execLdpcDecode (maskEn : Bool) (s : State) : Host.Outcome State Fault Refusal :=
  runCommand (ldpcDecodeRule maskEn s) s

/-- CRC14_GEN (R158). -/
def execCrc14Gen (s : State) : Host.Outcome State Fault Refusal := runCommand (crc14GenRule s) s

/-- CRC14_CHECK (R181). -/
def execCrc14Check (s : State) : Host.Outcome State Fault Refusal := runCommand (crc14CheckRule s) s

end Sys2Proof.Machine
end

