-- ==== Sys2Proof/Machine/Fft.lean ====
section
/-! DEFINITION. The FFT engine: the radix-2 and the chirp transform, and the commands FFT and IFFT
(spec 40_fft R120 to R132). -/

namespace Sys2Proof.Machine

/-- PI (R124). -/
def piF64 : F64 := 0x400921FB54442D18

/-- cos of the parameter TRIG (R12). -/
def trigCos (T : Config.Trig) (x : F64) : F64 := trigValue T.cos x

/-- sin of the parameter TRIG (R12). -/
def trigSin (T : Config.Trig) (x : F64) : F64 := trigValue T.sin x

/-- -s for the direction s: -1 forward, +1 inverse (R124). -/
def negDirection (inverse : Bool) : F64 := if inverse then oneF64 else negOneF64

/-- The twiddle W_L,s[k] (R124). -/
def twiddle (T : Config.Trig) (inverse : Bool) (L k : Nat) : Cplx :=
  let theta := fdiv (fmul (fmul twoF64 piF64) (fofNat k)) (fofNat L)
  (trigCos T theta, fmul (negDirection inverse) (trigSin T theta))

/-- rev_p(j) (R125). -/
def bitRev : Nat → Nat → Nat
  | 0, _ => 0
  | p + 1, j => j % 2 * 2 ^ p + bitRev p (j / 2)

/-- An element of a complex array. -/
def celem (a : Array Cplx) (k : Nat) : Cplx := a.getD k (0, 0)

/-- The bit-reversal permutation of 2^p elements (R125): swapping the pairs of an involution places element
rev_p(j) at j. -/
def bitRevPermute (p : Nat) (x : List Cplx) : List Cplx :=
  let a := x.toArray
  (List.range (2 ^ p)).map fun j => celem a (bitRev p j)

/-- One round of R126's while loop, with `half` = size / 2: element k of the next array. The pairs of one round
are disjoint, so their order does not matter. -/
def r2Element (T : Config.Trig) (inverse : Bool) (L half : Nat) (a : Array Cplx) (k : Nat) : Cplx :=
  let j := k % (2 * half)
  let w := twiddle T inverse L (j % half * (L / (2 * half)))
  let top := celem a (if j < half then k else k - half)
  let bot := celem a (if j < half then k + half else k)
  let tr := fsub (fmul w.1 bot.1) (fmul w.2 bot.2)
  let ti := fadd (fmul w.1 bot.2) (fmul w.2 bot.1)
  if j < half then (fadd top.1 tr, fadd top.2 ti) else (fsub top.1 tr, fsub top.2 ti)

/-- One round of R126's while loop. -/
def r2Stage (T : Config.Trig) (inverse : Bool) (L half : Nat) (x : List Cplx) : List Cplx :=
  let a := x.toArray
  (List.range L).map (r2Element T inverse L half a)

/-- The radix-2 transform R2 of length 2^p (R126), not normalized. -/
def r2 (T : Config.Trig) (inverse : Bool) (p : Nat) (x : List Cplx) : List Cplx :=
  (List.range p).foldl (fun y q => r2Stage T inverse (2 ^ p) (2 ^ q) y) (bitRevPermute p x)

/-- The least p with n ≤ 2^p. -/
def ceilLog2 (n : Nat) : Nat := if n ≤ 1 then 0 else (n - 1).log2 + 1

/-- log2 of the chirp path's length M, the smallest power of two not below 2N - 1 (R127). -/
def chirpLog (N : Nat) : Nat := ceilLog2 (2 * N - 1)

/-- The chirp w[n] (R127). -/
def chirp (T : Config.Trig) (inverse : Bool) (N n : Nat) : Cplx :=
  let phi := fdiv (fmul piF64 (fofNat (n * n % (2 * N)))) (fofNat N)
  (trigCos T phi, fmul (negDirection inverse) (trigSin T phi))

/-- The chirp transform CZ (R127). -/
def chirpTransform (T : Config.Trig) (inverse : Bool) (N : Nat) (x : List Cplx) : List Cplx :=
  let p := chirpLog N
  let M := 2 ^ p
  let xs := x.toArray
  let w := ((List.range N).map (chirp T inverse N)).toArray
  let a := (List.range M).map fun n => if n < N then cmul (celem xs n) (celem w n) else (0, 0)
  let b := (List.range M).map fun n =>
    if n < N then conj (celem w n) else if M - n < N then conj (celem w (M - n)) else (0, 0)
  let fa := r2 T false p a
  let fb := r2 T false p b
  let c := List.zipWith cmul fa fb
  let d := ((r2 T true p c).map fun z => (fdiv z.1 (fofNat M), fdiv z.2 (fofNat M))).toArray
  (List.range N).map fun k => cmul (celem w k) (celem d k)

/-- N is a power of two (R121). -/
def isPow2 (N : Nat) : Bool := N == 2 ^ N.log2

/-- The path of a transform: 0 radix-2, 1 chirp (R121, R129). -/
def transformPath (N : Nat) : Nat := if isPow2 N then 0 else 1

/-- The internal length of a transform (R129). -/
def transformLength (N : Nat) : Nat := if isPow2 N then N else 2 ^ chirpLog N

/-- The transform of R121, not normalized. -/
def transform (T : Config.Trig) (inverse : Bool) (N : Nat) (x : List Cplx) : List Cplx :=
  if isPow2 N then r2 T inverse N.log2 x else chirpTransform T inverse N x

/-- The forward transform as FFT computes it (R129). -/
def forwardTransform (T : Config.Trig) (N : Nat) (x : List Cplx) : List Cplx := transform T false N x

/-- The inverse transform as IFFT computes it, with its one division by N (R130). -/
def inverseTransform (T : Config.Trig) (N : Nat) (x : List Cplx) : List Cplx :=
  (transform T true N x).map fun z => (fdiv z.1 (fofNat N), fdiv z.2 (fofNat N))

/-- What FFT and IFFT share: the checks, the reads, and the writes over the input (R122, R129, R130, R132). -/
def transformCommand (f : Nat → List Cplx → List Cplx) (s : State) : Check Effect := do
  let re := argNat s.snapshot 0
  let im := argNat s.snapshot 1
  let N := argNat s.snapshot 2
  require (decide (N ≠ 0)) .len
  require (decide (N ≤ Config.nmaxFft)) .len
  checkRanges [] [⟨re, N⟩, ⟨im, N⟩]
  let xr ← readFs s.dmem re N
  let xi ← readFs s.dmem im N
  let y := f N (xr.zip xi)
  .ok { writes := [(re, y.map Prod.fst), (im, y.map Prod.snd)]
        ht := s.ht
        res := results [1, transformPath N, transformLength N] }

/-- FFT (R129). -/
def execFft (s : State) : Host.Outcome State Fault Refusal :=
  runCommand (transformCommand (forwardTransform Config.trig) s) s

/-- IFFT (R130). -/
def execIfft (s : State) : Host.Outcome State Fault Refusal :=
  runCommand (transformCommand (inverseTransform Config.trig) s) s

end Sys2Proof.Machine
end

