-- ==== Sys2Proof/Machine/SoftBits.lean ====
section
/-! DEFINITION. The soft-bit metric extractor: the commands MIX_DOWN, SYMBOL_TONES, SYNC_COUNT and SOFTBITS
(spec 42_softbits R200 to R225). -/

namespace Sys2Proof.Machine

/-! ## Mode constants -/

/-- b, the bits of a data symbol (R200). -/
def symbolBits : Mode → Nat
  | .ft8 => 3
  | .ft4 => 2

/-- The group sizes of metric arrays 0, 1 and 2 (R200). -/
def groupSizes : Mode → List Nat
  | .ft8 => [1, 2, 3]
  | .ft4 => [1, 2, 4]

/-- The sync blocks: the first symbol of each and the tones it carries (R200, R202, R203, R205). -/
def syncBlocks : Mode → List (Nat × List Nat)
  | .ft8 => [(0, [3, 1, 4, 0, 6, 5, 2]), (36, [3, 1, 4, 0, 6, 5, 2]), (72, [3, 1, 4, 0, 6, 5, 2])]
  | .ft4 => [(0, [0, 1, 3, 2]), (33, [1, 0, 2, 3]), (66, [2, 3, 1, 0]), (99, [3, 2, 0, 1])]

/-- The first symbols of the data blocks, each of 29 symbols (R200, R201). -/
def dataBlocks : Mode → List Nat
  | .ft8 => [7, 43]
  | .ft4 => [4, 37, 70]

/-- The symbols of a data block (R200). -/
def blockSymbols : Nat := 29

/-- The Gray map (R204). -/
def grayMap : Mode → List Nat
  | .ft8 => [0, 1, 3, 2, 5, 6, 4, 7]
  | .ft4 => [0, 1, 3, 2]

/-! ## MIX_DOWN -/

/-- The signed offset of output bin j from the centre bin (R210). -/
def mixOffset (M j : Nat) : Int := if j < M - M / 2 then (j : Int) else (j : Int) - M

/-- The spectrum bin that output bin j is taken from (R210). -/
def mixSource (N M : Nat) (k0 : Int) (j : Nat) : Nat := ((k0 + mixOffset M j) % (N : Int)).toNat

/-- The tapered bins y before the inverse transform, read in order of j (R210). -/
def mixBins (taper : Nat → F64) (m : Memory) (re im N M : Nat) (k0 : Int) : List Nat → Check (List Cplx)
  | [] => .ok []
  | j :: js => do
    let x ← memRead m (re + mixSource N M k0 j)
    let y ← memRead m (im + mixSource N M k0 j)
    let rest ← mixBins taper m re im N M k0 js
    .ok ((fmul x (taper j), fmul y (taper j)) :: rest)

/-- The rule of MIX_DOWN (R210). -/
def mixDownRule (s : State) : Check Effect := do
  let N := argNat s.snapshot 2
  let M := argNat s.snapshot 4
  require (decide (N ≠ 0 ∧ M ≠ 0)) .len
  require (decide (M ≤ N ∧ M ≤ Config.nmaxFft)) .len
  checkRanges (inputRanges .mixDown s.snapshot) (outputRanges .mixDown s.snapshot)
  let y ← mixBins (Config.mixTaper M) s.dmem (argNat s.snapshot 0) (argNat s.snapshot 1) N M
    (argInt s.snapshot 3) (List.range M)
  let z := inverseTransform Config.trig M y
  .ok { writes := [(argNat s.snapshot 5, z.map Prod.fst), (argNat s.snapshot 6, z.map Prod.snd)]
        ht := s.ht
        res := results [1, transformPath M] }

/-! ## SYMBOL_TONES -/

/-- The sample at position q; a position outside the signal reads as zero (R212). -/
def sampleAt (m : Memory) (re im Ls : Nat) (q : Int) : Check Cplx :=
  if 0 ≤ q ∧ q < Ls then do
    let x ← memRead m (re + q.toNat)
    let y ← memRead m (im + q.toNat)
    .ok (x, y)
  else .ok (0, 0)

/-- The samples u of one symbol from position q on (R212). -/
def symbolSamples (m : Memory) (re im Ls : Nat) (q : Int) : Nat → Check (List Cplx)
  | 0 => .ok []
  | n + 1 => do
    let z ← sampleAt m re im Ls q
    let rest ← symbolSamples m re im Ls (q + 1) n
    .ok (z :: rest)

/-- The tones of the symbols from symbol s on (R212). -/
def symbolTones (T : Config.Trig) (m : Memory) (re im Ls L : Nat) (t0 : Int) (tones s : Nat) :
    Nat → Check (List Cplx)
  | 0 => .ok []
  | n + 1 => do
    let u ← symbolSamples m re im Ls (t0 + (s * L : Nat)) L
    let rest ← symbolTones T m re im Ls L t0 tones (s + 1) n
    .ok ((forwardTransform T L u).take tones ++ rest)

/-- The words of complex values, real part first (R206). -/
def interleave (zs : List Cplx) : List Word64 := zs.flatMap fun z => [z.1, z.2]

/-- The rule of SYMBOL_TONES (R212). -/
def symbolTonesRule (mode : Mode) (s : State) : Check Effect := do
  let Ls := argNat s.snapshot 2
  let L := argNat s.snapshot 3
  let NS := argNat s.snapshot 5
  require (decide (Ls ≠ 0 ∧ L ≠ 0 ∧ NS ≠ 0)) .len
  require (decide (L ≤ Config.nmaxFft ∧ tones mode ≤ L)) .len
  checkRanges (inputRanges (.symbolTones mode) s.snapshot) (outputRanges (.symbolTones mode) s.snapshot)
  let zs ← symbolTones Config.trig s.dmem (argNat s.snapshot 0) (argNat s.snapshot 1) Ls L
    (argInt s.snapshot 4) (tones mode) 0 NS
  .ok { writes := [(argNat s.snapshot 6, interleave zs)], ht := s.ht, res := results [1] }

/-! ## SYNC_COUNT -/

/-- Z[s][t] for the T tones t of symbol s, in a tone array at a base (R206). -/
def readTones (m : Memory) (base T s : Nat) : Check (List Cplx) := do
  let ws ← readFs m (base + 2 * (s * T)) (2 * T)
  .ok ((List.range T).map fun t => (ws.getD (2 * t) 0, ws.getD (2 * t + 1) 0))

/-- The index of the largest number, the first on ties, compared by `>` from index 0 (R18, R214). -/
def argmax (xs : List F64) : Nat :=
  (List.range xs.length).foldl (fun best t => if flt (xs.getD best 0) (xs.getD t 0) then t else best) 0

/-- How many symbols from symbol s on carry the expected tones (R214). -/
def countSync (m : Memory) (base T s : Nat) : List Nat → Check Nat
  | [] => .ok 0
  | tone :: rest => do
    let zs ← readTones m base T s
    let n ← countSync m base T (s + 1) rest
    .ok ((if argmax (zs.map cabs) = tone then 1 else 0) + n)

/-- The counts of the sync blocks in order (R214). -/
def countBlocks (m : Memory) (base T : Nat) : List (Nat × List Nat) → Check (List Nat)
  | [] => .ok []
  | (first, expected) :: rest => do
    let n ← countSync m base T first expected
    let ns ← countBlocks m base T rest
    .ok (n :: ns)

/-- The rule of SYNC_COUNT (R214). -/
def syncCountRule (mode : Mode) (s : State) : Check Effect := do
  checkRanges (inputRanges (.syncCount mode) s.snapshot) (outputRanges (.syncCount mode) s.snapshot)
  let per ← countBlocks s.dmem (argNat s.snapshot 0) (tones mode) (syncBlocks mode)
  .ok { writes := [], ht := s.ht, res := results (1 :: per.sum :: per) }

/-! ## SOFTBITS -/

/-- Digit j, most significant first, of code c among gg digits in base T (R220). -/
def codeDigit (T gg c j : Nat) : Nat := c / T ^ (gg - 1 - j) % T

/-- The complex sum of a list, left to right from its first element. -/
def csumFirst : List Cplx → Cplx
  | [] => (0, 0)
  | z :: zs => zs.foldl cadd z

/-- s2[c] for a group of symbols given by their tones (R220). -/
def groupMagnitude (mode : Mode) (group : List (List Cplx)) (c : Nat) : F64 :=
  cabs (csumFirst (group.mapIdx fun j zs =>
    zs.getD ((grayMap mode).getD (codeDigit (tones mode) group.length c j) 0) (0, 0)))

/-- The values s2[c] of a group, for every code c (R220). -/
def groupMagnitudes (mode : Mode) (group : List (List Cplx)) : List F64 :=
  (List.range (tones mode ^ group.length)).map (groupMagnitude mode group)

/-- The largest of a list (R18). -/
def maxOf : List F64 → F64
  | [] => 0
  | x :: xs => xs.foldl fmax x

/-- The values s2[c] of the codes whose bit i of nb is b (R220). -/
def selectBit (nb i : Nat) (b : Bool) (s2 : List F64) : List F64 :=
  ((s2.zipIdx).filter fun p => p.2.testBit (nb - 1 - i) == b).map Prod.fst

/-- The metrics of a group's codeword bits (R220). -/
def groupMetrics (mode : Mode) (group : List (List Cplx)) : List F64 :=
  let s2 := groupMagnitudes mode group
  let nb := group.length * symbolBits mode
  (List.range nb).map fun i => fsub (maxOf (selectBit nb i true s2)) (maxOf (selectBit nb i false s2))

/-- A data block cut into groups of g symbols, the last one shorter when g does not divide its length (R221). -/
def groupsOf (g : Nat) (block : List (List Cplx)) : List (List (List Cplx)) :=
  (List.range ((block.length + g - 1) / g)).map fun k => (block.drop (k * g)).take g

/-- A metric array before normalization: the groups of every data block in order (R221). -/
def metricArray (mode : Mode) (blocks : List (List (List Cplx))) (g : Nat) : List F64 :=
  blocks.flatMap fun block => (groupsOf g block).flatMap (groupMetrics mode)

/-- The metrics of one symbol over its largest tone magnitude, 0.0 when that is 0 (R223). -/
def scaledMetrics (mode : Mode) (symbol : List Cplx) : List F64 :=
  let mx := maxOf (groupMagnitudes mode [symbol])
  (groupMetrics mode [symbol]).map fun x => if mx = 0 then 0 else fdiv x mx

/-- The fourth array of FT8 before normalization (R223). -/
def fourthArray (mode : Mode) (blocks : List (List (List Cplx))) : List F64 :=
  blocks.flatMap fun block => block.flatMap (scaledMetrics mode)

/-- NORMALIZE, for either value of NORM_SUBTRACT_MEAN (R224). -/
def normalize (subtractMean : Bool) (m : List F64) : List F64 :=
  let n := fofNat 174
  let mu := fdiv (fsum m) n
  if subtractMean then
    let d := m.map fun x => fsub x mu
    let var := fdiv (fsum (d.map fun x => fmul x x)) n
    if flt 0 var then d.map fun x => fdiv x (fsqrt var) else d
  else
    let ms := fdiv (fsum (m.map fun x => fmul x x)) n
    let var := fsub ms (fmul mu mu)
    let sig := if flt 0 var then fsqrt var else fsqrt ms
    if flt 0 sig then m.map fun x => fdiv x sig else m

/-- The metric arrays of a frame's data blocks before normalization, in order (R222, R223). -/
def rawArrays (mode : Mode) (blocks : List (List (List Cplx))) : List (List F64) :=
  (groupSizes mode).map (metricArray mode blocks) ++
    match mode with
    | .ft8 => [fourthArray mode blocks]
    | .ft4 => []

/-- The tones of `n` symbols from symbol s on. -/
def readSymbols (m : Memory) (base T : Nat) : Nat → Nat → Check (List (List Cplx))
  | _, 0 => .ok []
  | s, n + 1 => do
    let zs ← readTones m base T s
    let rest ← readSymbols m base T (s + 1) n
    .ok (zs :: rest)

/-- The tones of the data blocks that start at the given symbols; sync symbols are not read (R225). -/
def readBlocks (m : Memory) (base T : Nat) : List Nat → Check (List (List (List Cplx)))
  | [] => .ok []
  | first :: rest => do
    let b ← readSymbols m base T first blockSymbols
    let bs ← readBlocks m base T rest
    .ok (b :: bs)

/-- The rule of SOFTBITS (R222). -/
def softBitsRule (mode : Mode) (s : State) : Check Effect := do
  checkRanges (inputRanges (.softBits mode) s.snapshot) (outputRanges (.softBits mode) s.snapshot)
  let blocks ← readBlocks s.dmem (argNat s.snapshot 0) (tones mode) (dataBlocks mode)
  .ok { writes := [(argNat s.snapshot 1, (rawArrays mode blocks).flatMap (normalize Config.normSubtractMean))]
        ht := s.ht
        res := results [1, metricArrays mode] }

/-! ## The commands -/

/-- MIX_DOWN (R210). -/
def execMixDown (s : State) : Host.Outcome State Fault Refusal := runCommand (mixDownRule s) s

/-- SYMBOL_TONES (R212). -/
def execSymbolTones (mode : Mode) (s : State) : Host.Outcome State Fault Refusal :=
  runCommand (symbolTonesRule mode s) s

/-- SYNC_COUNT (R214). -/
def execSyncCount (mode : Mode) (s : State) : Host.Outcome State Fault Refusal :=
  runCommand (syncCountRule mode s) s

/-- SOFTBITS (R222). -/
def execSoftBits (mode : Mode) (s : State) : Host.Outcome State Fault Refusal :=
  runCommand (softBitsRule mode s) s

end Sys2Proof.Machine
end

