-- ==== Sys2Proof/Machine/Dispatch.lean ====
section
/-! DEFINITION. The meaning of every command, one arm for each (spec 30_encoding R95). -/

namespace Sys2Proof.Machine

/-- What a command does, from its start to its completion, as one step (R44, R370). -/
def exec (i : Instr) (s : State) : Host.Outcome State Fault Refusal :=
  match i with
  | .nop => Sys2Proof.Machine.execNop s
  | .fft => Sys2Proof.Machine.execFft s
  | .ifft => Sys2Proof.Machine.execIfft s
  | .ldpcEncode => Sys2Proof.Machine.execLdpcEncode s
  | .ldpcDecode maskEn => Sys2Proof.Machine.execLdpcDecode maskEn s
  | .crc14Gen => Sys2Proof.Machine.execCrc14Gen s
  | .crc14Check => Sys2Proof.Machine.execCrc14Check s
  | .mixDown => Sys2Proof.Machine.execMixDown s
  | .symbolTones mode => Sys2Proof.Machine.execSymbolTones mode s
  | .syncCount mode => Sys2Proof.Machine.execSyncCount mode s
  | .softBits mode => Sys2Proof.Machine.execSoftBits mode s
  | .pack77 => Sys2Proof.Machine.execPack77 s
  | .unpack77 useHt => Sys2Proof.Machine.execUnpack77 useHt s
  | .hashCompute => Sys2Proof.Machine.execHashCompute s
  | .hashSave => Sys2Proof.Machine.execHashSave s
  | .hashLookup width => Sys2Proof.Machine.execHashLookup width s
  | .hashClear => Sys2Proof.Machine.execHashClear s
  | .hashSize => Sys2Proof.Machine.execHashSize s

end Sys2Proof.Machine
end

