-- ==== Sys2Proof/Machine/Flags.lean ====
section
/-! DEFINITION. STATUS and CTRL as the host sees them and the interrupt line (spec 10_state R33, R34, R53;
60_exceptions R320, R330). -/

namespace Sys2Proof.Machine

/-- The number of an error code (R320). -/
def ErrCode.code : ErrCode → BitVec 8
  | .none => 0x00
  | .opcode => 0x01
  | .reserved => 0x02
  | .arg => 0x03
  | .len => 0x04
  | .addr => 0x05
  | .overlap => 0x06
  | .value => 0x07

/-- The error code a command word that encodes no command raises (R91). -/
def ErrCode.ofDecode : DecodeError → ErrCode
  | .opcode => .opcode
  | .reserved => .reserved
  | .arg => .arg

/-- STATUS.BUSY is 1 exactly when the phase is BUSY (R52). -/
def State.busy (s : State) : Bool :=
  match s.phase with
  | .idle => false
  | .busy _ _ => true

/-- IRQ = CTRL.IE ∧ STATUS.DONE (R53). -/
def State.irq (s : State) : Bool := s.ie && s.status.done

/-- STATUS as the host reads it (R34): LASTOP in 23:16, ERRCODE in 15:8, then OVR, OK, ERR, DONE, BUSY down to
bit 0; the reserved bits read 0. -/
def State.statusWord (s : State) : Word32 :=
  0#8 ++ s.status.lastOp ++ s.status.errCode.code ++ 0#3 ++ BitVec.ofBool s.status.ovr
    ++ BitVec.ofBool s.status.ok ++ BitVec.ofBool s.status.err ++ BitVec.ofBool s.status.done
    ++ BitVec.ofBool s.busy

/-- CTRL as the host reads it (R33): SRST and the reserved bits read 0. -/
def State.ctrlWord (s : State) : Word32 := 0#31 ++ BitVec.ofBool s.ie

/-- A host write of STATUS (R34): a 1 clears DONE, ERR or OVR; every other bit is unchanged. -/
def State.writeStatus (v : Word32) (s : State) : State :=
  { s with
    status :=
      { s.status with
        done := s.status.done && !v.getLsbD 1
        err := s.status.err && !v.getLsbD 2
        ovr := s.status.ovr && !v.getLsbD 4 } }

end Sys2Proof.Machine
end

