-- ==== Sys2Proof/Machine/HostBus.lean ====
section
/-! DEFINITION. The host's accesses to the block: the register file, the data-memory window, the command write and
soft reset (spec 10_state R31 to R40; 20_memory R70 to R80; 70_reset_and_hazards R351, R352, R360 to R362). -/

namespace Sys2Proof.Machine

/-! ## Registers -/

/-- A bank's register at a byte offset within the bank (R31). -/
def bankReg (r : Regs8) (off : Nat) : Word32 := r.toList.getD (off / 4) 0

/-- What a 32-bit read of the register block gives at a byte offset (R31 to R37); an unnamed offset reads 0. -/
def State.readRegister (s : State) (off : Nat) : Word32 :=
  if off = 0x000 then 0x46543854
  else if off = 0x004 then 0x00000001
  else if off = 0x008 then s.ctrlWord
  else if off = 0x00C then s.statusWord
  else if off = 0x010 then s.cmd
  else if 0x020 ≤ off ∧ off ≤ 0x03C then bankReg s.args (off - 0x020)
  else if 0x040 ≤ off ∧ off ≤ 0x05C then bankReg s.res (off - 0x040)
  else 0

/-- The memory after word `a` takes a free value or keeps its own, by the k-th free choice (R352). -/
def abandonWord (k : Nat) (m : Memory) (a : Nat) : Memory :=
  if Config.freeBit k then m else writeWords m a [Config.freeWord k]

/-- The memory after the words of a list each take a free value or keep their own, from the k-th draw on (R352). -/
def abandonWords : Nat → Memory → List Nat → Memory
  | _, m, [] => m
  | k, m, a :: as => abandonWords (k + 1) (abandonWord k m a) as

/-- The words of a range that lie in the data memory. -/
def Range.words (r : Range) : List Nat :=
  (List.range (min r.len (Config.dmemWords - r.base))).map fun k => r.base + k

/-- The words of the running command's output ranges (R352); none while idle. -/
def State.abandonedWords (s : State) : List Nat := s.runningOutputs.flatMap Range.words

/-- Soft reset (R351, R352): every register and HT at the power-on value; the data memory unchanged, but for the
output words of a command it abandons. The host's own coming accesses and the draw counter go on. -/
def State.softReset (s : State) : State :=
  { State.reset with
    dmem := abandonWords s.draws s.dmem s.abandonedWords
    bus := s.bus
    response := s.response
    draws := s.draws + s.abandonedWords.length }

/-- A host write of CTRL (R33, R351): SRST = 1 resets, whatever IE is written as. -/
def State.writeCtrl (v : Word32) (s : State) : State :=
  if v.getLsbD 1 then s.softReset else { s with ie := v.getLsbD 0 }

/-- A host write of CMD (R39, R40): a start while idle, dropped with OVR while busy. -/
def State.writeCmd (v : Word32) (s : State) : State :=
  if s.busy then { s with status := { s.status with ovr := true } } else s.startCommand v

/-- A host write of one ARG register (R36, R360). -/
def State.writeArg (i : Nat) (v : Word32) (s : State) : State := { s with args := s.args.setIfInBounds i v }

/-- A 32-bit host write of the register block at a byte offset (R31); ID, VERSION, RES and unnamed offsets
ignore it. -/
def State.writeRegister (off : Nat) (v : Word32) (s : State) : State :=
  if off = 0x008 then s.writeCtrl v
  else if off = 0x00C then s.writeStatus v
  else if off = 0x010 then s.writeCmd v
  else if 0x020 ≤ off ∧ off ≤ 0x03C then s.writeArg ((off - 0x020) / 4) v
  else s

/-! ## The data-memory window -/

/-- A host read of the word is a race: the word lies in the running command's output ranges (R80, R361). -/
def State.raced (s : State) (a : Nat) : Bool := s.runningOutputs.any fun r => r.mem a

/-- The bytes of a free word that stand for the bytes of word `a` without a value (log entry 3). -/
def fillBytes (m : Memory) (free : Word64) (a : Nat) : List Byte :=
  (leBytes 8 free.toNat).mapIdx fun k b => (readByte m (8 * a + k)).getD b

/-- The word a host read sees (R80): its value; while it races, a free value; and a free value for the bytes that
have none (R47, log entry 3). -/
def State.hostWord (s : State) (a : Nat) : Word64 :=
  if s.raced a then Config.freeWord s.draws
  else BitVec.ofNat 64 (leNat (fillBytes s.dmem (Config.freeWord s.draws) a))

/-- Whether a host read of word `a` draws a free value. -/
def State.drawsOn (s : State) (a : Nat) : Bool := s.raced a || (readWord s.dmem a).isNone

/-- The answer of a read of `bytes` bytes at a window offset, from the word there (R73, R74). -/
def windowData (w : Word64) (off bytes : Nat) : BusResponse :=
  if bytes = 8 then .data64 w
  else if off % 8 = 0 then .data32 (w.extractLsb' 0 32)
  else .data32 (w.extractLsb' 32 32)

/-- A host read of the window (R73, R74, R80). -/
def State.readWindow (off bytes : Nat) (s : State) : State :=
  { s with
    response := windowData (s.hostWord (off / 8)) off bytes
    draws := if s.drawsOn (off / 8) then s.draws + 1 else s.draws }

/-- A host write of the window (R73, R74, R76), into the footprint of the running command a race (R80, R327). -/
def State.writeWindow (off bytes : Nat) (v : Word64) (s : State) : Host.Outcome State Fault Refusal :=
  if s.footprint.any fun r => r.mem (off / 8) then .fault .hostRace
  else .next { s with dmem := writeSpan s.dmem off (leBytes bytes v.toNat), response := .written }

/-! ## The bus -/

/-- The parts of the block's address space (R70, R71). -/
inductive Target where
  /-- A register, at its byte offset from BASE. -/
  | register (off : Nat)
  /-- The data-memory window, at a byte offset in it. -/
  | window (off : Nat)
  /-- The part of the window above the data memory: reads 0, ignores writes. -/
  | unmapped (off : Nat)
  /-- Not an address of the block. -/
  | outside
deriving DecidableEq, Repr

/-- What an offset from BASE selects (R70, R71). -/
def targetOfOffset (off : Nat) : Target :=
  if off < 0x100000 then .register off
  else if off < 0x100000 + 8 * Config.dmemWords then .window (off - 0x100000)
  else if off < 0x500000 then .unmapped (off - 0x100000)
  else .outside

/-- What a host byte address selects (R70, R71). -/
def targetOf (addr : Nat) : Target :=
  if addr < Config.base then .outside else targetOfOffset (addr - Config.base)

/-- A register access has a legal width and alignment (R75). -/
def registerAccess (off bytes : Nat) : Bool := decide (bytes = 4 ∧ off % 4 = 0)

/-- A window access has a legal width and alignment (R74). -/
def windowAccess (off bytes : Nat) : Bool := decide ((bytes = 4 ∨ bytes = 8) ∧ off % bytes = 0)

/-- A host read of a part of the block (R70 to R75, R80). An address outside the block is another device's: the
block does nothing. -/
def readTarget (t : Target) (bytes : Nat) (s : State) : Host.Outcome State Fault Refusal :=
  match t with
  | .register off =>
    if registerAccess off bytes then .next { s with response := .data32 (s.readRegister off) }
    else .refused .busError
  | .window off => if windowAccess off bytes then .next (s.readWindow off bytes) else .refused .busError
  | .unmapped off =>
    if windowAccess off bytes then .next { s with response := windowData 0 off bytes } else .refused .busError
  | .outside => .next s

/-- A host write of a part of the block (R70 to R76, R80). -/
def writeTarget (t : Target) (bytes : Nat) (v : Word64) (s : State) : Host.Outcome State Fault Refusal :=
  match t with
  | .register off =>
    if registerAccess off bytes then
      .next { s.writeRegister off (v.setWidth 32) with response := .written }
    else .refused .busError
  | .window off => if windowAccess off bytes then s.writeWindow off bytes v else .refused .busError
  | .unmapped off => if windowAccess off bytes then .next { s with response := .written } else .refused .busError
  | .outside => .next s

/-- A host read at a byte address. -/
def busRead (addr bytes : Nat) (s : State) : Host.Outcome State Fault Refusal :=
  readTarget (targetOf addr) bytes s

/-- A host write at a byte address. -/
def busWrite (addr bytes : Nat) (v : Word64) (s : State) : Host.Outcome State Fault Refusal :=
  writeTarget (targetOf addr) bytes v s

end Sys2Proof.Machine
end

