-- ==== Sys2Proof/Machine/Engine.lean ====
section
/-! DEFINITION. The engine's step and the order of the two agents (spec 10_state R43, R44, R52; 30_encoding R91;
70_reset_and_hazards R353, R362). -/

namespace Sys2Proof.Machine

/-- The end of a started command word (R91): the command's rule where it decodes, otherwise the error of the first
decoding check it fails. -/
def completeCommand (w : Word32) (s : State) : Host.Outcome State Fault Refusal :=
  match decode w with
  | .ok i => exec i s
  | .error e => .next (s.raiseError (ErrCode.ofDecode e))

/-- The engine's step: a busy engine completes its command in one step (R44, R370), an idle one waits (R353). -/
def engineStep (s : State) : Host.Outcome State Fault Refusal :=
  match s.fetchCommand with
  | none => .next s
  | some w => completeCommand w s

/-- One host event (R7, R362). -/
def eventStep (ev : BusEvent) (s : State) : Host.Outcome State Fault Refusal :=
  match ev with
  | .engine => engineStep s
  | .read addr bytes => busRead addr bytes s
  | .write addr bytes data => busWrite addr bytes data s

end Sys2Proof.Machine
end

