-- ==== Sys2Proof/Machine/Step.lean ====
section
/-! DEFINITION. One step of the machine, and how a command is placed for the next one. -/

namespace Sys2Proof.Machine

/-- One step: the host's next event, in the order the host side lists them, and with none listed the engine's own
step (R7, R362, log entry 1). -/
def step (s : State) : Host.Outcome State Fault Refusal :=
  match s.bus with
  | [] => engineStep s
  | ev :: rest => eventStep ev { s with bus := rest }

/-- The machine with a command word started (R39) and no host event before its completion: the block fetches
nothing from memory (R84), so a command is placed by the write that starts it (log entry 2). -/
def State.withFetchWord (s : State) (nbits w : Nat) : State :=
  { s.startCommand (BitVec.ofNat 32 (w % 2 ^ nbits)) with bus := [] }

end Sys2Proof.Machine
end

