-- ==== Sys2Proof/Machine/HostProgram.lean ====
section
/-! DEFINITION. The host's side of a program: accesses, command lines and pseudo-commands as lists of bus events
(spec 30_encoding R100, R101; 70_reset_and_hazards R363). -/

namespace Sys2Proof.Machine

/-- `ST64 addr, value` (R100). -/
def st64 (addr : Nat) (v : Word64) : BusEvent := .write addr 8 v

/-- `LD64 addr` (R100). -/
def ld64 (addr : Nat) : BusEvent := .read addr 8

/-- `ST32 addr, value` (R100). -/
def st32 (addr : Nat) (v : Word32) : BusEvent := .write addr 4 (v.setWidth 64)

/-- `LD32 addr` (R100). -/
def ld32 (addr : Nat) : BusEvent := .read addr 4

/-- The host byte address of data-memory word `a` (R71). -/
def windowAddr (a : Nat) : Nat := Config.base + 0x100000 + 8 * a

/-- `STW a, value` (R100). -/
def stw (a : Nat) (v : Word64) : BusEvent := st64 (windowAddr a) v

/-- `LDW a` (R100). -/
def ldw (a : Nat) : BusEvent := ld64 (windowAddr a)

/-- The writes of a command line's arguments to ARG k, ARG k+1, ... (R100). -/
def argWrites : Nat → List Word32 → List BusEvent
  | _, [] => []
  | k, v :: vs => st32 (Config.base + 0x020 + 4 * k) v :: argWrites (k + 1) vs

/-- A command line (R100): the arguments are written, then the command word, then the host waits until BUSY = 0. -/
def commandLine (args : List Word32) (i : Instr) : List BusEvent :=
  argWrites 0 args ++ [st32 (Config.base + 0x010) (encode i), .engine]

/-- `DECODE_BP m, k, c` (R101). -/
def decodeBp (m k c : Word32) : List BusEvent := commandLine [m, k, c, BitVec.ofInt 32 (-1)] (.ldpcDecode false)

/-- `DECODE_OSD0 m, k, c` (R101). -/
def decodeOsd0 (m k c : Word32) : List BusEvent := commandLine [m, k, c, 0] (.ldpcDecode false)

/-- `DECODE_OSD1 m, k, c` (R101). -/
def decodeOsd1 (m k c : Word32) : List BusEvent := commandLine [m, k, c, 1] (.ldpcDecode false)

/-- `PACK91 t, L, b` (R101). -/
def pack91 (t L b : Word32) : List BusEvent := commandLine [t, L, b] .pack77 ++ commandLine [b, b + 77] .crc14Gen

/-- `CODEWORD t, L, b, c` (R101). -/
def codewordLine (t L b c : Word32) : List BusEvent := pack91 t L b ++ commandLine [b, c] .ldpcEncode

end Sys2Proof.Machine
end

