-- ==== Sys2Proof/Safety.lean ====
section
/-! DEFINITION. What a good state is, and the words in which claims say what a command did. -/

namespace Sys2Proof.Machine

/-- STATUS, CMD and RES belong together: LASTOP is the opcode of CMD (R34, R35, R39), OK is bit 0 of RES0 and an
error code goes with zero results (R34, R37, R41, R42). -/
structure RegistersAgree (s : State) : Prop where
  lastOp : s.status.lastOp = opField s.cmd
  ok : s.status.ok = s.res[0].getLsbD 0
  failed : s.status.errCode ≠ .none → s.res = Regs8.zero
  running : ∀ w args, s.phase = .busy w args → s.cmd = w

/-- The invariant of the machine: the data memory in its one form and inside its bounds (R45, R71), the hash-call
table in its form (R48, R291, R292), and the registers in agreement. -/
structure State.Inv (s : State) : Prop where
  memory : s.dmem.wf = true
  bounds : s.dmem.inRange = true
  table : s.ht.wf = true
  registers : RegistersAgree s

/-- The words stand in the data memory from word address `a` on. -/
def HoldsWords (m : Memory) (a : Nat) (ws : List Word64) : Prop :=
  ∀ k : Nat, (h : k < ws.length) → readWord m (a + k) = some ws[k]

/-- Every byte of the data memory outside the ranges reads as before. -/
def SameOutside (rs : List Range) (m m' : Memory) : Prop :=
  ∀ b : Nat, (∀ r ∈ rs, r.mem (b / 8) = false) → readByte m' b = readByte m b

/-- Every byte of the data memory reads as before. -/
def SameMemory (m m' : Memory) : Prop := ∀ b : Nat, readByte m' b = readByte m b

/-- The registers that no command writes are unchanged (R36, R39, R44): CTRL.IE, CMD, the arguments, STATUS.OVR and
STATUS.LASTOP; and so are the model's own fields. -/
structure SameControl (s t : State) : Prop where
  ie : t.ie = s.ie
  cmd : t.cmd = s.cmd
  args : t.args = s.args
  ovr : t.status.ovr = s.status.ovr
  lastOp : t.status.lastOp = s.status.lastOp
  bus : t.bus = s.bus
  response : t.response = s.response
  draws : t.draws = s.draws

/-- Completion without error, with the given results (R41): ERR is unchanged. -/
structure Completed (s t : State) (r : Regs8) : Prop where
  res : t.res = r
  errCode : t.status.errCode = .none
  ok : t.status.ok = r[0].getLsbD 0
  done : t.status.done = true
  err : t.status.err = s.status.err
  phase : t.phase = .idle
  control : SameControl s t

/-- Completion with an error code (R42), which leaves the data memory and the hash table alone (R323). -/
structure Raised (s t : State) (e : ErrCode) : Prop where
  res : t.res = Regs8.zero
  errCode : t.status.errCode = e
  ok : t.status.ok = false
  done : t.status.done = true
  err : t.status.err = true
  phase : t.phase = .idle
  dmem : t.dmem = s.dmem
  ht : t.ht = s.ht
  control : SameControl s t

/-- What a command wrote to the data memory: the runs of words stand there, each from its base word address on, and
every other byte reads as before. -/
structure Wrote (s t : State) (runs : List (Nat × List Word64)) : Prop where
  holds : ∀ run ∈ runs, HoldsWords t.dmem run.1 run.2
  frame : SameOutside (runs.map fun run => { base := run.1, len := run.2.length }) s.dmem t.dmem

/-! ## When the checks of a command pass -/

/-- The opcode map of R95, with the flag bits each row defines (R92). -/
def opcodeMap : List (BitVec 8 × BitVec 4) :=
  [(0x00, 0b0000), (0x01, 0b0000), (0x02, 0b0000), (0x10, 0b0000), (0x11, 0b0001), (0x12, 0b0000), (0x13, 0b0000),
   (0x20, 0b0000), (0x21, 0b0001), (0x22, 0b0001), (0x23, 0b0001), (0x30, 0b0000), (0x31, 0b0001), (0x38, 0b0000),
   (0x39, 0b0000), (0x3A, 0b0011), (0x3B, 0b0000), (0x3C, 0b0000)]

/-- The hash argument lies within the selected width (R98, R303). -/
def HashLegal (i : Instr) (args : Regs8) : Prop :=
  ∀ width w, i = .hashLookup width → widthBits width = some w → argNat args 0 < 2 ^ w

/-- The length and capacity arguments are in range: no ERR_LEN (R320). -/
def LengthsLegal (i : Instr) (args : Regs8) : Prop :=
  match i with
  | .nop => True
  | .fft => 1 ≤ argNat args 2 ∧ argNat args 2 ≤ 262144
  | .ifft => 1 ≤ argNat args 2 ∧ argNat args 2 ≤ 262144
  | .ldpcEncode => True
  | .ldpcDecode _ => True
  | .crc14Gen => True
  | .crc14Check => True
  | .mixDown => 1 ≤ argNat args 2 ∧ 1 ≤ argNat args 4 ∧ argNat args 4 ≤ argNat args 2 ∧ argNat args 4 ≤ 262144
  | .symbolTones mode =>
    1 ≤ argNat args 2 ∧ 1 ≤ argNat args 3 ∧ 1 ≤ argNat args 5 ∧ argNat args 3 ≤ 262144 ∧ tones mode ≤ argNat args 3
  | .syncCount _ => True
  | .softBits _ => True
  | .pack77 => argNat args 1 ≤ 256
  | .unpack77 _ => 40 ≤ argNat args 2
  | .hashCompute => 1 ≤ argNat args 1 ∧ argNat args 1 ≤ 11
  | .hashSave => argNat args 1 ≤ 256
  | .hashLookup _ => 11 ≤ argNat args 2
  | .hashClear => True
  | .hashSize => True

/-- Every array operand fits in the data memory: no ERR_ADDR (R72). -/
def RangesFit (i : Instr) (args : Regs8) : Prop :=
  ∀ r ∈ inputRanges i args ++ outputRanges i args, r.base + r.len ≤ Config.dmemWords

/-- Two ranges meet (R78). -/
def Range.Meets (r t : Range) : Prop :=
  0 < r.len ∧ 0 < t.len ∧ r.base < t.base + t.len ∧ t.base < r.base + r.len

/-- The input ranges an output may not meet: the transforms work in place (R122). -/
def guardedInputs (i : Instr) (args : Regs8) : List Range :=
  match i with
  | .fft => []
  | .ifft => []
  | .nop => inputRanges i args
  | .ldpcEncode => inputRanges i args
  | .ldpcDecode _ => inputRanges i args
  | .crc14Gen => inputRanges i args
  | .crc14Check => inputRanges i args
  | .mixDown => inputRanges i args
  | .symbolTones _ => inputRanges i args
  | .syncCount _ => inputRanges i args
  | .softBits _ => inputRanges i args
  | .pack77 => inputRanges i args
  | .unpack77 _ => inputRanges i args
  | .hashCompute => inputRanges i args
  | .hashSave => inputRanges i args
  | .hashLookup _ => inputRanges i args
  | .hashClear => inputRanges i args
  | .hashSize => inputRanges i args

/-- No output range meets an input range or another output range: no ERR_OVERLAP (R78, R122). -/
def NoOverlap (i : Instr) (args : Regs8) : Prop :=
  (∀ o ∈ outputRanges i args, ∀ r ∈ guardedInputs i args, ¬ o.Meets r)
    ∧ (outputRanges i args).Pairwise fun o o' => ¬ o.Meets o'

/-- The argument checks of a command pass, those on its input words apart (R91 step 5, R325). -/
structure ArgsLegal (i : Instr) (args : Regs8) : Prop where
  wellFormed : i.wellFormed = true
  hash : HashLegal i args
  lengths : LengthsLegal i args
  fit : RangesFit i args
  apart : NoOverlap i args

/-! ## What the numeric commands compute, from the words of their operands -/

/-- The path of a transform of length N and its internal length (R121, R127, R129): 0 and N for a power of two,
otherwise 1 and the smallest power of two not below 2N - 1. -/
def TransformPath (N path L : Nat) : Prop :=
  ((∃ p, N = 2 ^ p) → path = 0 ∧ L = N)
    ∧ ((¬ ∃ p, N = 2 ^ p) →
        path = 1 ∧ (∃ p, L = 2 ^ p) ∧ 2 * N - 1 ≤ L ∧ ∀ p, 2 * N - 1 ≤ 2 ^ p → L ≤ 2 ^ p)

/-- An element of a complex array; (0, 0) outside it. -/
def elemAt (x : List Cplx) (k : Nat) : Cplx := x.getD k (0, 0)

/-- (cos θ, -s·sin θ) for the direction s (R124, R127). -/
def unitAt (T : Config.Trig) (inverse : Bool) (theta : F64) : Cplx :=
  (trigCos T theta, fmul (if inverse then 0x3FF0000000000000 else 0xBFF0000000000000) (trigSin T theta))

/-- One round of R126's while loop, of blocks of 2·half elements: the butterfly of every pair, on the twiddle of
R124. -/
structure Round (T : Config.Trig) (inverse : Bool) (L half : Nat) (x y : List Cplx) : Prop where
  length : y.length = L
  butterfly : ∀ i j : Nat, 2 * half ∣ i → i + 2 * half ≤ L → j < half → ∀ (wr wi tr ti : F64),
    (wr, wi) = unitAt T inverse
      (fdiv (fmul (fmul twoF64 piF64) (fofNat (j * (L / (2 * half))))) (fofNat L)) →
    tr = fsub (fmul wr (elemAt x (i + j + half)).1) (fmul wi (elemAt x (i + j + half)).2) →
    ti = fadd (fmul wr (elemAt x (i + j + half)).2) (fmul wi (elemAt x (i + j + half)).1) →
    elemAt y (i + j) = (fadd (elemAt x (i + j)).1 tr, fadd (elemAt x (i + j)).2 ti) ∧
      elemAt y (i + j + half) = (fsub (elemAt x (i + j)).1 tr, fsub (elemAt x (i + j)).2 ti)

/-- R126 from x to y, of length 2^p: the bit-reversal permutation, then the p rounds with size 2, 4, ..., 2^p. -/
def Radix2 (T : Config.Trig) (inverse : Bool) (p : Nat) (x y : List Cplx) : Prop :=
  ∃ z : Nat → List Cplx,
    (z 0).length = 2 ^ p ∧ (∀ j < 2 ^ p, elemAt (z 0) j = elemAt x (bitRev p j)) ∧
    (∀ q < p, Round T inverse (2 ^ p) (2 ^ q) (z q) (z (q + 1))) ∧ y = z p

/-- R127 from x to y, of length N, line by line: the chirp w, the padded product a and kernel b, their transforms,
the product c of these, its inverse transform e divided by M, and the product of that with the chirp. -/
def Chirp (T : Config.Trig) (inverse : Bool) (N : Nat) (x y : List Cplx) : Prop :=
  ∃ (p M : Nat) (w a b ta tb c e : List Cplx),
    M = 2 ^ p ∧ 2 * N - 1 ≤ M ∧ (∀ r, 2 * N - 1 ≤ 2 ^ r → M ≤ 2 ^ r) ∧
    (∀ n < N, elemAt w n = unitAt T inverse (fdiv (fmul piF64 (fofNat (n * n % (2 * N)))) (fofNat N))) ∧
    a.length = M ∧ (∀ n < N, elemAt a n = cmul (elemAt x n) (elemAt w n)) ∧
    (∀ n, N ≤ n → n < M → elemAt a n = (0, 0)) ∧
    b.length = M ∧ elemAt b 0 = conj (elemAt w 0) ∧
    (∀ n, 1 ≤ n → n < N → elemAt b n = conj (elemAt w n) ∧ elemAt b (M - n) = conj (elemAt w n)) ∧
    (∀ n, N ≤ n → n ≤ M - N → elemAt b n = (0, 0)) ∧
    Radix2 T false p a ta ∧ Radix2 T false p b tb ∧
    c.length = M ∧ (∀ k < M, elemAt c k = cmul (elemAt ta k) (elemAt tb k)) ∧
    Radix2 T true p c e ∧
    y.length = N ∧ ∀ k < N, elemAt y k =
      cmul (elemAt w k) (fdiv (elemAt e k).1 (fofNat M), fdiv (elemAt e k).2 (fofNat M))

/-- The transform of R121 from x to y: R126 for a power of two, R127 for any other length. -/
def Transformed (T : Config.Trig) (inverse : Bool) (N : Nat) (x y : List Cplx) : Prop :=
  (∀ p, N = 2 ^ p → Radix2 T inverse p x y) ∧ ((¬ ∃ p, N = 2 ^ p) → Chirp T inverse N x y)

/-- What FFT computes (R129). -/
def ForwardResult (T : Config.Trig) (N : Nat) (x y : List Cplx) : Prop := Transformed T false N x y

/-- What IFFT computes (R130): the inverse transform, both parts of every element divided by N once. -/
def InverseResult (T : Config.Trig) (N : Nat) (x y : List Cplx) : Prop :=
  ∃ z, Transformed T true N x z ∧ y = z.map fun v => (fdiv v.1 (fofNat N), fdiv v.2 (fofNat N))

/-- The bins y of R210, from the spectrum's words. -/
def tapered (xr xi : List F64) (N M : Nat) (k0 : Int) : List Cplx :=
  (List.range M).map fun j =>
    let src := ((k0 + if j < M - M / 2 then (j : Int) else (j : Int) - M) % (N : Int)).toNat
    (fmul (xr.getD src 0) (Config.mixTaper M j), fmul (xi.getD src 0) (Config.mixTaper M j))

/-- The samples u of symbol s of R212, from the signal's words. -/
def segment (xr xi : List F64) (L : Nat) (t0 : Int) (s : Nat) : List Cplx :=
  (List.range L).map fun n =>
    let q := t0 + (s * L : Nat) + (n : Nat)
    if 0 ≤ q ∧ q < xr.length then (xr.getD q.toNat 0, xi.getD q.toNat 0) else (0, 0)

/-- Z[s][t] of R206 for all tones t of symbol s, from a tone array's words. -/
def tonesOf (T : Nat) (ws : List F64) (s : Nat) : List Cplx :=
  (List.range T).map fun t => (ws.getD (2 * (s * T + t)) 0, ws.getD (2 * (s * T + t) + 1) 0)

/-- The count of one sync block of R214: how many of its symbols have their largest magnitude at the expected
tone. -/
def syncMatches (T : Nat) (ws : List F64) (block : Nat × List Nat) : Nat :=
  ((List.range block.2.length).filter fun k =>
    argmax ((tonesOf T ws (block.1 + k)).map cabs) == block.2.getD k 0).length

/-- The data blocks of a frame (R200), from its tone array's words. -/
def frameBlocks (mode : Mode) (ws : List F64) : List (List (List Cplx)) :=
  (dataBlocks mode).map fun first => (List.range 29).map fun k => tonesOf (tones mode) ws (first + k)

/-- The array of bit words a command reads (R99, R320); none for a command that reads none. -/
def bitOperand (i : Instr) (args : Regs8) : Option Range :=
  match i with
  | .ldpcEncode => some (rangeAt args 0 91)
  | .ldpcDecode maskEn => if maskEn then some (rangeAt args 1 174) else none
  | .crc14Gen => some (rangeAt args 0 77)
  | .crc14Check => some (rangeAt args 0 91)
  | .unpack77 _ => some (rangeAt args 0 77)
  | .nop => none
  | .fft => none
  | .ifft => none
  | .mixDown => none
  | .symbolTones _ => none
  | .syncCount _ => none
  | .softBits _ => none
  | .pack77 => none
  | .hashCompute => none
  | .hashSave => none
  | .hashLookup _ => none
  | .hashClear => none
  | .hashSize => none

/-- The word addresses a command's pseudocode reads (R129, R180, R210, R212, R214, R222, R254, R300): the whole input
ranges, but for the bins MIX_DOWN takes, the samples SYMBOL_TONES finds inside the signal, and the symbols SYNC_COUNT
and SOFTBITS look at (log entry 22). -/
def ReadsWord (i : Instr) (args : Regs8) (a : Nat) : Prop :=
  match i with
  | .mixDown =>
    ∃ j < argNat args 4, ∃ src : Nat,
      (src : Int) = (argInt args 3 + if j < argNat args 4 - argNat args 4 / 2 then (j : Int)
        else (j : Int) - argNat args 4) % (argNat args 2 : Int) ∧
      (a = argNat args 0 + src ∨ a = argNat args 1 + src)
  | .symbolTones _ =>
    ∃ k < argNat args 5, ∃ n < argNat args 3, ∃ q < argNat args 2,
      (q : Int) = argInt args 4 + (k * argNat args 3 : Nat) + (n : Nat) ∧ (a = argNat args 0 + q ∨ a = argNat args 1 + q)
  | .syncCount mode =>
    ∃ block ∈ syncBlocks mode, ∃ k < block.2.length, ∃ j < 2 * tones mode,
      a = argNat args 0 + 2 * ((block.1 + k) * tones mode) + j
  | .softBits mode =>
    ∃ first ∈ dataBlocks mode, ∃ k < 29, ∃ j < 2 * tones mode,
      a = argNat args 0 + 2 * ((first + k) * tones mode) + j
  | .nop => False
  | .fft => ∃ r ∈ inputRanges i args, r.base ≤ a ∧ a < r.base + r.len
  | .ifft => ∃ r ∈ inputRanges i args, r.base ≤ a ∧ a < r.base + r.len
  | .ldpcEncode => ∃ r ∈ inputRanges i args, r.base ≤ a ∧ a < r.base + r.len
  | .ldpcDecode _ => ∃ r ∈ inputRanges i args, r.base ≤ a ∧ a < r.base + r.len
  | .crc14Gen => ∃ r ∈ inputRanges i args, r.base ≤ a ∧ a < r.base + r.len
  | .crc14Check => ∃ r ∈ inputRanges i args, r.base ≤ a ∧ a < r.base + r.len
  | .pack77 => ∃ r ∈ inputRanges i args, r.base ≤ a ∧ a < r.base + r.len
  | .unpack77 _ => ∃ r ∈ inputRanges i args, r.base ≤ a ∧ a < r.base + r.len
  | .hashCompute => ∃ r ∈ inputRanges i args, r.base ≤ a ∧ a < r.base + r.len
  | .hashSave => ∃ r ∈ inputRanges i args, r.base ≤ a ∧ a < r.base + r.len
  | .hashLookup _ => False
  | .hashClear => False
  | .hashSize => False

/-- A word passes the value check its command makes at that address (R15): 0 or 1 where it reads a bit, below 128
where it reads a character. -/
def PassesCheck (i : Instr) (args : Regs8) (a : Nat) (w : Word64) : Prop :=
  (∀ r, bitOperand i args = some r → r.base ≤ a → a < r.base + r.len → w = 0 ∨ w = 1) ∧
    (i = .pack77 ∨ i = .hashSave ∨ i = .hashCompute → w.toNat < 128)

/-- What LDPC_DECODE reads (R180): 174 metrics at A[0], and the a-priori mask at A[1] when MASK_EN = 1, all zero
otherwise. -/
structure DecodeOperands (maskEn : Bool) (s : State) (llr : List F64) (ap : List Bool) : Prop where
  metrics : llr.length = 174
  metricWords : HoldsWords s.dmem (argNat s.snapshot 0) llr
  mask : ap.length = 174
  maskWords : maskEn = true → HoldsWords s.dmem (argNat s.snapshot 1) (ap.map bitWord)
  noMask : maskEn = false → ap = List.replicate 174 false

/-- The text of a callsign suffix (R244). -/
def suffixText : Suffix → List Char
  | .none => []
  | .slashR => "/R".toList
  | .slashP => "/P".toList

/-- A word for one call of a standard message (R253): the word, its suffix, the word that unpacking writes for it
(R250, R258) and the callsign it teaches in the second place (R251). -/
inductive CallWord (lookup22 : Nat → Option Callsign) : List Char → Suffix → List Char → Option Callsign → Prop where
  | standard (c : List Char) (n : Nat) (sfx : Suffix) : standardValue c = some n →
      CallWord lookup22 (c ++ suffixText sfx) sfx (c ++ suffixText sfx) (some c)
  | hashed (h : List Char) : validCallsign h = true →
      CallWord lookup22 ('<' :: h ++ ['>']) .none (resolvedText (lookup22 (hash22 h))) none

/-- The words for the first token of a standard message (R245, R253): DE, QRZ, CQ, CQ with a number or a suffix, or
a call; with the words that unpacking writes for them. -/
inductive FirstWords (lookup22 : Nat → Option Callsign) : List (List Char) → Suffix → List (List Char) → Prop where
  | de : FirstWords lookup22 ["DE".toList] .none ["DE".toList]
  | qrz : FirstWords lookup22 ["QRZ".toList] .none ["QRZ".toList]
  | cq : FirstWords lookup22 ["CQ".toList] .none ["CQ".toList]
  | cqNumber (d : List Char) : d.length = 3 → (∀ c ∈ d, c ∈ A10) →
      FirstWords lookup22 ["CQ".toList, d] .none ["CQ".toList, d]
  | cqSuffix (t : List Char) : 1 ≤ t.length → t.length ≤ 4 → (∀ c ∈ t, c ∈ letters) →
      FirstWords lookup22 ["CQ".toList, t] .none ["CQ".toList, t]
  | call (x : List Char) (sfx : Suffix) (y : List Char) (learn : Option Callsign) : CallWord lookup22 x sfx y learn →
      FirstWords lookup22 [x] sfx [y]

/-- The words after the two calls of a standard message (R247, R253); RR73 is never a grid (log entry 26). -/
def ExtraWords (rest : List (List Char)) : Prop :=
  rest = [] ∨ rest = ["RRR".toList] ∨ rest = ["RR73".toList] ∨ rest = ["73".toList]
    ∨ (∃ g < 32400, rest = [gridText g] ∨ gridText g ≠ "RR73".toList ∧ rest = ["R".toList, gridText g])
    ∨ ∃ r : Int, -30 ≤ r ∧ r ≤ 99 ∧ (rest = [reportText r] ∨ rest = ['R' :: reportText r])

/-- The words after the two calls of a message with one hashed call (R249, R254). -/
def AckWords (rest : List (List Char)) : Prop :=
  rest = [] ∨ rest = ["RRR".toList] ∨ rest = ["RR73".toList] ∨ rest = ["73".toList]

/-- The host byte address of a register (R31, R70). -/
def regAddr (off : Nat) : Nat := Config.base + off

end Sys2Proof.Machine
end

