-- ==== Sys2Proof/Certificates/Slice0/Obligations.lean ====
section
/-! DEFINITION. The statements about the model, from the numbered rules of spec/. -/

open Sys2Proof Sys2Proof.Machine

/-! ## Encoding -/

/-- Decoding and encoding agree, both ways, for every command and every word: a word decodes to a command exactly
when the command has no reserved field value and the word is its encoding (R90, R91, R92, R95). -/
def Obligations.DecodeInvertsEncode : Prop :=
  ∀ (w : Word32) (i : Instr), decode w = .ok i ↔ i.wellFormed = true ∧ encode i = w

/-- The engine's decoding checks, in the order of R91, on the opcode map of R95 with the flags of R92. -/
def Obligations.DecodingOrder : Prop :=
  ∀ (s : State) (w : Word32) (args : Regs8), s.phase = .busy w args → s.bus = [] →
    ((∀ fl, (opField w, fl) ∉ opcodeMap) → ∃ t, step s = .next t ∧ Raised s t .opcode) ∧
    ∀ fl, (opField w, fl) ∈ opcodeMap →
      (rsvField w ≠ 0 → ∃ t, step s = .next t ∧ Raised s t .reserved) ∧
      (rsvField w = 0 → flField w &&& ~~~fl ≠ 0 → ∃ t, step s = .next t ∧ Raised s t .reserved) ∧
      (rsvField w = 0 → opField w = 0x3A → flField w = 3 → ∃ t, step s = .next t ∧ Raised s t .arg) ∧
      (rsvField w = 0 → flField w &&& ~~~fl = 0 → ¬(opField w = 0x3A ∧ flField w = 3) →
        ∃ i : Instr, i.wellFormed = true ∧ encode i = w ∧ step s = exec i s)

/-- A step runs the decoded command: where the engine is busy with a word that decodes to a command, the step is
that command's execution, whether the host lists no event or lists the engine's completion next; and so is the first
step after a command is placed. -/
def Obligations.StepRunsTheDecodedCommand : Prop :=
  ∀ (s : State) (w : Word32) (args : Regs8) (i : Instr), decode w = .ok i →
    (s.phase = .busy w args → s.bus = [] → step s = exec i s) ∧
    (∀ rest, s.phase = .busy w args → s.bus = .engine :: rest → step s = exec i { s with bus := rest }) ∧
    step (s.withFetchWord 32 w.toNat) = exec i (s.withFetchWord 32 w.toNat)

/-- The word of a command is its opcode with its flags at bit 8 (R102); and the words of all rows of the opcode map
with every value of their flags, those R102 spells out among them: each word and no other encodes its command (R92,
R95). -/
def Obligations.CommandWords : Prop :=
  (∀ i : Instr, (encode i).toNat = i.opcode.toNat ||| (i.flags.toNat <<< 8)) ∧
    ∀ w : Word32,
      (decode w = .ok .nop ↔ w = 0x00000000) ∧
      (decode w = .ok .fft ↔ w = 0x00000001) ∧
      (decode w = .ok .ifft ↔ w = 0x00000002) ∧
      (decode w = .ok .ldpcEncode ↔ w = 0x00000010) ∧
      (decode w = .ok (.ldpcDecode false) ↔ w = 0x00000011) ∧
      (decode w = .ok (.ldpcDecode true) ↔ w = 0x00000111) ∧
      (decode w = .ok .crc14Gen ↔ w = 0x00000012) ∧
      (decode w = .ok .crc14Check ↔ w = 0x00000013) ∧
      (decode w = .ok .mixDown ↔ w = 0x00000020) ∧
      (decode w = .ok (.symbolTones .ft8) ↔ w = 0x00000021) ∧
      (decode w = .ok (.symbolTones .ft4) ↔ w = 0x00000121) ∧
      (decode w = .ok (.syncCount .ft8) ↔ w = 0x00000022) ∧
      (decode w = .ok (.syncCount .ft4) ↔ w = 0x00000122) ∧
      (decode w = .ok (.softBits .ft8) ↔ w = 0x00000023) ∧
      (decode w = .ok (.softBits .ft4) ↔ w = 0x00000123) ∧
      (decode w = .ok .pack77 ↔ w = 0x00000030) ∧
      (decode w = .ok (.unpack77 false) ↔ w = 0x00000031) ∧
      (decode w = .ok (.unpack77 true) ↔ w = 0x00000131) ∧
      (decode w = .ok .hashCompute ↔ w = 0x00000038) ∧
      (decode w = .ok .hashSave ↔ w = 0x00000039) ∧
      (decode w = .ok (.hashLookup 0) ↔ w = 0x0000003A) ∧
      (decode w = .ok (.hashLookup 1) ↔ w = 0x0000013A) ∧
      (decode w = .ok (.hashLookup 2) ↔ w = 0x0000023A) ∧
      (decode w = .ok .hashClear ↔ w = 0x0000003B) ∧
      (decode w = .ok .hashSize ↔ w = 0x0000003C)

/-! ## The register file -/

/-- A host write of CMD while the engine is idle starts the command; DONE, ERR, OVR and ERRCODE stay (R39). -/
def Obligations.CommandStart : Prop :=
  ∀ (s : State) (w : Word32) (rest : List BusEvent), s.busy = false → s.bus = st32 (regAddr 0x010) w :: rest →
    step s = .next
      { s with
        cmd := w
        status := { s.status with lastOp := w.extractLsb' 0 8 }
        phase := .busy w s.args
        bus := rest
        response := .written }

/-- A host write of CMD while the engine is busy changes nothing but STATUS.OVR (R40). -/
def Obligations.CommandDropped : Prop :=
  ∀ (s : State) (w : Word32) (rest : List BusEvent), s.busy = true → s.bus = st32 (regAddr 0x010) w :: rest →
    step s = .next { s with status := { s.status with ovr := true }, bus := rest, response := .written }

/-- ID and VERSION read their hardwired values in every state, and a write of either is ignored (R32). -/
def Obligations.HardwiredIdentity : Prop :=
  ∀ (s : State) (v : Word32) (rest : List BusEvent),
    (s.bus = ld32 (regAddr 0x000) :: rest →
      step s = .next { s with bus := rest, response := .data32 0x46543854 }) ∧
    (s.bus = ld32 (regAddr 0x004) :: rest →
      step s = .next { s with bus := rest, response := .data32 0x00000001 }) ∧
    (s.bus = st32 (regAddr 0x000) v :: rest → step s = .next { s with bus := rest, response := .written }) ∧
    (s.bus = st32 (regAddr 0x004) v :: rest → step s = .next { s with bus := rest, response := .written })

/-- What a read of every register gives, field by field, with no side effect (R31, R33, R34, R35, R36, R37, R75). -/
def Obligations.RegisterReads : Prop :=
  ∀ (s : State) (off : Nat) (rest : List BusEvent), off % 4 = 0 → off < 0x100000 →
    s.bus = ld32 (regAddr off) :: rest →
    ∃ v, step s = .next { s with bus := rest, response := .data32 v } ∧
      (off = 0x008 → v.getLsbD 0 = s.ie ∧ v.extractLsb' 1 31 = 0) ∧
      (off = 0x00C → v.getLsbD 0 = s.busy ∧ v.getLsbD 1 = s.status.done ∧ v.getLsbD 2 = s.status.err
        ∧ v.getLsbD 3 = s.status.ok ∧ v.getLsbD 4 = s.status.ovr ∧ v.extractLsb' 5 3 = 0
        ∧ v.extractLsb' 8 8 = s.status.errCode.code ∧ v.extractLsb' 16 8 = s.status.lastOp
        ∧ v.extractLsb' 24 8 = 0) ∧
      (off = 0x010 → v = s.cmd) ∧
      (∀ i : Fin 8, off = 0x020 + 4 * i.val → v = s.args[i]) ∧
      (∀ i : Fin 8, off = 0x040 + 4 * i.val → v = s.res[i]) ∧
      (0x010 < off → off < 0x020 ∨ 0x03C < off ∧ off < 0x040 ∨ 0x05C < off → v = 0)

/-- What a write of every register does, and that it does nothing else (R31, R33, R34, R36, R37, R360): CTRL.IE, the
write-1-to-clear bits of STATUS, one ARG register in any phase, and nothing for RES and the unnamed offsets. -/
def Obligations.RegisterWrites : Prop :=
  ∀ (s : State) (v : Word32) (off : Nat) (rest : List BusEvent), off % 4 = 0 → off < 0x100000 →
    s.bus = st32 (regAddr off) v :: rest →
    (off = 0x008 → v.getLsbD 1 = false →
      step s = .next { s with ie := v.getLsbD 0, bus := rest, response := .written }) ∧
    (off = 0x00C → step s = .next
      { s with
        status :=
          { s.status with
            done := s.status.done && !v.getLsbD 1
            err := s.status.err && !v.getLsbD 2
            ovr := s.status.ovr && !v.getLsbD 4 }
        bus := rest
        response := .written }) ∧
    (∀ i : Fin 8, off = 0x020 + 4 * i.val →
      step s = .next { s with args := s.args.set i v, bus := rest, response := .written }) ∧
    (0x010 < off → off < 0x020 ∨ 0x03C < off → step s = .next { s with bus := rest, response := .written })

/-- The interrupt line (R53, R330): every completion raises it when IE is set; a CTRL write masks or unmasks it
without clearing DONE; a write of 1 to DONE and a soft reset clear it. -/
def Obligations.InterruptLine : Prop :=
  (∀ (i : Instr) (s t : State), exec i s = .next t → t.irq = s.ie ∧ t.status.done = true) ∧
  ∀ (s t : State) (v : Word32) (rest : List BusEvent),
    (s.bus = st32 (regAddr 0x008) v :: rest → v.getLsbD 1 = false → step s = .next t →
      t.status.done = s.status.done ∧ t.irq = (v.getLsbD 0 && s.status.done)) ∧
    (s.bus = st32 (regAddr 0x008) v :: rest → v.getLsbD 1 = true → step s = .next t → t.irq = false) ∧
    (s.bus = st32 (regAddr 0x00C) v :: rest → v.getLsbD 1 = true → step s = .next t → t.irq = false)

/-- A host access of the register block that is not 32 bits wide at a multiple of 4, or of the window that is not 32
or 64 bits wide at a multiple of its width, is refused and has no effect (R74, R75). That BASE is a multiple of 8 is
the model's own (log entry 6). -/
def Obligations.IllegalAccesses : Prop :=
  ∀ (s : State) (off bytes : Nat) (v : Word64) (rest : List BusEvent),
    s.bus = .read (Config.base + off) bytes :: rest ∨ s.bus = .write (Config.base + off) bytes v :: rest →
    (off < 0x100000 → bytes ≠ 4 ∨ (Config.base + off) % 4 ≠ 0 → step s = .refused .busError) ∧
    (0x100000 ≤ off → off < 0x500000 → (bytes ≠ 4 ∧ bytes ≠ 8) ∨ (Config.base + off) % bytes ≠ 0 →
      step s = .refused .busError)

/-! ## The data-memory window -/

/-- A host write of the window outside the running command's footprint stores its bytes, lowest first, and changes
nothing else (R71, R73, R80). -/
def Obligations.WindowWrites : Prop :=
  ∀ (s : State) (a : Nat) (rest : List BusEvent), a < 524288 → (∀ r ∈ s.footprint, r.mem a = false) →
    (∀ v : Word64, s.bus = stw a v :: rest →
      ∃ m, step s = .next { s with dmem := m, bus := rest, response := .written } ∧ readWord m a = some v ∧
        (∀ k < 8, readByte m (8 * a + k) = some (v.extractLsb' (8 * k) 8)) ∧
        SameOutside [⟨a, 1⟩] s.dmem m) ∧
    (∀ (v : Word32) (half : Nat), half < 2 → s.bus = st32 (windowAddr a + 4 * half) v :: rest →
      ∃ m, step s = .next { s with dmem := m, bus := rest, response := .written } ∧
        (∀ k < 4, readByte m (8 * a + 4 * half + k) = some (v.extractLsb' (8 * k) 8)) ∧
        ∀ b, b < 8 * a + 4 * half ∨ 8 * a + 4 * half + 4 ≤ b → readByte m b = readByte s.dmem b)

/-- A host read of a word outside the running command's output ranges gives its value, and its halves at 8a and
8a + 4, with no side effect; a read of a word inside them draws a free value (R73, R75, R80). That a free value is the
next of Config.freeWord is the model's own (log entry 3). -/
def Obligations.WindowReads : Prop :=
  ∀ (s : State) (a : Nat) (w : Word64) (rest : List BusEvent), a < 524288 →
    ((∀ r ∈ s.runningOutputs, r.mem a = false) → readWord s.dmem a = some w →
      (s.bus = ldw a :: rest → step s = .next { s with bus := rest, response := .data64 w }) ∧
      (s.bus = ld32 (windowAddr a) :: rest →
        step s = .next { s with bus := rest, response := .data32 (w.extractLsb' 0 32) }) ∧
      (s.bus = ld32 (windowAddr a + 4) :: rest →
        step s = .next { s with bus := rest, response := .data32 (w.extractLsb' 32 32) })) ∧
    ((∃ r ∈ s.runningOutputs, r.mem a = true) → s.bus = ldw a :: rest →
      step s = .next
        { s with bus := rest, response := .data64 (Config.freeWord s.draws), draws := s.draws + 1 })

/-- A word has a value exactly when both its halves have been given one (R76). -/
def Obligations.HalfWords : Prop :=
  ∀ (m : Memory) (a : Nat) (lo hi : Word32),
    (readWord m a = none ↔ ∃ k < 8, readByte m (8 * a + k) = none) ∧
    readWord (writeSpan (writeSpan m (8 * a) (leBytes 4 lo.toNat)) (8 * a + 4) (leBytes 4 hi.toNat)) a
      = some (hi ++ lo) ∧
    readWord (writeSpan (writeSpan m (8 * a + 4) (leBytes 4 hi.toNat)) (8 * a) (leBytes 4 lo.toNat)) a
      = some (hi ++ lo) ∧
    ((∃ k < 4, readByte m (8 * a + 4 + k) = none) →
      readWord (writeSpan m (8 * a) (leBytes 4 lo.toNat)) a = none) ∧
    ((∃ k < 4, readByte m (8 * a + k) = none) →
      readWord (writeSpan m (8 * a + 4) (leBytes 4 hi.toNat)) a = none)

/-- A host write of either width into the footprint of the running command is the fault MODEL_HOST_RACE (R80,
R327). -/
def Obligations.HostRace : Prop :=
  ∀ (s : State) (w : Word32) (args : Regs8) (i : Instr) (a : Nat) (rest : List BusEvent),
    s.phase = .busy w args → decode w = .ok i → a < 524288 →
    (∃ r ∈ inputRanges i args ++ outputRanges i args, r.base ≤ a ∧ a < r.base + r.len) →
    (∀ v, s.bus = stw a v :: rest → step s = .fault .hostRace) ∧
    (∀ v half, half < 2 → s.bus = st32 (windowAddr a + 4 * half) v :: rest → step s = .fault .hostRace)

/-! ## Reset -/

/-- A soft reset of an idle engine puts every register and HT at the power-on value, whatever bit 0 of the written
value is, and leaves the data memory as it is (R351). -/
def Obligations.SoftResetIdle : Prop :=
  ∀ (s : State) (v : Word32) (rest : List BusEvent), s.phase = .idle → v.getLsbD 1 = true →
    s.bus = st32 (regAddr 0x008) v :: rest →
    step s = .next
      { State.reset with dmem := s.dmem, bus := rest, response := .written, draws := s.draws }

/-- A soft reset while the engine is busy abandons the command (R352): every register and HT at the power-on value,
each word of the output ranges as before or with some value, every other byte as before. -/
def Obligations.SoftResetBusy : Prop :=
  ∀ (s : State) (v : Word32) (rest : List BusEvent), s.busy = true → v.getLsbD 1 = true →
    s.bus = st32 (regAddr 0x008) v :: rest →
    ∃ m n, step s = .next { State.reset with dmem := m, bus := rest, response := .written, draws := n } ∧
      SameOutside s.runningOutputs s.dmem m ∧
      ∀ a : Nat, (∀ k < 8, readByte m (8 * a + k) = readByte s.dmem (8 * a + k)) ∨ ∃ w, readWord m a = some w

/-- Every piece of state after power-on reset (R350). -/
def Obligations.ResetState : Prop :=
  State.reset.readRegister 0x000 = 0x46543854 ∧ State.reset.readRegister 0x004 = 0x00000001 ∧
    State.reset.ctrlWord = 0 ∧ State.reset.statusWord = 0 ∧ State.reset.cmd = 0 ∧
    (∀ i : Fin 8, State.reset.args[i] = 0) ∧ (∀ i : Fin 8, State.reset.res[i] = 0) ∧
    State.reset.phase = .idle ∧ State.reset.irq = false ∧
    (∀ b, readByte State.reset.dmem b = none) ∧
    (∀ h, State.reset.ht.lookup10 h = none) ∧ (∀ h, State.reset.ht.lookup12 h = none) ∧ State.reset.ht.ht22 = []

/-- An idle engine waits: with no host event it changes nothing, and the machine after reset is such (R353). -/
def Obligations.IdleEngineWaits : Prop :=
  (∀ s : State, s.phase = .idle → s.bus = [] → step s = .next s) ∧ step State.reset = .next State.reset

/-! ## What every command does -/

/-- Every command ends in one step, in one of three ways: completion without error, completion with an error code
other than ERR_NONE, or the model fault of a read without a value (R41, R42, R322). It is never refused. A word that
encodes no command completes with the error of its first failed decoding check. -/
def Obligations.CommandsCompleteOrRaise : Prop :=
  (∀ (i : Instr) (s : State),
    (∃ t r, exec i s = .next t ∧ Completed s t r) ∨
    (∃ t e, e ≠ .none ∧ exec i s = .next t ∧ Raised s t e) ∨
    exec i s = .fault .uninitRead) ∧
  ∀ (s : State) (w : Word32) (args : Regs8) (e : DecodeError), s.phase = .busy w args → s.bus = [] →
    decode w = .error e → ∃ t, step s = .next t ∧ Raised s t (ErrCode.ofDecode e)

/-- A command changes no byte of the data memory outside the output ranges of its arguments, and stores nothing
outside the data memory (R44, R72, R79). The premise is the form the hash-call table has in every reachable state. -/
def Obligations.MemoryFrame : Prop :=
  ∀ (i : Instr) (s t : State), s.ht.wf = true → exec i s = .next t →
    SameOutside (outputRanges i s.snapshot) s.dmem t.dmem ∧
    (s.dmem.inRange = true → t.dmem.inRange = true) ∧ (s.dmem.wf = true → t.dmem.wf = true)

/-- Only HASH_SAVE, HASH_CLEAR and UNPACK77 with USE_HT change the hash-call table, and the commands that do not use
it do the same whatever it holds (R49, R79, R251). -/
def Obligations.TableFrame : Prop :=
  (∀ (i : Instr) (s t : State), exec i s = .next t →
    i ≠ .hashSave → i ≠ .hashClear → i ≠ .unpack77 true → t.ht = s.ht) ∧
  ∀ (i : Instr) (s t : State) (h : HashTable), exec i s = .next t →
    i ≠ .hashSave → i ≠ .hashClear → i ≠ .unpack77 true → (∀ width, i ≠ .hashLookup width) → i ≠ .hashSize →
    exec i { s with ht := h } = .next { t with ht := h }

/-- A command's effect is a function of the argument snapshot, the data memory and the hash-call table at its start:
nothing else of the machine is read, the live ARG registers included (R36, R44, R360). -/
def Obligations.SnapshotDetermines : Prop :=
  ∀ (i : Instr) (s s' t : State), s'.snapshot = s.snapshot → s'.dmem = s.dmem → s'.ht = s.ht →
    exec i s = .next t →
    ∃ t', exec i s' = .next t' ∧ t'.dmem = t.dmem ∧ t'.ht = t.ht ∧ t'.res = t.res ∧
      t'.status.errCode = t.status.errCode ∧ t'.status.ok = t.status.ok

/-- RES0 bit 0 is the success flag of the commands that have one, the others write RES0 = 1, and STATUS.OK mirrors it
(R38). -/
def Obligations.SuccessFlag : Prop :=
  ∀ (i : Instr) (s t : State), exec i s = .next t → t.status.errCode = .none →
    t.status.ok = t.res[0].getLsbD 0 ∧ (t.res[0] = 0 ∨ t.res[0] = 1) ∧
    ((∀ maskEn, i ≠ .ldpcDecode maskEn) → i ≠ .crc14Check → i ≠ .pack77 → (∀ useHt, i ≠ .unpack77 useHt) →
      i ≠ .hashSave → (∀ width, i ≠ .hashLookup width) → t.res[0] = 1 ∧ t.status.ok = true)

/-- Every step keeps the invariant: the memory's form and bounds, the hash-call table's form, and the agreement of
STATUS, CMD and RES (R34, R35, R42, R45, R48, R291, R292). -/
def Obligations.StepKeepsInvariant : Prop :=
  ∀ s t : State, s.Inv → step s = .next t → t.Inv

/-- The machine after reset meets the invariant (R350). -/
def Obligations.ResetMeetsInvariant : Prop := State.reset.Inv

/-- A command line on an idle engine (R100): after the writes of its arguments and of its word, the engine is busy
with that command and those arguments, and the next step executes it. -/
def Obligations.CommandLineRuns : Prop :=
  ∀ (i : Instr) (args : List Word32) (s : State) (rest : List BusEvent), i.wellFormed = true → args.length ≤ 8 →
    s.phase = .idle → s.bus = commandLine args i ++ rest →
    ∃ t, core.run (args.length + 1) s = .next t ∧ t.phase = .busy (encode i) t.args ∧ t.cmd = encode i ∧
      (∀ k : Fin 8, t.args[k] = args.getD k.val s.args[k]) ∧
      t.dmem = s.dmem ∧ t.ht = s.ht ∧ t.res = s.res ∧ t.ie = s.ie ∧
      step t = exec i { t with bus := rest }

/-! ## Errors -/

/-- The argument checks of every command, in order (R72, R78, R122, R303, R325): a reserved WIDTH or a hash too wide,
then the lengths, then the ranges, then the overlap. -/
def Obligations.ArgumentErrors : Prop :=
  ∀ (i : Instr) (s : State),
    (i.wellFormed = false → ∃ t, exec i s = .next t ∧ Raised s t .arg) ∧
    (¬ HashLegal i s.snapshot → ∃ t, exec i s = .next t ∧ Raised s t .arg) ∧
    (i.wellFormed = true → HashLegal i s.snapshot →
      (¬ LengthsLegal i s.snapshot → ∃ t, exec i s = .next t ∧ Raised s t .len) ∧
      (LengthsLegal i s.snapshot → ¬ RangesFit i s.snapshot → ∃ t, exec i s = .next t ∧ Raised s t .addr) ∧
      (LengthsLegal i s.snapshot → RangesFit i s.snapshot → ¬ NoOverlap i s.snapshot →
        ∃ t, exec i s = .next t ∧ Raised s t .overlap))

/-- The value checks on input words (R15, R300, R320, R323): a bit word that is not 0 or 1, a character word that is
not below 128, and for HASH_COMPUTE a character outside A38. That LDPC_DECODE checks its mask before it reads a metric
is the model's own (log entry 8). -/
def Obligations.ValueErrors : Prop :=
  ∀ (i : Instr) (s : State) (ws : List Word64), ArgsLegal i s.snapshot →
    (∀ r, bitOperand i s.snapshot = some r → ws.length = r.len → HoldsWords s.dmem r.base ws →
      (∃ w ∈ ws, w ≠ 0 ∧ w ≠ 1) → ∃ t, exec i s = .next t ∧ Raised s t .value) ∧
    (i = .pack77 ∨ i = .hashSave ∨ i = .hashCompute → ws.length = argNat s.snapshot 1 →
      HoldsWords s.dmem (argNat s.snapshot 0) ws →
      ((∃ w ∈ ws, 128 ≤ w.toNat) → ∃ t, exec i s = .next t ∧ Raised s t .value) ∧
      (i = .hashCompute → (∀ w ∈ ws, w.toNat < 128) →
        (∃ w ∈ ws, upperChar (Char.ofNat w.toNat) ∉ A38) → ∃ t, exec i s = .next t ∧ Raised s t .value))

/-- A command meets the model fault MODEL_UNINIT_READ exactly when one of the words it reads has no value (R47, R129,
R327), for every command whose argument checks pass and whose words that have a value pass the value checks. Which
words of an input range are read is as the pseudocode has it (log entry 22); where a word without a value and one that
fails its check meet, the order is the model's (log entry 8) and left out here. -/
def Obligations.ValuelessReadsFault : Prop :=
  ∀ (i : Instr) (s : State), ArgsLegal i s.snapshot →
    (∀ a w, ReadsWord i s.snapshot a → readWord s.dmem a = some w → PassesCheck i s.snapshot a w) →
    (exec i s = .fault .uninitRead ↔ ∃ a, ReadsWord i s.snapshot a ∧ readWord s.dmem a = none)

/-! ## What each command computes, and that it completes -/

/-- NOP writes RES0 = 1 and 0 to the other results, leaves the data memory and HT, and completes like any command, so
that the interrupt fires if enabled (R312). The zero word encodes it. -/
def Obligations.NopCompletes : Prop :=
  decode 0 = .ok .nop ∧
    ∀ s : State, ∃ t, exec .nop s = .next t ∧ Completed s t #v[1, 0, 0, 0, 0, 0, 0, 0] ∧ t.irq = s.ie ∧
      t.dmem = s.dmem ∧ t.ht = s.ht

/-- FFT and IFFT complete on every legal operand, in place, with the path and internal length of R121 and R127
(R120, R122, R129, R130). What they write is what the pseudocode computes: the permutation and the rounds of R126 in
order, the chirp path of R127 line by line, and for IFFT the one division by N of R130; the same is said of the
transforms that the other commands use. FFT of one element leaves every byte of memory unchanged. -/
def Obligations.TransformsComplete : Prop :=
  (∀ (T : Config.Trig) (N : Nat) (x : List Cplx), 0 < N → x.length = N →
    ForwardResult T N x (forwardTransform T N x) ∧ InverseResult T N x (inverseTransform T N x)) ∧
  ∀ (s : State) (N : Nat) (xr xi : List F64), argNat s.snapshot 2 = N → xr.length = N → xi.length = N →
    HoldsWords s.dmem (argNat s.snapshot 0) xr → HoldsWords s.dmem (argNat s.snapshot 1) xi →
    (ArgsLegal .fft s.snapshot →
      ∃ t path L y, exec .fft s = .next t ∧ Completed s t (results [1, path, L]) ∧ TransformPath N path L ∧
        y = forwardTransform Config.trig N (xr.zip xi) ∧ ForwardResult Config.trig N (xr.zip xi) y ∧
        Wrote s t [(argNat s.snapshot 0, y.map Prod.fst), (argNat s.snapshot 1, y.map Prod.snd)] ∧
        t.ht = s.ht ∧ (N = 1 → SameMemory s.dmem t.dmem)) ∧
    (ArgsLegal .ifft s.snapshot →
      ∃ t path L y, exec .ifft s = .next t ∧ Completed s t (results [1, path, L]) ∧ TransformPath N path L ∧
        y = inverseTransform Config.trig N (xr.zip xi) ∧ InverseResult Config.trig N (xr.zip xi) y ∧
        Wrote s t [(argNat s.snapshot 0, y.map Prod.fst), (argNat s.snapshot 1, y.map Prod.snd)] ∧
        t.ht = s.ht)

/-- LDPC_ENCODE writes the systematic codeword of its 91 bits (R154, R157). -/
def Obligations.LdpcEncodeCompletes : Prop :=
  ∀ (s : State) (u : List Bool), ArgsLegal .ldpcEncode s.snapshot → u.length = 91 →
    HoldsWords s.dmem (argNat s.snapshot 0) (u.map bitWord) →
    ∃ t p, exec .ldpcEncode s = .next t ∧ Completed s t (results [1]) ∧ p.length = 83 ∧
      (∀ q < 83, bitAt p q = parityBit ldpcCode u q) ∧
      Wrote s t [(argNat s.snapshot 1, (u ++ p).map bitWord)] ∧ t.ht = s.ht

/-- LDPC_DECODE completes on every operand, with either flag, and reports belief propagation and ordered statistics
as R180 says; a failed decode writes nothing. That the tables are held to the constraints of R150 and R154 is the
model's own (log entry 4). -/
def Obligations.LdpcDecodeCompletes : Prop :=
  ∀ (maskEn : Bool) (s : State) (llr : List F64) (ap : List Bool), ArgsLegal (.ldpcDecode maskEn) s.snapshot →
    DecodeOperands maskEn s llr ap →
    ∃ t, exec (.ldpcDecode maskEn) s = .next t ∧ t.ht = s.ht ∧
      match beliefPropagation Config.trig ldpcCode llr ap with
      | ⟨some cw, it⟩ =>
        Completed s t (results ([1, 1, hardErrors cw llr, it] ++ f64Halves (distance cw llr) ++ [0])) ∧
          Wrote s t [(argNat s.snapshot 2, cw.map bitWord)]
      | ⟨none, it⟩ =>
        if argInt s.snapshot 3 < 0 then Completed s t (results [0, 0, 0, it]) ∧ Wrote s t []
        else
          match orderedStatistics ldpcCode llr ap (argInt s.snapshot 3) with
          | ⟨some cw, osd⟩ =>
            Completed s t (results ([1, 2, hardErrors cw llr, it] ++ f64Halves (distance cw llr) ++ [osd])) ∧
              Wrote s t [(argNat s.snapshot 2, cw.map bitWord)]
          | ⟨none, osd⟩ => Completed s t (results [0, 0, 0, it, 0, 0, osd]) ∧ Wrote s t []

/-- CRC14_GEN writes the CRC's 14 bits, bit 13 first, and reports it (R155, R158). -/
def Obligations.Crc14GenCompletes : Prop :=
  ∀ (s : State) (m : List Bool), ArgsLegal .crc14Gen s.snapshot → m.length = 77 →
    HoldsWords s.dmem (argNat s.snapshot 0) (m.map bitWord) →
    ∃ t, exec .crc14Gen s = .next t ∧ Completed s t (results [1, (crc14 m).toNat]) ∧
      Wrote s t [(argNat s.snapshot 1, (List.range 14).map fun j => bitWord ((crc14 m).getLsbD (13 - j)))] ∧
      t.ht = s.ht

/-- CRC14_CHECK reports the match, the computed CRC and the received one, and writes nothing (R156, R181). -/
def Obligations.Crc14CheckCompletes : Prop :=
  ∀ (s : State) (m c : List Bool), ArgsLegal .crc14Check s.snapshot → m.length = 77 → c.length = 14 →
    HoldsWords s.dmem (argNat s.snapshot 0) ((m ++ c).map bitWord) →
    ∃ t, exec .crc14Check s = .next t ∧
      Completed s t (results [if (crc14 m).toNat = bitsNat c then 1 else 0, (crc14 m).toNat, bitsNat c]) ∧
      Wrote s t [] ∧ t.ht = s.ht

/-- MIX_DOWN writes the inverse transform of the M tapered bins around the centre bin (R210). -/
def Obligations.MixDownCompletes : Prop :=
  ∀ (s : State) (N M : Nat) (xr xi : List F64), argNat s.snapshot 2 = N → argNat s.snapshot 4 = M →
    ArgsLegal .mixDown s.snapshot → xr.length = N → xi.length = N →
    HoldsWords s.dmem (argNat s.snapshot 0) xr → HoldsWords s.dmem (argNat s.snapshot 1) xi →
    ∃ t path, exec .mixDown s = .next t ∧ Completed s t (results [1, path]) ∧
      (path = 0 ∧ (∃ p, M = 2 ^ p) ∨ path = 1 ∧ ¬ ∃ p, M = 2 ^ p) ∧
      Wrote s t
        [(argNat s.snapshot 5,
            (inverseTransform Config.trig M (tapered xr xi N M (argInt s.snapshot 3))).map Prod.fst),
          (argNat s.snapshot 6,
            (inverseTransform Config.trig M (tapered xr xi N M (argInt s.snapshot 3))).map Prod.snd)] ∧
      t.ht = s.ht

/-- SYMBOL_TONES writes the first T bins of every symbol's transform, in either mode (R206, R212). -/
def Obligations.SymbolTonesCompletes : Prop :=
  ∀ (mode : Mode) (s : State) (L NS : Nat) (xr xi : List F64), argNat s.snapshot 3 = L → argNat s.snapshot 5 = NS →
    ArgsLegal (.symbolTones mode) s.snapshot →
    xr.length = argNat s.snapshot 2 → xi.length = argNat s.snapshot 2 →
    HoldsWords s.dmem (argNat s.snapshot 0) xr → HoldsWords s.dmem (argNat s.snapshot 1) xi →
    ∃ t, exec (.symbolTones mode) s = .next t ∧ Completed s t (results [1]) ∧
      Wrote s t
        [(argNat s.snapshot 6,
          ((List.range NS).flatMap fun k =>
            (forwardTransform Config.trig L (segment xr xi L (argInt s.snapshot 4) k)).take (tones mode)).flatMap
            fun z => [z.1, z.2])] ∧
      t.ht = s.ht

/-- SYNC_COUNT counts, block by block and in total, the sync symbols whose largest tone is the expected one (R205,
R214). -/
def Obligations.SyncCountCompletes : Prop :=
  ∀ (mode : Mode) (s : State) (ws : List F64), ArgsLegal (.syncCount mode) s.snapshot →
    ws.length = toneWords mode → HoldsWords s.dmem (argNat s.snapshot 0) ws →
    ∃ t, exec (.syncCount mode) s = .next t ∧
      Completed s t (results
        (1 :: ((syncBlocks mode).map (syncMatches (tones mode) ws)).sum
          :: (syncBlocks mode).map (syncMatches (tones mode) ws))) ∧
      Wrote s t [] ∧ t.ht = s.ht

/-- SOFTBITS writes the normalized metric arrays of the frame's data blocks, one after the other (R221, R222, R223,
R224). -/
def Obligations.SoftBitsCompletes : Prop :=
  ∀ (mode : Mode) (s : State) (ws : List F64), ArgsLegal (.softBits mode) s.snapshot →
    ws.length = toneWords mode → HoldsWords s.dmem (argNat s.snapshot 0) ws →
    ∃ t arrays, exec (.softBits mode) s = .next t ∧ Completed s t (results [1, metricArrays mode]) ∧
      arrays = ((groupSizes mode).map (metricArray mode (frameBlocks mode ws)) ++
        if mode = .ft8 then [fourthArray mode (frameBlocks mode ws)] else []) ∧
      arrays.length = metricArrays mode ∧ (∀ a ∈ arrays, a.length = 174) ∧
      Wrote s t [(argNat s.snapshot 1, arrays.flatMap (normalize true))] ∧ t.ht = s.ht

/-- PACK77 completes on every text of ASCII characters: an empty message fails and writes nothing, any other packs
into 77 bits (R254, R255, R270). -/
def Obligations.Pack77Completes : Prop :=
  ∀ (s : State) (text : List Char), ArgsLegal .pack77 s.snapshot → text.length = argNat s.snapshot 1 →
    (∀ c ∈ text, c.toNat < 128) → HoldsWords s.dmem (argNat s.snapshot 0) (text.map charWord) →
    ∃ t, exec .pack77 s = .next t ∧ t.ht = s.ht ∧
      (words (upper text) = [] → Completed s t (results [0]) ∧ Wrote s t []) ∧
      (∀ p, words (upper text) ≠ [] → pack (words (upper text)) = p →
        Completed s t (results [1, p.i3, p.n3, p.form]) ∧ p.bits.length = 77 ∧ bitField p.bits 74 3 = p.i3 ∧
        (p.form = 0 ∧ p.i3 = 0 ∧ p.n3 = 0 ∨ p.form = 1 ∧ (p.i3 = 1 ∨ p.i3 = 2) ∨ p.form = 4 ∧ p.i3 = 4) ∧
        Wrote s t [(argNat s.snapshot 2, p.bits.map bitWord)])

/-- UNPACK77 completes on every 77 bits, with either flag: a failed unpacking writes nothing and learns nothing; a
good one writes its text, and with USE_HT = 1 saves the callsign it learns (R250, R251, R256, R275). With USE_HT = 0
the table is not read. What n3 reads for i3 other than 0, and which callsign is learned, are the model's reading (log
entries 9 and 10). -/
def Obligations.Unpack77Completes : Prop :=
  ∀ (useHt : Bool) (s : State) (m : List Bool), ArgsLegal (.unpack77 useHt) s.snapshot → m.length = 77 →
    HoldsWords s.dmem (argNat s.snapshot 0) (m.map bitWord) →
    ∃ t r, exec (.unpack77 useHt) s = .next t ∧
      r = (if useHt = true then unpack s.ht.lookup22 s.ht.lookup12 m else unpack (fun _ => none) (fun _ => none) m) ∧
      (r = none → Completed s t (results [0, 0, messageI3 m, messageN3 m]) ∧ Wrote s t [] ∧ t.ht = s.ht) ∧
      ∀ u, r = some u →
        Wrote s t [(argNat s.snapshot 1, u.text.map charWord)] ∧
        (useHt = false ∨ u.learn = none →
          Completed s t (results [1, u.text.length, messageI3 m, messageN3 m, 0]) ∧ t.ht = s.ht) ∧
        (∀ x, useHt = true → u.learn = some x →
          Completed s t
            (results [1, u.text.length, messageI3 m, messageN3 m, if s.ht.saveChanges x then 1 else 0]) ∧
          t.ht = s.ht.save x)

/-- HASH_COMPUTE reports the three hashes of its upper-cased text, and touches neither memory nor HT (R290, R300). -/
def Obligations.HashComputeCompletes : Prop :=
  ∀ (s : State) (text : List Char), ArgsLegal .hashCompute s.snapshot → text.length = argNat s.snapshot 1 →
    (∀ c ∈ text, c.toNat < 128 ∧ upperChar c ∈ A38) →
    HoldsWords s.dmem (argNat s.snapshot 0) (text.map charWord) →
    ∃ t n8, exec .hashCompute s = .next t ∧
      n8 = ((List.range 11).map fun k => alphaIdx A38 ((upper text).getD k ' ') * 38 ^ (10 - k)).sum ∧
      Completed s t (results [1, 47055833459 * n8 % 2 ^ 64 / 2 ^ 54, 47055833459 * n8 % 2 ^ 64 / 2 ^ 52,
        47055833459 * n8 % 2 ^ 64 / 2 ^ 42]) ∧
      Wrote s t [] ∧ t.ht = s.ht

/-- HASH_SAVE saves a valid callsign and reports whether HT changed and its size; any other text is a failure that
leaves HT (R291, R294, R301). -/
def Obligations.HashSaveCompletes : Prop :=
  ∀ (s : State) (text : List Char), ArgsLegal .hashSave s.snapshot → text.length = argNat s.snapshot 1 →
    (∀ c ∈ text, c.toNat < 128) → HoldsWords s.dmem (argNat s.snapshot 0) (text.map charWord) →
    ∃ t, exec .hashSave s = .next t ∧ Wrote s t [] ∧
      (canon text = none → Completed s t (results [0]) ∧ t.ht = s.ht) ∧
      ∀ x, canon text = some x → t.ht = s.ht.save x ∧
        Completed s t (results [1, if s.ht.save x = s.ht then 0 else 1, (s.ht.save x).ht22.length])

/-- HASH_LOOKUP, for each of the three maps, writes the callsign it finds and its length; a miss writes nothing; HT is
not changed (R293, R303). -/
def Obligations.HashLookupCompletes : Prop :=
  ∀ (width : BitVec 2) (s : State), ArgsLegal (.hashLookup width) s.snapshot →
    ∃ t found, exec (.hashLookup width) s = .next t ∧ t.ht = s.ht ∧
      (width = 0 → found = s.ht.lookup10 (argNat s.snapshot 0)) ∧
      (width = 1 → found = s.ht.lookup12 (argNat s.snapshot 0)) ∧
      (width = 2 → found = s.ht.lookup22 (argNat s.snapshot 0)) ∧
      (found = none → Completed s t (results [0]) ∧ Wrote s t []) ∧
      ∀ x, found = some x →
        Completed s t (results [1, x.length]) ∧ Wrote s t [(argNat s.snapshot 1, x.map charWord)]

/-- HASH_CLEAR empties the three maps and reports RES0 = 1 (R296, R305). -/
def Obligations.HashClearCompletes : Prop :=
  ∀ s : State, ∃ t, exec .hashClear s = .next t ∧ Completed s t (results [1]) ∧ t.dmem = s.dmem ∧
    (∀ h, t.ht.lookup10 h = none) ∧ (∀ h, t.ht.lookup12 h = none) ∧ t.ht.ht22 = []

/-- HASH_SIZE reports the number of pairs of HT22 and of occupied entries of HT10 and HT12 (R306), in every state
whose table has its form. -/
def Obligations.HashSizeCompletes : Prop :=
  ∀ s : State, s.ht.wf = true →
    ∃ t, exec .hashSize s = .next t ∧ t.dmem = s.dmem ∧ t.ht = s.ht ∧
      Completed s t (results [1, s.ht.ht22.length,
        ((List.range 1024).filter fun h => (s.ht.lookup10 h).isSome).length,
        ((List.range 4096).filter fun h => (s.ht.lookup12 h).isSome).length])

/-! ## The transforms -/

/-- The bit reversal of R125: it reverses the p bits of an index, is its own inverse, and the permutation step takes
the element at rev_p(j) to j. -/
def Obligations.BitReversal : Prop :=
  ∀ p j : Nat, j < 2 ^ p →
    bitRev p j < 2 ^ p ∧ bitRev p (bitRev p j) = j ∧
    (∀ k < p, (bitRev p j).testBit k = j.testBit (p - 1 - k)) ∧
    ∀ x : List Cplx, x.length = 2 ^ p →
      (bitRevPermute p x).length = 2 ^ p ∧ (bitRevPermute p x).getD j (0, 0) = x.getD (bitRev p j) (0, 0)

/-- One round of the radix-2 loop (R126): the butterfly of every pair, in the order of operations shown there, for
every length, direction and block. -/
def Obligations.ButterflyRound : Prop :=
  ∀ (T : Config.Trig) (inverse : Bool) (L half i j : Nat) (x : List Cplx) (wr wi tr ti : F64),
    x.length = L → 0 < half → j < half → 2 * half ∣ i → i + 2 * half ≤ L →
    twiddle T inverse L (j * (L / (2 * half))) = (wr, wi) →
    tr = fsub (fmul wr (x.getD (i + j + half) (0, 0)).1) (fmul wi (x.getD (i + j + half) (0, 0)).2) →
    ti = fadd (fmul wr (x.getD (i + j + half) (0, 0)).2) (fmul wi (x.getD (i + j + half) (0, 0)).1) →
    (r2Stage T inverse L half x).getD (i + j) (0, 0)
        = (fadd (x.getD (i + j) (0, 0)).1 tr, fadd (x.getD (i + j) (0, 0)).2 ti) ∧
      (r2Stage T inverse L half x).getD (i + j + half) (0, 0)
        = (fsub (x.getD (i + j) (0, 0)).1 tr, fsub (x.getD (i + j) (0, 0)).2 ti)

/-! ## The code and the CRC -/

/-- Every codeword is systematic and passes all 83 parity checks (R153, R154). That the tables are held to the
constraint of R154 is the model's own (log entry 4). -/
def Obligations.CodewordsPassParity : Prop :=
  ∀ u : List Bool, u.length = 91 →
    (codeword ldpcCode u).length = 174 ∧ (codeword ldpcCode u).take 91 = u ∧
      parityFail ldpcCode (codeword ldpcCode u) = 0

/-- Decoding without noise (R182): metrics a for the 1 bits and -a for the 0 bits of the codeword of a message whose
CRC is right decode at iteration 0 by belief propagation, with zero hard errors and distance 0, whatever the mask and
the depth. And metrics that all decide 0 decode to the all-zero word (R167). Both rest on the model's constraint on
the tables (log entry 4). -/
def Obligations.NoiselessMetricsDecode : Prop :=
  ∀ (maskEn : Bool) (s : State) (llr : List F64) (ap : List Bool), ArgsLegal (.ldpcDecode maskEn) s.snapshot →
    DecodeOperands maskEn s llr ap →
    (∀ (u : List Bool) (a : F64), u.length = 91 → crcOk u = true → flt 0 a = true →
      llr = (codeword ldpcCode u).map (fun b => if b then a else fneg a) →
      ∃ t, exec (.ldpcDecode maskEn) s = .next t ∧ Completed s t (results [1, 1, 0, 0, 0, 0, 0]) ∧
        Wrote s t [(argNat s.snapshot 2, (codeword ldpcCode u).map bitWord)] ∧ t.ht = s.ht) ∧
    ((∀ l ∈ llr, hard l = false) →
      ∃ t, exec (.ldpcDecode maskEn) s = .next t ∧ Completed s t (results [1, 1, 0, 0, 0, 0, 0]) ∧
        Wrote s t [(argNat s.snapshot 2, List.replicate 174 0)] ∧ t.ht = s.ht)

/-- A decode is accepted only with a valid CRC (R162, R166, R178, R180): on success the 174 words written form a word
whose first 91 bits pass the CRC, and that is a codeword when belief propagation found it; on failure nothing is
written. Belief propagation alone runs at a negative depth, and its iteration count is at most 30. -/
def Obligations.DecodeIsGated : Prop :=
  ∀ (maskEn : Bool) (s : State) (llr : List F64) (ap : List Bool), ArgsLegal (.ldpcDecode maskEn) s.snapshot →
    DecodeOperands maskEn s llr ap →
    ∃ t, exec (.ldpcDecode maskEn) s = .next t ∧ t.status.errCode = .none ∧ t.res[3].toNat ≤ 30 ∧
      (t.status.ok = true → ∃ cw : List Bool, cw.length = 174 ∧ crcOk cw = true ∧
        Wrote s t [(argNat s.snapshot 2, cw.map bitWord)] ∧ t.res[2].toNat = hardErrors cw llr ∧
        (t.res[1] = 1 ∧ t.res[6] = 0 ∧ parityFail ldpcCode cw = 0 ∨
          t.res[1] = 2 ∧ t.res[6] = 1 ∧ 0 ≤ argInt s.snapshot 3)) ∧
      (t.status.ok = false → SameMemory s.dmem t.dmem ∧ t.res[1] = 0 ∧ t.res[2] = 0 ∧
        (t.res[6] = 0 ∧ argInt s.snapshot 3 < 0 ∨ (t.res[6] = 2 ∨ t.res[6] = 3) ∧ 0 ≤ argInt s.snapshot 3))

/-- The CRC of R155 is the remainder of the padded payload's polynomial divided by x^14 + POLY, over the field of two
elements. -/
def Obligations.CrcIsTheRemainder : Prop :=
  ∀ m : List Bool, m.length = 77 →
    ∃ q : Polynomial (ZMod 2),
      (∑ i ∈ Finset.range 96,
          if bitAt (m ++ List.replicate 19 false) i = true then (Polynomial.X : Polynomial (ZMod 2)) ^ (95 - i) else 0)
        = q * (Polynomial.X ^ 14 +
            ∑ j ∈ Finset.range 14, if (0x2757#14).getLsbD j = true then Polynomial.X ^ j else 0)
          + ∑ j ∈ Finset.range 14, if (crc14 m).getLsbD j = true then Polynomial.X ^ j else 0

/-- A payload with its CRC appended checks, and with any one of its 91 bits flipped it does not (R156, R182). -/
def Obligations.CrcAcceptsAndDetects : Prop :=
  ∀ m : List Bool, m.length = 77 →
    crcOk (m ++ crcBits (crc14 m)) = true ∧
    ∀ k < 91, crcOk ((m ++ crcBits (crc14 m)).set k (!bitAt (m ++ crcBits (crc14 m)) k)) = false

/-- SOFTBITS of an all-zero frame writes zeros, and SYNC_COUNT of it counts the sync symbols that expect tone 0 (R214,
R225). -/
def Obligations.ZeroFrame : Prop :=
  ∀ (mode : Mode) (s : State), HoldsWords s.dmem (argNat s.snapshot 0) (List.replicate (toneWords mode) 0) →
    (ArgsLegal (.softBits mode) s.snapshot →
      ∃ t, exec (.softBits mode) s = .next t ∧ Completed s t (results [1, metricArrays mode]) ∧
        Wrote s t [(argNat s.snapshot 1, List.replicate (174 * metricArrays mode) 0)] ∧ t.ht = s.ht) ∧
    (ArgsLegal (.syncCount mode) s.snapshot →
      ∃ t, exec (.syncCount mode) s = .next t ∧ Wrote s t [] ∧ t.ht = s.ht ∧
        Completed s t (results (if mode = .ft8 then [1, 3, 1, 1, 1] else [1, 4, 1, 1, 1, 1])))

/-! ## The codec -/

/-- Every standard message packs as one and unpacks to its own words: DE, QRZ, CQ, CQ with a number or a suffix, or a
call first, a call second, each call standard, with a suffix that one type can carry, or hashed, and after them a grid,
a report, an acknowledgement or nothing. A hashed call comes back as its 22-bit lookup resolves it; a standard second
call is the one to learn (R244, R245, R246, R247, R250, R251, R253, R254, R258, R280). That RR73 after R is no grid is
the model's reading (log entry 26). -/
def Obligations.StandardMessageRoundTrip : Prop :=
  ∀ (l22 l12 : Nat → Option Callsign) (first first' : List (List Char)) (second second' : List Char) (s1 s2 : Suffix)
    (learn : Option Callsign) (rest : List (List Char)),
    FirstWords l22 first s1 first' → CallWord l22 second s2 second' learn → suffixesAgree s1 s2 = true →
    ExtraWords rest →
    (pack (first ++ second :: rest)).form = 1 ∧
      (pack (first ++ second :: rest)).i3 = (if s1 = .slashP ∨ s2 = .slashP then 2 else 1) ∧
      unpack l22 l12 (pack (first ++ second :: rest)).bits
        = some { text := unwords (first' ++ second' :: rest), learn := learn }

/-- A text of at most 13 characters of A42 that packs as free text unpacks to its own words (R243, R254, R257,
R280). -/
def Obligations.FreeTextRoundTrip : Prop :=
  ∀ (l22 l12 : Nat → Option Callsign) (t : List Char), words t ≠ [] → (unwords (words t)).length ≤ 13 →
    (∀ c ∈ unwords (words t), c ∈ A42) → (pack (words t)).form = 0 →
    unpack l22 l12 (pack (words t)).bits = some { text := unwords (words t), learn := none }

/-- A message of a nonstandard call and a hashed call, in either order, or of CQ and a nonstandard call, packs as type
4 and unpacks to its own words, with the hashed call as its lookup resolves it (R249, R250, R254, R259, R280). -/
def Obligations.HashedMessageRoundTrip : Prop :=
  ∀ (l22 l12 : Nat → Option Callsign) (h y : List Char) (rest : List (List Char)),
    validCallsign h = true → nonStd y = true → AckWords rest →
    ((pack ["CQ".toList, y]).form = 4 ∧ (pack ["CQ".toList, y]).i3 = 4 ∧
      unpack l22 l12 (pack ["CQ".toList, y]).bits = some { text := unwords ["CQ".toList, y], learn := none }) ∧
    ((pack (('<' :: h ++ ['>']) :: y :: rest)).form = 4 ∧ (pack (('<' :: h ++ ['>']) :: y :: rest)).i3 = 4 ∧
      unpack l22 l12 (pack (('<' :: h ++ ['>']) :: y :: rest)).bits
        = some { text := unwords (resolvedText (l12 (hash12 h)) :: y :: rest), learn := none }) ∧
    (y ≠ "QRZ".toList →
      (pack (y :: ('<' :: h ++ ['>']) :: rest)).form = 4 ∧ (pack (y :: ('<' :: h ++ ['>']) :: rest)).i3 = 4 ∧
      unpack l22 l12 (pack (y :: ('<' :: h ++ ['>']) :: rest)).bits
        = some { text := unwords (y :: resolvedText (l12 (hash12 h)) :: rest), learn := none })

/-! ## The hash-call table -/

/-- What a save does (R293, R294, R295): x is then found by its hashes, no other 10-bit or 12-bit entry changes, a
second save of x changes nothing, and of two new callsigns with one 22-bit hash the one inserted last is found,
even after a second save of the first. -/
def Obligations.SaveLaws : Prop :=
  ∀ (t : HashTable) (x : Callsign),
    (t.save x).lookup10 (hash10 x) = some x ∧ (t.save x).lookup12 (hash12 x) = some x ∧
    (∀ h, h ≠ hash10 x → (t.save x).lookup10 h = t.lookup10 h) ∧
    (∀ h, h ≠ hash12 x → (t.save x).lookup12 h = t.lookup12 h) ∧
    ((∀ p ∈ t.ht22, p.2 ≠ x) → (t.save x).lookup22 (hash22 x) = some x) ∧
    (t.save x).save x = t.save x ∧ (t.save x).saveChanges x = false ∧
    (t.saveChanges x = false ↔ t.save x = t) ∧
    ∀ y, x ≠ y → hash22 x = hash22 y → (∀ p ∈ t.ht22, p.2 ≠ x ∧ p.2 ≠ y) →
      ((t.save x).save y).lookup22 (hash22 y) = some y ∧
      (((t.save x).save y).save x).lookup22 (hash22 y) = some y

/-- Saves of distinct callsigns into an empty table leave in HT22 the last 1000 of them, newest first: exactly 1000
after more than 1000 (R292, R294, R295). -/
def Obligations.TableOverflow : Prop :=
  ∀ xs : List Callsign, xs.Nodup →
    ((xs.foldl HashTable.save HashTable.empty).ht22.map Prod.snd) = xs.reverse.take 1000 ∧
    (1000 < xs.length → (xs.foldl HashTable.save HashTable.empty).ht22.length = 1000)
end

