-- ==== Sys2Proof/Laws/Memory.lean ====
section
/-! SUPPORT. The data memory: what a read gives after a write, and the form every write keeps. -/

namespace Sys2Proof.Machine

theorem readByte_append (m m' : Memory) (a : Nat) :
    readByte (m ++ m') a = (readByte m a).or (readByte m' a) := by
  induction m with
  | nil => simp [readByte]
  | cons c m ih =>
    obtain ⟨b, v⟩ := c
    by_cases h : b = a <;> simp [readByte, h, ih]

theorem readByte_filter (m : Memory) (p : Nat → Bool) (a : Nat) :
    readByte (m.filter fun c => p c.1) a = if p a then readByte m a else none := by
  induction m with
  | nil => simp [readByte]
  | cons c m ih =>
    obtain ⟨b, v⟩ := c
    by_cases hp : p b = true
    · by_cases h : b = a
      · subst h; simp [List.filter, hp, readByte]
      · simp [List.filter, hp, readByte, h, ih]
    · by_cases h : b = a
      · subst h; simp only [List.filter, hp, ih]; simp
      · simp [List.filter, hp, readByte, h, ih]

theorem readByte_cellsAt (bs : List Byte) (a b : Nat) :
    readByte (cellsAt a bs) b = if a ≤ b then bs[b - a]? else none := by
  induction bs generalizing a with
  | nil => simp [cellsAt, readByte]
  | cons v bs ih =>
    simp only [cellsAt, readByte, ih]
    by_cases h : a = b
    · subst h; simp
    · by_cases h2 : a + 1 ≤ b
      · have h3 : a ≤ b := by omega
        have h4 : b - a = (b - (a + 1)) + 1 := by omega
        simp [h, h2, h3, h4]
      · have h3 : ¬ a ≤ b := by omega
        simp [h, h2, h3]

/-- A byte after a store: the stored one inside the span, the old one outside. -/
theorem readByte_writeSpan (m : Memory) (a : Nat) (bs : List Byte) (b : Nat) :
    readByte (writeSpan m a bs) b =
      if a ≤ b ∧ b < a + bs.length then bs[b - a]? else readByte m b := by
  unfold writeSpan
  rw [readByte_append, readByte_append, readByte_cellsAt, readByte_filter m (fun n => decide (n < a)),
    readByte_filter m (fun n => decide (a + bs.length ≤ n))]
  by_cases h1 : b < a
  · have : ¬ a ≤ b := by omega
    have h2 : ¬ a + bs.length ≤ b := by omega
    simp [h1, this, h2]
  · have h0 : a ≤ b := by omega
    by_cases h3 : b < a + bs.length
    · have h4 : b - a < bs.length := by omega
      simp [h1, h0, h3, h4]
    · have h4 : bs.length ≤ b - a := by omega
      have h5 : a + bs.length ≤ b := by omega
      simp [h1, h0, h3, h4, h5]

theorem readByte_writeSpan_outside {m : Memory} {a : Nat} {bs : List Byte} {b : Nat}
    (h : b < a ∨ a + bs.length ≤ b) : readByte (writeSpan m a bs) b = readByte m b := by
  rw [readByte_writeSpan, if_neg (by omega)]

theorem mem_cellsAt {bs : List Byte} {a : Nat} {c : Host.Cell} (h : c ∈ cellsAt a bs) :
    a ≤ c.1 ∧ c.1 < a + bs.length := by
  induction bs generalizing a with
  | nil => simp [cellsAt] at h
  | cons v bs ih =>
    simp only [cellsAt, List.mem_cons] at h
    rcases h with rfl | h
    · simp
    · have := ih h
      simp only [List.length_cons]; omega

theorem pairwise_cellsAt (bs : List Byte) (a : Nat) :
    (cellsAt a bs).Pairwise fun x y => x.1 < y.1 := by
  induction bs generalizing a with
  | nil => simp [cellsAt]
  | cons v bs ih =>
    simp only [cellsAt, List.pairwise_cons]
    refine ⟨fun c hc => ?_, ih _⟩
    have := mem_cellsAt hc
    show a < c.1
    omega

/-- A store keeps the memory's canonical form. -/
theorem wf_writeSpan {m : Memory} (h : m.wf = true) (a : Nat) (bs : List Byte) :
    (writeSpan m a bs).wf = true := by
  simp only [Memory.wf, decide_eq_true_eq] at h ⊢
  unfold writeSpan
  rw [List.pairwise_append, List.pairwise_append]
  refine ⟨⟨h.filter _, pairwise_cellsAt bs a, ?_⟩, h.filter _, ?_⟩
  · intro x hx y hy
    have hx' := (List.mem_filter.mp hx).2
    have hy' := mem_cellsAt hy
    simp only [decide_eq_true_eq] at hx'; omega
  · intro x hx y hy
    have hy' := (List.mem_filter.mp hy).2
    simp only [decide_eq_true_eq] at hy'
    rcases List.mem_append.mp hx with hx | hx
    · have hx' := (List.mem_filter.mp hx).2
      simp only [decide_eq_true_eq] at hx'; omega
    · have hx' := mem_cellsAt hx; omega

/-- A store inside the data memory keeps every byte inside it. -/
theorem inRange_writeSpan {m : Memory} (h : m.inRange = true) {a : Nat} {bs : List Byte}
    (hb : a + bs.length ≤ 8 * Config.dmemWords) : (writeSpan m a bs).inRange = true := by
  simp only [Memory.inRange, List.all_eq_true, decide_eq_true_eq] at h ⊢
  intro c hc
  unfold writeSpan at hc
  rw [List.mem_append, List.mem_append] at hc
  rcases hc with (hc | hc) | hc
  · exact h c (List.mem_filter.mp hc).1
  · have := mem_cellsAt hc; omega
  · exact h c (List.mem_filter.mp hc).1

/-! ## Words -/

@[simp] theorem length_leBytes (n v : Nat) : (leBytes n v).length = n := by
  induction n generalizing v with
  | zero => rfl
  | succ n ih => simp [leBytes, ih]

theorem leNat_leBytes (n v : Nat) : leNat (leBytes n v) = v % 256 ^ n := by
  induction n generalizing v with
  | zero => simp [leBytes, leNat, Nat.mod_one]
  | succ n ih =>
    simp only [leBytes, leNat, ih, BitVec.toNat_ofNat]
    rw [show 256 ^ (n + 1) = 256 * 256 ^ n by rw [Nat.pow_succ, Nat.mul_comm], Nat.mod_mul]

@[simp] theorem ofNat_leNat_leBytes (w : Word64) : BitVec.ofNat 64 (leNat (leBytes 8 w.toNat)) = w := by
  rw [leNat_leBytes]
  apply BitVec.eq_of_toNat_eq
  have : w.toNat < 2 ^ 64 := w.isLt
  simp only [BitVec.toNat_ofNat]
  norm_num at this ⊢
  omega

@[simp] theorem length_wordBytes (ws : List Word64) : (wordBytes ws).length = 8 * ws.length := by
  induction ws with
  | nil => rfl
  | cons w ws ih =>
    simp only [wordBytes, List.flatMap_cons, List.length_append, length_leBytes, List.length_cons] at ih ⊢
    omega

theorem wordBytes_getElem? (ws : List Word64) (k j : Nat) (hk : k < ws.length) (hj : j < 8) :
    (wordBytes ws)[8 * k + j]? = (leBytes 8 ws[k].toNat)[j]? := by
  induction ws generalizing k with
  | nil => simp at hk
  | cons w ws ih =>
    have hb : wordBytes (w :: ws) = leBytes 8 w.toNat ++ wordBytes ws := by simp [wordBytes]
    rw [hb]
    cases k with
    | zero => rw [List.getElem?_append_left (by simp; omega)]; simp
    | succ k =>
      rw [List.getElem?_append_right (by simp; omega)]
      have : 8 * (k + 1) + j - (leBytes 8 w.toNat).length = 8 * k + j := by simp; omega
      rw [this, ih k (by simpa using hk)]
      simp

theorem readBytes_congr {m m' : Memory} {n a : Nat} (h : ∀ j < n, readByte m' (a + j) = readByte m (a + j)) :
    readBytes m' a n = readBytes m a n := by
  induction n generalizing a with
  | zero => rfl
  | succ n ih =>
    have h0 := h 0 (by omega)
    have hs := ih (a := a + 1) fun j hj => by
      have := h (j + 1) (by omega)
      rwa [show a + 1 + j = a + (j + 1) by omega]
    simp only [Nat.add_zero] at h0
    simp only [readBytes, h0, hs]

theorem readBytes_eq {m : Memory} {bs : List Byte} {a : Nat} (h : ∀ j < bs.length, readByte m (a + j) = bs[j]?) :
    readBytes m a bs.length = some bs := by
  induction bs generalizing a with
  | nil => rfl
  | cons b bs ih =>
    have h0 := h 0 (by simp)
    have hs := ih (a := a + 1) fun j hj => by
      have := h (j + 1) (by simpa using hj)
      rw [show a + 1 + j = a + (j + 1) by omega, this]; simp
    simp only [Nat.add_zero, List.getElem?_cons_zero] at h0
    simp only [List.length_cons, readBytes, h0, hs]

theorem readWord_congr {m m' : Memory} {a : Nat} (h : ∀ j < 8, readByte m' (8 * a + j) = readByte m (8 * a + j)) :
    readWord m' a = readWord m a := by
  unfold readWord
  rw [readBytes_congr h]

/-- A word written is the word read. -/
theorem readWord_writeWords (m : Memory) (a : Nat) (ws : List Word64) (k : Nat) (hk : k < ws.length) :
    readWord (writeWords m a ws) (a + k) = some ws[k] := by
  have h : readBytes (writeWords m a ws) (8 * (a + k)) (leBytes 8 ws[k].toNat).length
      = some (leBytes 8 ws[k].toNat) := by
    apply readBytes_eq
    intro j hj
    rw [length_leBytes] at hj
    unfold writeWords
    rw [readByte_writeSpan, if_pos (by rw [length_wordBytes]; omega),
      show 8 * (a + k) + j - 8 * a = 8 * k + j by omega, wordBytes_getElem? ws k j hk hj]
  rw [length_leBytes] at h
  simp [readWord, h]

/-- A byte of a word outside the words written is unchanged. -/
theorem readByte_writeWords_outside {m : Memory} {a : Nat} {ws : List Word64} {b : Nat}
    (h : b / 8 < a ∨ a + ws.length ≤ b / 8) : readByte (writeWords m a ws) b = readByte m b := by
  unfold writeWords
  apply readByte_writeSpan_outside
  rw [length_wordBytes]; omega

theorem readWord_writeWords_outside {m : Memory} {a : Nat} {ws : List Word64} {c : Nat}
    (h : c < a ∨ a + ws.length ≤ c) : readWord (writeWords m a ws) c = readWord m c :=
  readWord_congr fun j hj => readByte_writeWords_outside (by omega)

theorem wf_writeWords {m : Memory} (h : m.wf = true) (a : Nat) (ws : List Word64) :
    (writeWords m a ws).wf = true := wf_writeSpan h _ _

theorem inRange_writeWords {m : Memory} (h : m.inRange = true) {a : Nat} {ws : List Word64}
    (hb : a + ws.length ≤ Config.dmemWords) : (writeWords m a ws).inRange = true :=
  inRange_writeSpan h (by rw [length_wordBytes]; omega)

theorem wf_writeRuns {m : Memory} (h : m.wf = true) (writes : List (Nat × List Word64)) :
    (writeRuns m writes).wf = true := by
  unfold writeRuns
  induction writes generalizing m with
  | nil => exact h
  | cons r rest ih => exact ih (wf_writeWords h _ _)

theorem inRange_writeRuns {m : Memory} (h : m.inRange = true) {writes : List (Nat × List Word64)}
    (hb : ∀ r ∈ writes, r.1 + r.2.length ≤ Config.dmemWords) : (writeRuns m writes).inRange = true := by
  unfold writeRuns
  induction writes generalizing m with
  | nil => exact h
  | cons r rest ih =>
    exact ih (inRange_writeWords h (hb r (by simp))) fun r' hr' => hb r' (by simp [hr'])

/-- A byte whose word lies in none of the runs written is unchanged. -/
theorem readByte_writeRuns_outside {m : Memory} {writes : List (Nat × List Word64)} {b : Nat}
    (h : ∀ r ∈ writes, b / 8 < r.1 ∨ r.1 + r.2.length ≤ b / 8) :
    readByte (writeRuns m writes) b = readByte m b := by
  unfold writeRuns
  induction writes generalizing m with
  | nil => rfl
  | cons r rest ih =>
    rw [List.foldl_cons, ih fun r' hr' => h r' (by simp [hr']), readByte_writeWords_outside (h r (by simp))]

/-! ## Reading an input array -/

theorem memRead_some {m : Memory} {a : Nat} {w : Word64} (h : readWord m a = some w) : memRead m a = .ok w := by
  simp [memRead, h]

theorem memRead_none {m : Memory} {a : Nat} (h : readWord m a = none) :
    memRead m a = .error (.fault .uninitRead) := by simp [memRead, h]

theorem HoldsWords.tail {m : Memory} {a : Nat} {w : Word64} {ws : List Word64} (h : HoldsWords m a (w :: ws)) :
    HoldsWords m (a + 1) ws := by
  intro k hk
  have := h (k + 1) (by simpa using hk)
  rw [show a + 1 + k = a + (k + 1) by omega]
  simpa using this

theorem HoldsWords.head {m : Memory} {a : Nat} {w : Word64} {ws : List Word64} (h : HoldsWords m a (w :: ws)) :
    readWord m a = some w := h 0 (by simp)

theorem bind_ok_iff {α β : Type} {x : Check α} {f : α → Check β} {b : β} :
    (x >>= f) = .ok b ↔ ∃ a, x = .ok a ∧ f a = .ok b := by
  cases x with
  | error e => simp [bind, Except.bind]
  | ok a => simp [bind, Except.bind]

@[simp] theorem ok_bind {α β : Type} (a : α) (f : α → Check β) : ((.ok a : Check α) >>= f) = f a := rfl

@[simp] theorem error_bind {α β : Type} (e : Stop) (f : α → Check β) :
    ((.error e : Check α) >>= f) = .error e := rfl

/-- Words that all have a value, each accepted by `f`, are read. -/
theorem readAll_map {α : Type} {f : Word64 → Check α} {g : α → Word64} {m : Memory} {a : Nat} {xs : List α}
    (hf : ∀ x ∈ xs, f (g x) = .ok x) (h : HoldsWords m a (xs.map g)) :
    readAll f m a xs.length = .ok xs := by
  induction xs generalizing a with
  | nil => rfl
  | cons x xs ih =>
    rw [List.map_cons] at h
    rw [List.length_cons, readAll, memRead_some h.head, ok_bind, hf x (by simp), ok_bind,
      ih (fun y hy => hf y (by simp [hy])) h.tail, ok_bind]

theorem readFs_ok {m : Memory} {a n : Nat} {xs : List F64} (hn : xs.length = n) (h : HoldsWords m a xs) :
    readFs m a n = .ok xs := by
  subst hn
  exact readAll_map (g := id) (fun _ _ => rfl) (by simpa using h)

@[simp] theorem asBit_bitWord (b : Bool) : asBit (bitWord b) = .ok b := by cases b <;> rfl

theorem readBits_ok {m : Memory} {a n : Nat} {bs : List Bool} (hn : bs.length = n)
    (h : HoldsWords m a (bs.map bitWord)) : readBits m a n = .ok bs := by
  subst hn
  exact readAll_map (fun b _ => asBit_bitWord b) h

theorem asChar_charWord {c : Char} (h : c.toNat < 128) : asChar (charWord c) = .ok c := by
  have hc : (charWord c).toNat = c.toNat := by
    simp only [charWord, BitVec.toNat_ofNat]; omega
  simp [asChar, hc, h, Char.ofNat_toNat]

theorem readChars_ok {m : Memory} {a n : Nat} {t : List Char} (hn : t.length = n) (ht : ∀ c ∈ t, c.toNat < 128)
    (h : HoldsWords m a (t.map charWord)) : readChars m a n = .ok t := by
  subst hn
  exact readAll_map (fun c hc => asChar_charWord (ht c hc)) h

/-- What a read array is: as many values as words. -/
theorem readAll_length {α : Type} {f : Word64 → Check α} {m : Memory} {a n : Nat} {xs : List α}
    (h : readAll f m a n = .ok xs) : xs.length = n := by
  induction n generalizing a xs with
  | zero => simp only [readAll, Except.ok.injEq] at h; simp [← h]
  | succ n ih =>
    simp only [readAll, bind_ok_iff] at h
    obtain ⟨w, -, x, -, ys, hys, h⟩ := h
    simp only [Except.ok.injEq] at h
    rw [← h, List.length_cons, ih hys]

end Sys2Proof.Machine
end

