-- ==== Sys2Proof/Laws/State.lean ====
section
/-! SUPPORT. One lemma for each field under each update of the state. -/

namespace Sys2Proof.Machine

/-! ## startCommand -/

@[simp] theorem State.startCommand_ie (w : Word32) (s : State) :
    (s.startCommand w).ie = s.ie := rfl

@[simp] theorem State.startCommand_status (w : Word32) (s : State) :
    (s.startCommand w).status = { s.status with lastOp := w.extractLsb' 0 8 } := rfl

@[simp] theorem State.startCommand_cmd (w : Word32) (s : State) :
    (s.startCommand w).cmd = w := rfl

@[simp] theorem State.startCommand_args (w : Word32) (s : State) :
    (s.startCommand w).args = s.args := rfl

@[simp] theorem State.startCommand_res (w : Word32) (s : State) :
    (s.startCommand w).res = s.res := rfl

@[simp] theorem State.startCommand_phase (w : Word32) (s : State) :
    (s.startCommand w).phase = .busy w s.args := rfl

@[simp] theorem State.startCommand_dmem (w : Word32) (s : State) :
    (s.startCommand w).dmem = s.dmem := rfl

@[simp] theorem State.startCommand_ht (w : Word32) (s : State) :
    (s.startCommand w).ht = s.ht := rfl

@[simp] theorem State.startCommand_bus (w : Word32) (s : State) :
    (s.startCommand w).bus = s.bus := rfl

@[simp] theorem State.startCommand_response (w : Word32) (s : State) :
    (s.startCommand w).response = s.response := rfl

@[simp] theorem State.startCommand_draws (w : Word32) (s : State) :
    (s.startCommand w).draws = s.draws := rfl

/-! ## complete -/

@[simp] theorem State.complete_ie (r : Regs8) (s : State) :
    (s.complete r).ie = s.ie := rfl

@[simp] theorem State.complete_status (r : Regs8) (s : State) :
    (s.complete r).status = { s.status with errCode := .none, ok := r[0].getLsbD 0, done := true } := rfl

@[simp] theorem State.complete_cmd (r : Regs8) (s : State) :
    (s.complete r).cmd = s.cmd := rfl

@[simp] theorem State.complete_args (r : Regs8) (s : State) :
    (s.complete r).args = s.args := rfl

@[simp] theorem State.complete_res (r : Regs8) (s : State) :
    (s.complete r).res = r := rfl

@[simp] theorem State.complete_phase (r : Regs8) (s : State) :
    (s.complete r).phase = .idle := rfl

@[simp] theorem State.complete_dmem (r : Regs8) (s : State) :
    (s.complete r).dmem = s.dmem := rfl

@[simp] theorem State.complete_ht (r : Regs8) (s : State) :
    (s.complete r).ht = s.ht := rfl

@[simp] theorem State.complete_bus (r : Regs8) (s : State) :
    (s.complete r).bus = s.bus := rfl

@[simp] theorem State.complete_response (r : Regs8) (s : State) :
    (s.complete r).response = s.response := rfl

@[simp] theorem State.complete_draws (r : Regs8) (s : State) :
    (s.complete r).draws = s.draws := rfl

/-! ## raiseError -/

@[simp] theorem State.raiseError_ie (e : ErrCode) (s : State) :
    (s.raiseError e).ie = s.ie := rfl

@[simp] theorem State.raiseError_status (e : ErrCode) (s : State) :
    (s.raiseError e).status = { s.status with errCode := e, ok := false, err := true, done := true } := rfl

@[simp] theorem State.raiseError_cmd (e : ErrCode) (s : State) :
    (s.raiseError e).cmd = s.cmd := rfl

@[simp] theorem State.raiseError_args (e : ErrCode) (s : State) :
    (s.raiseError e).args = s.args := rfl

@[simp] theorem State.raiseError_res (e : ErrCode) (s : State) :
    (s.raiseError e).res = Regs8.zero := rfl

@[simp] theorem State.raiseError_phase (e : ErrCode) (s : State) :
    (s.raiseError e).phase = .idle := rfl

@[simp] theorem State.raiseError_dmem (e : ErrCode) (s : State) :
    (s.raiseError e).dmem = s.dmem := rfl

@[simp] theorem State.raiseError_ht (e : ErrCode) (s : State) :
    (s.raiseError e).ht = s.ht := rfl

@[simp] theorem State.raiseError_bus (e : ErrCode) (s : State) :
    (s.raiseError e).bus = s.bus := rfl

@[simp] theorem State.raiseError_response (e : ErrCode) (s : State) :
    (s.raiseError e).response = s.response := rfl

@[simp] theorem State.raiseError_draws (e : ErrCode) (s : State) :
    (s.raiseError e).draws = s.draws := rfl

/-! ## acknowledge -/

@[simp] theorem State.acknowledge_ie (s : State) :
    (s.acknowledge).ie = s.ie := rfl

@[simp] theorem State.acknowledge_status (s : State) :
    (s.acknowledge).status = { s.status with done := false, err := false } := rfl

@[simp] theorem State.acknowledge_cmd (s : State) :
    (s.acknowledge).cmd = s.cmd := rfl

@[simp] theorem State.acknowledge_args (s : State) :
    (s.acknowledge).args = s.args := rfl

@[simp] theorem State.acknowledge_res (s : State) :
    (s.acknowledge).res = s.res := rfl

@[simp] theorem State.acknowledge_phase (s : State) :
    (s.acknowledge).phase = s.phase := rfl

@[simp] theorem State.acknowledge_dmem (s : State) :
    (s.acknowledge).dmem = s.dmem := rfl

@[simp] theorem State.acknowledge_ht (s : State) :
    (s.acknowledge).ht = s.ht := rfl

@[simp] theorem State.acknowledge_bus (s : State) :
    (s.acknowledge).bus = s.bus := rfl

@[simp] theorem State.acknowledge_response (s : State) :
    (s.acknowledge).response = s.response := rfl

@[simp] theorem State.acknowledge_draws (s : State) :
    (s.acknowledge).draws = s.draws := rfl

/-! ## commit -/

@[simp] theorem State.commit_ie (eff : Effect) (s : State) :
    (s.commit eff).ie = s.ie := rfl

@[simp] theorem State.commit_status (eff : Effect) (s : State) :
    (s.commit eff).status = { s.status with errCode := .none, ok := eff.res[0].getLsbD 0, done := true } := rfl

@[simp] theorem State.commit_cmd (eff : Effect) (s : State) :
    (s.commit eff).cmd = s.cmd := rfl

@[simp] theorem State.commit_args (eff : Effect) (s : State) :
    (s.commit eff).args = s.args := rfl

@[simp] theorem State.commit_res (eff : Effect) (s : State) :
    (s.commit eff).res = eff.res := rfl

@[simp] theorem State.commit_phase (eff : Effect) (s : State) :
    (s.commit eff).phase = .idle := rfl

@[simp] theorem State.commit_dmem (eff : Effect) (s : State) :
    (s.commit eff).dmem = writeRuns s.dmem eff.writes := rfl

@[simp] theorem State.commit_ht (eff : Effect) (s : State) :
    (s.commit eff).ht = eff.ht := rfl

@[simp] theorem State.commit_bus (eff : Effect) (s : State) :
    (s.commit eff).bus = s.bus := rfl

@[simp] theorem State.commit_response (eff : Effect) (s : State) :
    (s.commit eff).response = s.response := rfl

@[simp] theorem State.commit_draws (eff : Effect) (s : State) :
    (s.commit eff).draws = s.draws := rfl

/-! ## writeStatus -/

@[simp] theorem State.writeStatus_ie (v : Word32) (s : State) :
    (s.writeStatus v).ie = s.ie := rfl

@[simp] theorem State.writeStatus_status (v : Word32) (s : State) :
    (s.writeStatus v).status = { s.status with done := s.status.done && !v.getLsbD 1, err := s.status.err && !v.getLsbD 2, ovr := s.status.ovr && !v.getLsbD 4 } := rfl

@[simp] theorem State.writeStatus_cmd (v : Word32) (s : State) :
    (s.writeStatus v).cmd = s.cmd := rfl

@[simp] theorem State.writeStatus_args (v : Word32) (s : State) :
    (s.writeStatus v).args = s.args := rfl

@[simp] theorem State.writeStatus_res (v : Word32) (s : State) :
    (s.writeStatus v).res = s.res := rfl

@[simp] theorem State.writeStatus_phase (v : Word32) (s : State) :
    (s.writeStatus v).phase = s.phase := rfl

@[simp] theorem State.writeStatus_dmem (v : Word32) (s : State) :
    (s.writeStatus v).dmem = s.dmem := rfl

@[simp] theorem State.writeStatus_ht (v : Word32) (s : State) :
    (s.writeStatus v).ht = s.ht := rfl

@[simp] theorem State.writeStatus_bus (v : Word32) (s : State) :
    (s.writeStatus v).bus = s.bus := rfl

@[simp] theorem State.writeStatus_response (v : Word32) (s : State) :
    (s.writeStatus v).response = s.response := rfl

@[simp] theorem State.writeStatus_draws (v : Word32) (s : State) :
    (s.writeStatus v).draws = s.draws := rfl

/-! ## softReset -/

@[simp] theorem State.softReset_ie (s : State) :
    (s.softReset).ie = false := rfl

@[simp] theorem State.softReset_status (s : State) :
    (s.softReset).status = Status.reset := rfl

@[simp] theorem State.softReset_cmd (s : State) :
    (s.softReset).cmd = 0 := rfl

@[simp] theorem State.softReset_args (s : State) :
    (s.softReset).args = Regs8.zero := rfl

@[simp] theorem State.softReset_res (s : State) :
    (s.softReset).res = Regs8.zero := rfl

@[simp] theorem State.softReset_phase (s : State) :
    (s.softReset).phase = .idle := rfl

@[simp] theorem State.softReset_dmem (s : State) :
    (s.softReset).dmem = abandonWords s.draws s.dmem s.abandonedWords := rfl

@[simp] theorem State.softReset_ht (s : State) :
    (s.softReset).ht = HashTable.empty := rfl

@[simp] theorem State.softReset_bus (s : State) :
    (s.softReset).bus = s.bus := rfl

@[simp] theorem State.softReset_response (s : State) :
    (s.softReset).response = s.response := rfl

@[simp] theorem State.softReset_draws (s : State) :
    (s.softReset).draws = s.draws + s.abandonedWords.length := rfl

/-! ## writeArg -/

@[simp] theorem State.writeArg_ie (i : Nat) (v : Word32) (s : State) :
    (s.writeArg i v).ie = s.ie := rfl

@[simp] theorem State.writeArg_status (i : Nat) (v : Word32) (s : State) :
    (s.writeArg i v).status = s.status := rfl

@[simp] theorem State.writeArg_cmd (i : Nat) (v : Word32) (s : State) :
    (s.writeArg i v).cmd = s.cmd := rfl

@[simp] theorem State.writeArg_args (i : Nat) (v : Word32) (s : State) :
    (s.writeArg i v).args = s.args.setIfInBounds i v := rfl

@[simp] theorem State.writeArg_res (i : Nat) (v : Word32) (s : State) :
    (s.writeArg i v).res = s.res := rfl

@[simp] theorem State.writeArg_phase (i : Nat) (v : Word32) (s : State) :
    (s.writeArg i v).phase = s.phase := rfl

@[simp] theorem State.writeArg_dmem (i : Nat) (v : Word32) (s : State) :
    (s.writeArg i v).dmem = s.dmem := rfl

@[simp] theorem State.writeArg_ht (i : Nat) (v : Word32) (s : State) :
    (s.writeArg i v).ht = s.ht := rfl

@[simp] theorem State.writeArg_bus (i : Nat) (v : Word32) (s : State) :
    (s.writeArg i v).bus = s.bus := rfl

@[simp] theorem State.writeArg_response (i : Nat) (v : Word32) (s : State) :
    (s.writeArg i v).response = s.response := rfl

@[simp] theorem State.writeArg_draws (i : Nat) (v : Word32) (s : State) :
    (s.writeArg i v).draws = s.draws := rfl

/-! ## readWindow -/

@[simp] theorem State.readWindow_ie (off bytes : Nat) (s : State) :
    (s.readWindow off bytes).ie = s.ie := rfl

@[simp] theorem State.readWindow_status (off bytes : Nat) (s : State) :
    (s.readWindow off bytes).status = s.status := rfl

@[simp] theorem State.readWindow_cmd (off bytes : Nat) (s : State) :
    (s.readWindow off bytes).cmd = s.cmd := rfl

@[simp] theorem State.readWindow_args (off bytes : Nat) (s : State) :
    (s.readWindow off bytes).args = s.args := rfl

@[simp] theorem State.readWindow_res (off bytes : Nat) (s : State) :
    (s.readWindow off bytes).res = s.res := rfl

@[simp] theorem State.readWindow_phase (off bytes : Nat) (s : State) :
    (s.readWindow off bytes).phase = s.phase := rfl

@[simp] theorem State.readWindow_dmem (off bytes : Nat) (s : State) :
    (s.readWindow off bytes).dmem = s.dmem := rfl

@[simp] theorem State.readWindow_ht (off bytes : Nat) (s : State) :
    (s.readWindow off bytes).ht = s.ht := rfl

@[simp] theorem State.readWindow_bus (off bytes : Nat) (s : State) :
    (s.readWindow off bytes).bus = s.bus := rfl

@[simp] theorem State.readWindow_response (off bytes : Nat) (s : State) :
    (s.readWindow off bytes).response = windowData (s.hostWord (off / 8)) off bytes := rfl

@[simp] theorem State.readWindow_draws (off bytes : Nat) (s : State) :
    (s.readWindow off bytes).draws = if s.drawsOn (off / 8) then s.draws + 1 else s.draws := rfl

/-! ## reset -/

@[simp] theorem State.reset_ie : State.reset.ie = false := rfl

@[simp] theorem State.reset_status : State.reset.status = Status.reset := rfl

@[simp] theorem State.reset_cmd : State.reset.cmd = 0 := rfl

@[simp] theorem State.reset_args : State.reset.args = Regs8.zero := rfl

@[simp] theorem State.reset_res : State.reset.res = Regs8.zero := rfl

@[simp] theorem State.reset_phase : State.reset.phase = .idle := rfl

@[simp] theorem State.reset_dmem : State.reset.dmem = [] := rfl

@[simp] theorem State.reset_ht : State.reset.ht = HashTable.empty := rfl

@[simp] theorem State.reset_bus : State.reset.bus = [] := rfl

@[simp] theorem State.reset_response : State.reset.response = .none := rfl

@[simp] theorem State.reset_draws : State.reset.draws = 0 := rfl

end Sys2Proof.Machine
end

