-- ==== Sys2Proof/Laws/Bus.lean ====
section
/-! SUPPORT. What one host access does to the machine: the address it selects, and the step it makes. -/

namespace Sys2Proof.Machine

theorem base_mod : Config.base % 8 = 0 := by simp [Config.base]

theorem targetOf_register {off : Nat} (h : off < 0x100000) : targetOf (Config.base + off) = .register off := by
  unfold targetOf targetOfOffset
  rw [if_neg (by omega), Nat.add_sub_cancel_left, if_pos h]

theorem targetOf_window {off : Nat} (h : off < 0x400000) :
    targetOf (Config.base + 0x100000 + off) = .window off := by
  have h1 : ¬ Config.base + 0x100000 + off < Config.base := by omega
  have h2 : Config.base + 0x100000 + off - Config.base = 0x100000 + off := by omega
  have h3 : ¬ 0x100000 + off < 0x100000 := by omega
  have h4 : 0x100000 + off < 0x100000 + 8 * Config.dmemWords := by rw [Config.dmemWords]; omega
  unfold targetOf targetOfOffset
  rw [if_neg h1, h2, if_neg h3, if_pos h4, Nat.add_sub_cancel_left]

theorem registerAccess_ok {off : Nat} (h : off % 4 = 0) : registerAccess off 4 = true := by
  simp [registerAccess, h]

theorem setWidth_setWidth_32 (v : Word32) : (v.setWidth 64).setWidth 32 = v := by simp

/-- A step that writes a register. -/
theorem step_writeRegister {s : State} {off : Nat} {v : Word32} {rest : List BusEvent} (ho : off < 0x100000)
    (ha : off % 4 = 0) (hb : s.bus = st32 (Config.base + off) v :: rest) :
    step s = .next { State.writeRegister off v { s with bus := rest } with response := .written } := by
  have h : step s = busWrite (Config.base + off) 4 (v.setWidth 64) { s with bus := rest } := by
    rw [step, hb]; rfl
  rw [h, busWrite, targetOf_register ho, writeTarget, registerAccess_ok ha, if_pos rfl, setWidth_setWidth_32]

/-- A step that reads a register changes only the answer. -/
theorem step_readRegister {s : State} {off : Nat} {rest : List BusEvent} (ho : off < 0x100000) (ha : off % 4 = 0)
    (hb : s.bus = ld32 (Config.base + off) :: rest) :
    step s = .next { s with bus := rest, response := .data32 (s.readRegister off) } := by
  have h : step s = busRead (Config.base + off) 4 { s with bus := rest } := by
    rw [step, hb]; rfl
  rw [h, busRead, targetOf_register ho, readTarget, registerAccess_ok ha, if_pos rfl]
  rfl

/-- A step that writes the window. -/
theorem step_writeWindow {s : State} {off bytes : Nat} {v : Word64} {rest : List BusEvent} (ho : off < 0x400000)
    (hw : windowAccess off bytes = true) (hb : s.bus = .write (Config.base + 0x100000 + off) bytes v :: rest) :
    step s = State.writeWindow off bytes v { s with bus := rest } := by
  have h : step s = busWrite (Config.base + 0x100000 + off) bytes v { s with bus := rest } := by
    rw [step, hb]; rfl
  rw [h, busWrite, targetOf_window ho, writeTarget, hw, if_pos rfl]

/-- A step that reads the window. -/
theorem step_readWindow {s : State} {off bytes : Nat} {rest : List BusEvent} (ho : off < 0x400000)
    (hw : windowAccess off bytes = true) (hb : s.bus = .read (Config.base + 0x100000 + off) bytes :: rest) :
    step s = .next (State.readWindow off bytes { s with bus := rest }) := by
  have h : step s = busRead (Config.base + 0x100000 + off) bytes { s with bus := rest } := by
    rw [step, hb]; rfl
  rw [h, busRead, targetOf_window ho, readTarget, hw, if_pos rfl]

/-- A window write outside the running command's footprint. -/
theorem writeWindow_free {s : State} {off bytes : Nat} {v : Word64}
    (h : ∀ r ∈ s.footprint, r.mem (off / 8) = false) :
    s.writeWindow off bytes v
      = .next { s with dmem := writeSpan s.dmem off (leBytes bytes v.toNat), response := .written } := by
  have hf : (s.footprint.any fun r => r.mem (off / 8)) = false := by
    rw [List.any_eq_false]; intro r hr; rw [h r hr]; decide
  rw [State.writeWindow, hf]; rfl

/-- A window write into it is a race. -/
theorem writeWindow_race {s : State} {off bytes : Nat} {v : Word64}
    (h : ∃ r ∈ s.footprint, r.mem (off / 8) = true) : s.writeWindow off bytes v = .fault .hostRace := by
  have hf : (s.footprint.any fun r => r.mem (off / 8)) = true := List.any_eq_true.mpr h
  rw [State.writeWindow, hf]; rfl

/-- The host sees the value of a word that has one and does not race. -/
theorem hostWord_value {s : State} {a : Nat} {w : Word64} (hr : ∀ r ∈ s.runningOutputs, r.mem a = false)
    (hw : readWord s.dmem a = some w) : s.hostWord a = w ∧ s.drawsOn a = false := by
  have hraced : s.raced a = false := by
    rw [State.raced, List.any_eq_false]; intro r h; rw [hr r h]; decide
  constructor
  · rw [State.hostWord, hraced, if_neg Bool.false_ne_true]
    generalize Config.freeWord s.draws = free
    simp only [readWord, readBytes] at hw
    cases h0 : readByte s.dmem (8 * a) <;> simp only [h0, Option.map_none, reduceCtorEq] at hw
    cases h1 : readByte s.dmem (8 * a + 1) <;> simp only [h1, Option.map_none, reduceCtorEq] at hw
    cases h2 : readByte s.dmem (8 * a + 1 + 1) <;> simp only [h2, Option.map_none, reduceCtorEq] at hw
    cases h3 : readByte s.dmem (8 * a + 1 + 1 + 1) <;> simp only [h3, Option.map_none, reduceCtorEq] at hw
    cases h4 : readByte s.dmem (8 * a + 1 + 1 + 1 + 1) <;> simp only [h4, Option.map_none, reduceCtorEq] at hw
    cases h5 : readByte s.dmem (8 * a + 1 + 1 + 1 + 1 + 1) <;> simp only [h5, Option.map_none, reduceCtorEq] at hw
    cases h6 : readByte s.dmem (8 * a + 1 + 1 + 1 + 1 + 1 + 1) <;>
      simp only [h6, Option.map_none, reduceCtorEq] at hw
    cases h7 : readByte s.dmem (8 * a + 1 + 1 + 1 + 1 + 1 + 1 + 1) <;>
      simp only [h7, Option.map_none, reduceCtorEq, Option.map_some, Option.some.injEq] at hw
    rw [← hw]
    simp only [Nat.add_assoc, Nat.reduceAdd] at h1 h2 h3 h4 h5 h6 h7
    simp only [fillBytes, leBytes, List.mapIdx_cons, List.mapIdx_nil, Nat.add_zero, Nat.zero_add, Nat.reduceAdd,
      h0, h1, h2, h3, h4, h5, h6, h7, Option.getD_some]
  · rw [State.drawsOn, hraced, hw]; rfl

end Sys2Proof.Machine
end

