-- ==== Sys2Proof/Laws/Lengths.lean ====
section
/-! SUPPORT. How many words each command writes. -/

namespace Sys2Proof.Machine

/-! ## The transforms -/

theorem length_bitRevPermute (p : Nat) (x : List Cplx) : (bitRevPermute p x).length = 2 ^ p := by
  simp [bitRevPermute]

theorem length_r2Stage (T : Config.Trig) (inv : Bool) (L half : Nat) (x : List Cplx) :
    (r2Stage T inv L half x).length = L := by simp [r2Stage]

theorem length_r2 (T : Config.Trig) (inv : Bool) (p : Nat) (x : List Cplx) : (r2 T inv p x).length = 2 ^ p := by
  unfold r2
  generalize List.range p = qs
  have h : ∀ (qs : List Nat) (y : List Cplx), y.length = 2 ^ p →
      (qs.foldl (fun y q => r2Stage T inv (2 ^ p) (2 ^ q) y) y).length = 2 ^ p := by
    intro qs
    induction qs with
    | nil => exact fun y hy => hy
    | cons q qs ih => exact fun y _ => ih _ (length_r2Stage ..)
  exact h qs _ (length_bitRevPermute p x)

theorem length_transform (T : Config.Trig) (inv : Bool) (N : Nat) (x : List Cplx) :
    (transform T inv N x).length = N := by
  unfold transform
  split
  · rename_i h
    rw [length_r2]
    simp only [isPow2, beq_iff_eq] at h
    exact h.symm
  · simp [chirpTransform]

theorem length_forwardTransform (T : Config.Trig) (N : Nat) (x : List Cplx) :
    (forwardTransform T N x).length = N := length_transform ..

theorem length_inverseTransform (T : Config.Trig) (N : Nat) (x : List Cplx) :
    (inverseTransform T N x).length = N := by simp [inverseTransform, length_transform]

/-! ## Bits -/

@[simp] theorem length_natBits (n v : Nat) : (natBits n v).length = n := by
  induction n generalizing v with
  | zero => rfl
  | succ n ih => simp [natBits, ih]

theorem length_codeword (C : Config.LdpcTables) (u : List Bool) : (codeword C u).length = u.length + 83 := by
  simp [codeword]

theorem length_beliefs (llr : List F64) (ap : List Bool) (tov : List (List F64)) :
    (beliefs llr ap tov).length = 174 := by simp [beliefs]

theorem length_bpLoop {T : Config.Trig} {C : Config.LdpcTables} {llr : List F64} {ap : List Bool}
    {fuel iter ncnt nclast : Nat} {tov : List (List F64)} {cw : List Bool}
    (h : (bpLoop T C llr ap fuel iter ncnt nclast tov).cw = some cw) : cw.length = 174 := by
  induction fuel generalizing iter ncnt nclast tov with
  | zero => simp [bpLoop] at h
  | succ fuel ih =>
    simp only [bpLoop] at h
    split at h
    · simp only [Option.some.injEq] at h
      rw [← h, List.length_map, length_beliefs]
    · split at h
      · simp at h
      · exact ih h

theorem length_orderedStatistics {C : Config.LdpcTables} {llr : List F64} {ap : List Bool} {d : Int}
    {cw : List Bool} (h : (orderedStatistics C llr ap d).cw = some cw) : cw.length = 174 := by
  unfold orderedStatistics at h
  dsimp only at h
  generalize eliminate _ = x at h
  cases x with
  | none => exact absurd h (by simp only [reduceCtorEq, not_false_eq_true])
  | some e =>
    dsimp only at h
    generalize hu : unpermute e.perm _ = w at h
    have hw : w.length = 174 := by rw [← hu, unpermute, List.length_map, List.length_range]
    cases hc : crcOk w <;> rw [hc] at h
    · exact absurd h (by simp only [Bool.false_eq_true, if_false, reduceCtorEq, not_false_eq_true])
    · simp only [if_true, Option.some.injEq] at h
      rw [← h, hw]

theorem length_decodeMetrics {T : Config.Trig} {C : Config.LdpcTables} {llr : List F64} {ap : List Bool} {d : Int}
    {cw : List Bool} (h : (decodeMetrics T C llr ap d).cw = some cw) : cw.length = 174 := by
  unfold decodeMetrics at h
  dsimp only at h
  generalize hb : beliefPropagation T C llr ap = bp at h
  generalize ho : orderedStatistics C llr ap d = o at h
  cases hc : bp.cw with
  | some c =>
    simp only [hc, Option.some.injEq] at h
    rw [← hb, beliefPropagation] at hc
    rw [← h]; exact length_bpLoop hc
  | none =>
    simp only [hc] at h
    split at h
    · have h' : o.cw = some cw := h
      rw [← ho] at h'
      exact length_orderedStatistics h'
    · simp only [reduceCtorEq] at h

theorem length_standardBits (a b : Call) (r1 : Bool) (g i3 : Nat) : (standardBits a b r1 g i3).length = 77 := by
  simp only [standardBits, List.length_append, length_natBits, List.length_cons, List.length_nil]

theorem length_hashedBits (h12 : Nat) (call : List Char) (h1 : Bool) (r2 : Nat) (c1 : Bool) :
    (hashedBits h12 call h1 r2 c1).length = 77 := by
  simp only [hashedBits, List.length_append, length_natBits, List.length_cons, List.length_nil]

theorem length_packFree (t : List Char) : (packFree t).bits.length = 77 := by
  simp only [packFree, List.length_append, length_natBits]

theorem length_packTwoCalls {x y : List Char} {rest : List (List Char)} {bits : List Bool}
    (h : packTwoCalls x y rest = some bits) : bits.length = 77 := by
  simp only [packTwoCalls] at h
  split at h
  · simp at h
  · split at h
    · split at h
      · simp only [Option.some.injEq] at h; rw [← h, length_hashedBits]
      · simp at h
    · split at h
      · simp only [Option.some.injEq] at h; rw [← h, length_hashedBits]
      · simp at h
    · simp at h

theorem length_packHashed {w : List (List Char)} {p : Packed} (h : packHashed w = some p) : p.bits.length = 77 := by
  unfold packHashed at h
  split at h
  · simp only [Option.map_eq_some_iff] at h
    obtain ⟨bits, hb, rfl⟩ := h
    split at hb
    · simp only [Option.some.injEq] at hb; rw [← hb]; exact length_hashedBits ..
    · exact length_packTwoCalls hb
  · simp at h

theorem packStandard_bits {w : List (List Char)} {p : Packed} (h : packStandard w = some p) :
    ∃ a b r1 g, p = { bits := standardBits a b r1 g p.i3, i3 := p.i3, n3 := 0, form := 1 }
      ∧ (p.i3 = 1 ∨ p.i3 = 2) := by
  simp only [packStandard, bind, Option.bind_eq_some_iff] at h
  obtain ⟨⟨a, k⟩, -, x, -, b, -, ⟨r1, g⟩, -, h⟩ := h
  dsimp only at h
  split at h
  · simp only [Option.some.injEq] at h
    subst h
    refine ⟨a, b, r1, g, rfl, ?_⟩
    dsimp only
    split
    · exact .inr rfl
    · exact .inl rfl
  · simp at h

theorem length_pack (w : List (List Char)) : (pack w).bits.length = 77 := by
  unfold pack
  split
  · rename_i p h
    obtain ⟨a, b, r1, g, hp, -⟩ := packStandard_bits h
    rw [hp]; exact length_standardBits ..
  · split
    · rename_i p h; exact length_packHashed h
    · exact length_packFree _

/-! ## Tones and metrics -/

theorem length_interleave (zs : List Cplx) : (interleave zs).length = 2 * zs.length := by
  induction zs with
  | nil => rfl
  | cons z zs ih =>
    simp only [interleave, List.flatMap_cons, List.length_append, List.length_cons, List.length_nil] at ih ⊢
    omega

theorem length_symbolTones {T : Config.Trig} {m : Memory} {re im Ls L : Nat} {t0 : Int} {tn s n : Nat}
    {zs : List Cplx} (h : symbolTones T m re im Ls L t0 tn s n = .ok zs) : zs.length ≤ tn * n := by
  induction n generalizing s zs with
  | zero => simp only [symbolTones, Except.ok.injEq] at h; simp [← h]
  | succ n ih =>
    simp only [symbolTones, bind_ok_iff] at h
    obtain ⟨u, -, rest, hr, h⟩ := h
    simp only [Except.ok.injEq] at h
    have := ih hr
    rw [← h, List.length_append, List.length_take, Nat.mul_succ]
    omega

theorem length_readSymbols {m : Memory} {base T s n : Nat} {zs : List (List Cplx)}
    (h : readSymbols m base T s n = .ok zs) : zs.length = n := by
  induction n generalizing s zs with
  | zero => simp only [readSymbols, Except.ok.injEq] at h; simp [← h]
  | succ n ih =>
    simp only [readSymbols, bind_ok_iff] at h
    obtain ⟨u, -, rest, hr, h⟩ := h
    simp only [Except.ok.injEq] at h
    rw [← h, List.length_cons, ih hr]

theorem length_readBlocks {m : Memory} {base T : Nat} {firsts : List Nat} {bs : List (List (List Cplx))}
    (h : readBlocks m base T firsts = .ok bs) : bs.length = firsts.length ∧ ∀ b ∈ bs, b.length = 29 := by
  induction firsts generalizing bs with
  | nil => simp only [readBlocks, Except.ok.injEq] at h; simp [← h]
  | cons f fs ih =>
    simp only [readBlocks, bind_ok_iff] at h
    obtain ⟨b, hb, rest, hr, h⟩ := h
    simp only [Except.ok.injEq] at h
    obtain ⟨h1, h2⟩ := ih hr
    subst h
    refine ⟨by simp [h1], fun c hc => ?_⟩
    rcases List.mem_cons.mp hc with rfl | hc
    · exact length_readSymbols hb
    · exact h2 c hc

theorem length_groupMetrics (mode : Mode) (g : List (List Cplx)) :
    (groupMetrics mode g).length = g.length * symbolBits mode := by simp [groupMetrics]

theorem length_flatMap_const {α β : Type} {f : α → List β} {n : Nat} {xs : List α}
    (h : ∀ x ∈ xs, (f x).length = n) : (xs.flatMap f).length = xs.length * n := by
  induction xs with
  | nil => simp
  | cons x xs ih =>
    rw [List.flatMap_cons, List.length_append, h x (by simp), ih fun y hy => h y (by simp [hy]),
      List.length_cons, Nat.succ_mul]
    omega

theorem length_blockMetrics (mode : Mode) {g : Nat} (hg : g ∈ groupSizes mode) {block : List (List Cplx)}
    (hb : block.length = 29) :
    ((groupsOf g block).flatMap (groupMetrics mode)).length = 29 * symbolBits mode := by
  have key : ∀ n : Nat, ((List.range n).flatMap fun k => groupMetrics mode ((block.drop (k * g)).take g)).length
      = ((List.range n).map fun k => min g (29 - k * g)).sum * symbolBits mode := by
    intro n
    induction n with
    | zero => simp
    | succ n ih =>
      rw [List.range_succ, List.flatMap_append, List.length_append, ih, List.map_append, List.sum_append,
        Nat.add_mul]
      simp [length_groupMetrics, hb]
  unfold groupsOf
  rw [List.flatMap_map, key, hb]
  cases mode <;> simp only [groupSizes, List.mem_cons, List.not_mem_nil, or_false] at hg <;>
    rcases hg with rfl | rfl | rfl <;> decide

theorem length_metricArray (mode : Mode) {g : Nat} (hg : g ∈ groupSizes mode) {blocks : List (List (List Cplx))}
    (hb : ∀ b ∈ blocks, b.length = 29) :
    (metricArray mode blocks g).length = blocks.length * (29 * symbolBits mode) :=
  length_flatMap_const fun b h => length_blockMetrics mode hg (hb b h)

theorem length_fourthArray (mode : Mode) {blocks : List (List (List Cplx))} (hb : ∀ b ∈ blocks, b.length = 29) :
    (fourthArray mode blocks).length = blocks.length * (29 * symbolBits mode) :=
  length_flatMap_const fun b h => by
    rw [length_flatMap_const (n := symbolBits mode), hb b h]
    intro z _
    simp [scaledMetrics, length_groupMetrics]

theorem length_normalize (b : Bool) (m : List F64) : (normalize b m).length = m.length := by
  simp only [normalize]
  repeat' split
  all_goals simp

theorem length_rawArrays {mode : Mode} {blocks : List (List (List Cplx))}
    (hn : blocks.length = (dataBlocks mode).length) (hb : ∀ b ∈ blocks, b.length = 29) :
    (rawArrays mode blocks).length = metricArrays mode ∧ ∀ a ∈ rawArrays mode blocks, a.length = 174 := by
  have hs : (dataBlocks mode).length * (29 * symbolBits mode) = 174 := by cases mode <;> rfl
  constructor
  · cases mode <;> rfl
  · intro a ha
    simp only [rawArrays, List.mem_append, List.mem_map] at ha
    rcases ha with ⟨g, hg, rfl⟩ | ha
    · rw [length_metricArray mode hg hb, hn, hs]
    · cases mode with
      | ft8 =>
        simp only [List.mem_singleton] at ha
        rw [ha, length_fourthArray .ft8 hb, hn, hs]
      | ft4 => simp at ha

theorem length_metricWords {mode : Mode} {m : Memory} {base T : Nat} {blocks : List (List (List Cplx))}
    (h : readBlocks m base T (dataBlocks mode) = .ok blocks) (b : Bool) :
    ((rawArrays mode blocks).flatMap (normalize b)).length = 174 * metricArrays mode := by
  obtain ⟨h1, h2⟩ := length_readBlocks h
  obtain ⟨h3, h4⟩ := length_rawArrays h1 h2
  rw [length_flatMap_const (n := 174), h3, Nat.mul_comm]
  intro a ha
  rw [length_normalize, h4 a ha]

/-! ## Texts -/

theorem length_trim_le (t : List Char) : (trim t).length ≤ t.length := by
  have h := fun (p : Char → Bool) (l : List Char) => (List.dropWhile_sublist p (l := l)).length_le
  simp only [trim, List.length_reverse]
  refine le_trans (h _ _) ?_
  rw [List.length_reverse]
  exact h _ _

@[simp] theorem length_alphaText (A : List Char) (n v : Nat) : (alphaText A n v).length = n := by
  induction n generalizing v with
  | zero => rfl
  | succ n ih => simp [alphaText, ih]

theorem length_standardText_le (n : Nat) : (standardText n).length ≤ 6 := le_trans (length_trim_le _) (by simp)

/-- A map that only holds callsigns of at most 11 characters. -/
def ShortLookups (lookup : Nat → Option Callsign) : Prop := ∀ h x, lookup h = some x → x.length ≤ 11

theorem length_resolvedText_le {x : Option Callsign} (h : ∀ y, x = some y → y.length ≤ 11) :
    (resolvedText x).length ≤ 13 := by
  cases x with
  | none => decide
  | some y => have := h y rfl; simp [resolvedText]; omega

theorem length_tokenWord_le {lookup : Nat → Option Callsign} (hl : ShortLookups lookup) {sfx : List Char}
    (hs : sfx.length = 2) {r : Bool} {v : Nat} {t : List Char}
    (h : tokenWord lookup sfx r (tokenOf v) = some t) : t.length ≤ 13 := by
  have h3 : ("CQ ".toList).length = 3 := by decide
  have key : ∀ tok, (∀ u, tok = Token.special u → u.length ≤ 7) → (∀ u, tok = Token.standard u → u.length ≤ 6) →
      tokenWord lookup sfx r tok = some t → t.length ≤ 13 := by
    intro tok hsp hst h
    cases tok with
    | special u => cases r <;> simp [tokenWord] at h; have := hsp u rfl; subst h; omega
    | unused => simp [tokenWord] at h
    | hashed k =>
      cases r <;> simp [tokenWord] at h
      rw [← h]; exact length_resolvedText_le fun y hy => hl k y hy
    | standard u =>
      have := hst u rfl
      cases r <;> simp [tokenWord] at h <;> subst h
      · omega
      · rw [List.length_append]; omega
  refine key (tokenOf v) ?_ ?_ h
  · intro u hu
    have ht := length_trim_le (alphaText A27 4 (v - 1003))
    rw [length_alphaText] at ht
    unfold tokenOf at hu
    split at hu
    · simp only [Token.special.injEq] at hu; subst hu; decide
    split at hu
    · simp only [Token.special.injEq] at hu; subst hu; decide
    split at hu
    · simp only [Token.special.injEq] at hu; subst hu; decide
    split at hu
    · simp only [Token.special.injEq] at hu; subst hu; rw [List.length_append, length_alphaText]; omega
    split at hu
    · simp only [Token.special.injEq] at hu; subst hu; rw [List.length_append]; omega
    split at hu
    · simp at hu
    split at hu <;> simp at hu
  · intro u hu
    unfold tokenOf at hu
    repeat' split at hu
    all_goals first
      | (simp only [Token.standard.injEq] at hu; subst hu; exact length_standardText_le _)
      | simp at hu

theorem length_extraText_le {r1 : Bool} {g : Nat} {t : List Char} (h : extraText r1 g = some t) : t.length ≤ 6 := by
  have h2 : ("R ".toList).length = 2 := by decide
  unfold extraText at h
  split at h
  · simp only [Option.some.injEq] at h; subst h; cases r1 <;> simp [gridText]
  split at h
  · simp only [Option.some.injEq] at h; subst h; cases r1 <;> simp [reportText]
  split at h
  · simp at h
  repeat' split at h
  all_goals first
    | (simp only [Option.some.injEq] at h; subst h; decide)
    | simp at h

theorem length_unpackStandard_le {lookup : Nat → Option Callsign} (hl : ShortLookups lookup) {m : List Bool}
    {u : Unpacked} (h : unpackStandard lookup m = some u) : u.text.length ≤ 34 := by
  have hs : (if messageI3 m = 1 then "/R".toList else "/P".toList).length = 2 := by split <;> decide
  simp only [unpackStandard, bind, Option.bind_eq_some_iff] at h
  obtain ⟨w1, h1, w2, h2, ext, h3, h⟩ := h
  simp only [Option.some.injEq] at h
  have l1 := length_tokenWord_le hl hs h1
  have l2 : w2.length ≤ 13 := by
    unfold secondWord at h2
    split at h2
    · simp at h2
    · exact length_tokenWord_le hl hs h2
  have l3 := length_extraText_le h3
  rw [← h]
  split <;> simp <;> omega

theorem length_ackText_le (r : Nat) : (ackText r).length ≤ 5 := by
  unfold ackText
  split <;> decide

theorem length_unpackHashed_le {lookup : Nat → Option Callsign} (hl : ShortLookups lookup) {m : List Bool}
    {u : Unpacked} (h : unpackHashed lookup m = some u) : u.text.length ≤ 34 := by
  have h3 : ("CQ ".toList).length = 3 := by decide
  simp only [unpackHashed] at h
  have hx := length_trim_le (alphaText A38 11 (bitField m 12 58))
  rw [length_alphaText] at hx
  have hr := length_resolvedText_le fun y hy => hl (bitField m 0 12) y hy
  have ha := length_ackText_le (bitField m 71 2)
  split at h
  · simp at h
  split at h
  · simp only [Option.some.injEq] at h; subst h; rw [List.length_append]; omega
  · simp only [Option.some.injEq] at h
    subst h
    simp only [List.length_append]
    split <;> simp only [List.length_append, List.length_cons] <;> omega

theorem length_unpack_le {l22 l12 : Nat → Option Callsign} (h22 : ShortLookups l22) (h12 : ShortLookups l12)
    {m : List Bool} {u : Unpacked} (h : unpack l22 l12 m = some u) : u.text.length ≤ 34 := by
  simp only [unpack] at h
  split at h
  · simp only [unpackFree] at h
    split at h
    · simp at h
    · simp only [Option.some.injEq] at h
      have := length_trim_le (alphaText A42 13 (bitField m 0 71))
      rw [length_alphaText] at this
      subst h; dsimp only; omega
  split at h
  · exact length_unpackStandard_le h22 h
  split at h
  · exact length_unpackHashed_le h12 h
  · simp at h

end Sys2Proof.Machine
end

