-- ==== Sys2Proof/Laws/Commands.lean ====
section
/-! SUPPORT. What a command's outcome can be, and what its rule can write: said once for every command. -/

namespace Sys2Proof.Machine

/-! ## A command is its rule, run -/

/-- The rule of a command. -/
def ruleOf (i : Instr) (s : State) : Check Effect :=
  match i with
  | .nop => nopRule s
  | .fft => transformCommand (forwardTransform Config.trig) s
  | .ifft => transformCommand (inverseTransform Config.trig) s
  | .ldpcEncode => ldpcEncodeRule s
  | .ldpcDecode maskEn => ldpcDecodeRule maskEn s
  | .crc14Gen => crc14GenRule s
  | .crc14Check => crc14CheckRule s
  | .mixDown => mixDownRule s
  | .symbolTones mode => symbolTonesRule mode s
  | .syncCount mode => syncCountRule mode s
  | .softBits mode => softBitsRule mode s
  | .pack77 => pack77Rule s
  | .unpack77 useHt => unpack77Rule useHt s
  | .hashCompute => hashComputeRule s
  | .hashSave => hashSaveRule s
  | .hashLookup width => hashLookupRule width s
  | .hashClear => hashClearRule s
  | .hashSize => hashSizeRule s

theorem exec_eq_runCommand (i : Instr) (s : State) : exec i s = runCommand (ruleOf i s) s := by
  cases i <;> rfl

theorem runCommand_ok {c : Check Effect} {eff : Effect} {s : State} (h : c = .ok eff) :
    runCommand c s = .next (s.commit eff) := by rw [h]; rfl

theorem runCommand_error {c : Check Effect} {e : ErrCode} {s : State} (h : c = .error (.error e)) :
    runCommand c s = .next (s.raiseError e) := by rw [h]; rfl

theorem runCommand_fault {c : Check Effect} {f : Fault} {s : State} (h : c = .error (.fault f)) :
    runCommand c s = .fault f := by rw [h]; rfl

/-- All that a command can do when it answers a next state: complete, or raise an error. -/
theorem runCommand_next {c : Check Effect} {s t : State} (h : runCommand c s = .next t) :
    (∃ eff, c = .ok eff ∧ t = s.commit eff) ∨ ∃ e, c = .error (.error e) ∧ t = s.raiseError e := by
  rcases c with (e | f) | eff
  · simp only [runCommand, Host.Outcome.next.injEq] at h
    exact .inr ⟨e, rfl, h.symm⟩
  · simp [runCommand] at h
  · simp only [runCommand, Host.Outcome.next.injEq] at h
    exact .inl ⟨eff, rfl, h.symm⟩

theorem runCommand_not_refused (c : Check Effect) (s : State) (r : Refusal) : runCommand c s ≠ .refused r := by
  rcases c with (e | f) | eff <;> simp [runCommand]

theorem completed_commit (s : State) (eff : Effect) : Completed s (s.commit eff) eff.res :=
  ⟨rfl, rfl, rfl, rfl, rfl, rfl, ⟨rfl, rfl, rfl, rfl, rfl, rfl, rfl, rfl⟩⟩

theorem raised_raiseError (s : State) (e : ErrCode) : Raised s (s.raiseError e) e :=
  ⟨rfl, rfl, rfl, rfl, rfl, rfl, rfl, rfl, ⟨rfl, rfl, rfl, rfl, rfl, rfl, rfl, rfl⟩⟩

@[simp] theorem commit_dmem (s : State) (eff : Effect) : (s.commit eff).dmem = writeRuns s.dmem eff.writes := rfl

@[simp] theorem commit_ht (s : State) (eff : Effect) : (s.commit eff).ht = eff.ht := rfl

/-! ## Checks -/

@[simp] theorem require_true {e : ErrCode} : require true e = .ok () := rfl

@[simp] theorem require_false {e : ErrCode} : require false e = .error (.error e) := rfl

theorem require_ok_iff {c : Bool} {e : ErrCode} {u : Unit} : require c e = .ok u ↔ c = true := by
  cases c <;> simp

theorem checkRanges_ok {ins outs : List Range} (hf : ∀ r ∈ ins ++ outs, r.base + r.len ≤ Config.dmemWords)
    (ho : overlaps ins outs = false) : checkRanges ins outs = .ok () := by
  have h : (ins ++ outs).all Range.fits = true :=
    List.all_eq_true.mpr fun r hr => by simpa [Range.fits] using hf r hr
  simp only [checkRanges, h, ho, require_true, ok_bind, Bool.not_false]

theorem checkRanges_ok_iff {ins outs : List Range} {u : Unit} :
    checkRanges ins outs = .ok u ↔
      (∀ r ∈ ins ++ outs, r.base + r.len ≤ Config.dmemWords) ∧ overlaps ins outs = false := by
  constructor
  · intro h
    simp only [checkRanges, bind_ok_iff, require_ok_iff] at h
    obtain ⟨_, h1, h2⟩ := h
    exact ⟨fun r hr => by simpa [Range.fits] using List.all_eq_true.mp h1 r hr, by simpa using h2⟩
  · rintro ⟨h1, h2⟩; exact checkRanges_ok h1 h2

theorem intersects_iff (r t : Range) : r.intersects t = true ↔ r.Meets t := by
  simp [Range.intersects, Range.Meets]

theorem overlaps_false_iff (ins outs : List Range) :
    overlaps ins outs = false ↔
      (∀ o ∈ outs, ∀ r ∈ ins, ¬ o.Meets r) ∧ outs.Pairwise fun o o' => ¬ o.Meets o' := by
  induction outs with
  | nil => simp [overlaps]
  | cons o outs ih =>
    simp only [overlaps, Bool.or_eq_false_iff, ih, List.any_eq_false, intersects_iff, List.mem_cons,
      List.pairwise_cons]
    constructor
    · rintro ⟨⟨h1, h2⟩, h3, h4⟩
      refine ⟨?_, h2, h4⟩
      rintro o' (rfl | ho')
      · exact h1
      · exact h3 o' ho'
    · rintro ⟨h1, h2, h3⟩
      exact ⟨⟨h1 o (.inl rfl), h2⟩, fun o' ho' => h1 o' (.inr ho'), h3⟩

/-- Legal arguments pass the range checks of a command that guards its inputs. -/
theorem checkRanges_legal {i : Instr} {args : Regs8} (h : ArgsLegal i args)
    (hg : guardedInputs i args = inputRanges i args) :
    checkRanges (inputRanges i args) (outputRanges i args) = .ok () :=
  checkRanges_ok h.fit ((overlaps_false_iff _ _).mpr (hg ▸ h.apart))

/-- A range that does not fit raises ERR_ADDR. -/
theorem checkRanges_addr {ins outs : List Range} {r : Range} (hr : r ∈ ins ++ outs)
    (h : Config.dmemWords < r.base + r.len) : checkRanges ins outs = .error (.error .addr) := by
  have h : (ins ++ outs).all Range.fits = false :=
    List.all_eq_false.mpr ⟨r, hr, by simp [Range.fits]; omega⟩
  rw [checkRanges, h]; rfl

/-- Ranges that fit, with an output over another range, raise ERR_OVERLAP. -/
theorem checkRanges_overlap {ins outs : List Range}
    (hf : ∀ r ∈ ins ++ outs, r.base + r.len ≤ Config.dmemWords) (ho : overlaps ins outs = true) :
    checkRanges ins outs = .error (.error .overlap) := by
  have h : (ins ++ outs).all Range.fits = true :=
    List.all_eq_true.mpr fun r hr => by simpa [Range.fits] using hf r hr
  rw [checkRanges, h, ho]; rfl

/-! ## What a rule can stop with -/

/-- The only stops of a computation: an error code other than ERR_NONE, or a read without a value. -/
structure GoodStops {α : Type} (c : Check α) : Prop where
  only : ∀ st, c = .error st → st = .fault .uninitRead ∨ ∃ e, st = .error e ∧ e ≠ .none

theorem goodStops_ok {α : Type} (a : α) : GoodStops (.ok a : Check α) := by
  constructor; intro st h; simp at h

theorem goodStops_error {α : Type} {e : ErrCode} (h : e ≠ .none) : GoodStops (.error (.error e) : Check α) := by
  constructor
  intro st hs
  simp only [Except.error.injEq] at hs
  exact .inr ⟨e, hs.symm, h⟩

theorem goodStops_bind {α β : Type} {x : Check α} {f : α → Check β} (hx : GoodStops x) (hf : ∀ a, GoodStops (f a)) :
    GoodStops (x >>= f) := by
  constructor
  intro st h
  cases x with
  | error e =>
    rw [error_bind, Except.error.injEq] at h
    exact hx.only st (by rw [h])
  | ok a => exact (hf a).only st h

theorem goodStops_ite {α : Type} {p : Prop} [Decidable p] {x y : Check α} (hx : GoodStops x) (hy : GoodStops y) :
    GoodStops (if p then x else y) := by split <;> assumption

theorem goodStops_require (c : Bool) {e : ErrCode} (h : e ≠ .none) : GoodStops (require c e) := by
  cases c
  · exact goodStops_error h
  · exact goodStops_ok ()

theorem goodStops_checkRanges (ins outs : List Range) : GoodStops (checkRanges ins outs) :=
  goodStops_bind (goodStops_require _ (by decide)) fun _ => goodStops_require _ (by decide)

theorem goodStops_memRead (m : Memory) (a : Nat) : GoodStops (memRead m a) := by
  constructor
  intro st h
  unfold memRead at h
  split at h
  · simp at h
  · simp only [Except.error.injEq] at h; exact .inl h.symm

theorem goodStops_readAll {α : Type} {f : Word64 → Check α} (hf : ∀ w, GoodStops (f w)) (m : Memory) (a n : Nat) :
    GoodStops (readAll f m a n) := by
  induction n generalizing a with
  | zero => exact goodStops_ok _
  | succ n ih =>
    exact goodStops_bind (goodStops_memRead m a) fun w =>
      goodStops_bind (hf w) fun x => goodStops_bind (ih _) fun xs => goodStops_ok _

theorem goodStops_readFs (m : Memory) (a n : Nat) : GoodStops (readFs m a n) :=
  goodStops_readAll (fun w => goodStops_ok w) m a n

theorem goodStops_readBits (m : Memory) (a n : Nat) : GoodStops (readBits m a n) :=
  goodStops_readAll (fun w => by
    unfold asBit
    exact goodStops_ite (goodStops_ok _) (goodStops_ite (goodStops_ok _) (goodStops_error (by decide)))) m a n

theorem goodStops_readChars (m : Memory) (a n : Nat) : GoodStops (readChars m a n) :=
  goodStops_readAll (fun w => by
    unfold asChar
    exact goodStops_ite (goodStops_ok _) (goodStops_error (by decide))) m a n

theorem goodStops_readMask (maskEn : Bool) (m : Memory) (a : Nat) : GoodStops (readMask maskEn m a) :=
  goodStops_ite (goodStops_readBits ..) (goodStops_ok _)

theorem goodStops_transform (f : Nat → List Cplx → List Cplx) (s : State) : GoodStops (transformCommand f s) :=
  goodStops_bind (goodStops_require _ (by decide)) fun _ =>
    goodStops_bind (goodStops_require _ (by decide)) fun _ =>
      goodStops_bind (goodStops_checkRanges _ _) fun _ =>
        goodStops_bind (goodStops_readFs ..) fun _ =>
          goodStops_bind (goodStops_readFs ..) fun _ => goodStops_ok _

theorem goodStops_mixBins (taper : Nat → F64) (m : Memory) (re im N M : Nat) (k0 : Int) (js : List Nat) :
    GoodStops (mixBins taper m re im N M k0 js) := by
  induction js with
  | nil => exact goodStops_ok _
  | cons j js ih =>
    exact goodStops_bind (goodStops_memRead ..) fun _ =>
      goodStops_bind (goodStops_memRead ..) fun _ => goodStops_bind ih fun _ => goodStops_ok _

theorem goodStops_sampleAt (m : Memory) (re im Ls : Nat) (q : Int) : GoodStops (sampleAt m re im Ls q) :=
  goodStops_ite (goodStops_bind (goodStops_memRead ..) fun _ =>
    goodStops_bind (goodStops_memRead ..) fun _ => goodStops_ok _) (goodStops_ok _)

theorem goodStops_symbolSamples (m : Memory) (re im Ls : Nat) (q : Int) (n : Nat) :
    GoodStops (symbolSamples m re im Ls q n) := by
  induction n generalizing q with
  | zero => exact goodStops_ok _
  | succ n ih =>
    exact goodStops_bind (goodStops_sampleAt ..) fun _ => goodStops_bind (ih _) fun _ => goodStops_ok _

theorem goodStops_symbolTones (T : Config.Trig) (m : Memory) (re im Ls L : Nat) (t0 : Int) (tn s n : Nat) :
    GoodStops (symbolTones T m re im Ls L t0 tn s n) := by
  induction n generalizing s with
  | zero => exact goodStops_ok _
  | succ n ih =>
    exact goodStops_bind (goodStops_symbolSamples ..) fun _ => goodStops_bind (ih _) fun _ => goodStops_ok _

theorem goodStops_readTones (m : Memory) (base T s : Nat) : GoodStops (readTones m base T s) :=
  goodStops_bind (goodStops_readFs ..) fun _ => goodStops_ok _

theorem goodStops_countSync (m : Memory) (base T s : Nat) (expected : List Nat) :
    GoodStops (countSync m base T s expected) := by
  induction expected generalizing s with
  | nil => exact goodStops_ok _
  | cons tone rest ih =>
    exact goodStops_bind (goodStops_readTones ..) fun _ => goodStops_bind (ih _) fun _ => goodStops_ok _

theorem goodStops_countBlocks (m : Memory) (base T : Nat) (blocks : List (Nat × List Nat)) :
    GoodStops (countBlocks m base T blocks) := by
  induction blocks with
  | nil => exact goodStops_ok _
  | cons b rest ih =>
    exact goodStops_bind (goodStops_countSync ..) fun _ => goodStops_bind ih fun _ => goodStops_ok _

theorem goodStops_readSymbols (m : Memory) (base T s n : Nat) : GoodStops (readSymbols m base T s n) := by
  induction n generalizing s with
  | zero => exact goodStops_ok _
  | succ n ih =>
    exact goodStops_bind (goodStops_readTones ..) fun _ => goodStops_bind (ih _) fun _ => goodStops_ok _

theorem goodStops_readBlocks (m : Memory) (base T : Nat) (firsts : List Nat) :
    GoodStops (readBlocks m base T firsts) := by
  induction firsts with
  | nil => exact goodStops_ok _
  | cons f rest ih =>
    exact goodStops_bind (goodStops_readSymbols ..) fun _ => goodStops_bind ih fun _ => goodStops_ok _

/-- A command stops only by an error code other than ERR_NONE or by a read without a value. -/
theorem goodStops_ruleOf (i : Instr) (s : State) : GoodStops (ruleOf i s) := by
  cases i with
  | nop => exact goodStops_ok _
  | fft => exact goodStops_transform _ _
  | ifft => exact goodStops_transform _ _
  | ldpcEncode =>
    exact goodStops_bind (goodStops_checkRanges ..) fun _ =>
      goodStops_bind (goodStops_readBits ..) fun _ => goodStops_ok _
  | ldpcDecode maskEn =>
    exact goodStops_bind (goodStops_checkRanges ..) fun _ => goodStops_bind (goodStops_readMask ..) fun _ =>
      goodStops_bind (goodStops_readFs ..) fun _ => goodStops_ok _
  | crc14Gen =>
    exact goodStops_bind (goodStops_checkRanges ..) fun _ =>
      goodStops_bind (goodStops_readBits ..) fun _ => goodStops_ok _
  | crc14Check =>
    exact goodStops_bind (goodStops_checkRanges ..) fun _ =>
      goodStops_bind (goodStops_readBits ..) fun _ => goodStops_ok _
  | mixDown =>
    exact goodStops_bind (goodStops_require _ (by decide)) fun _ =>
      goodStops_bind (goodStops_require _ (by decide)) fun _ =>
        goodStops_bind (goodStops_checkRanges ..) fun _ =>
          goodStops_bind (goodStops_mixBins ..) fun _ => goodStops_ok _
  | symbolTones mode =>
    exact goodStops_bind (goodStops_require _ (by decide)) fun _ =>
      goodStops_bind (goodStops_require _ (by decide)) fun _ =>
        goodStops_bind (goodStops_checkRanges ..) fun _ =>
          goodStops_bind (goodStops_symbolTones ..) fun _ => goodStops_ok _
  | syncCount mode =>
    exact goodStops_bind (goodStops_checkRanges ..) fun _ =>
      goodStops_bind (goodStops_countBlocks ..) fun _ => goodStops_ok _
  | softBits mode =>
    exact goodStops_bind (goodStops_checkRanges ..) fun _ =>
      goodStops_bind (goodStops_readBlocks ..) fun _ => goodStops_ok _
  | pack77 =>
    exact goodStops_bind (goodStops_require _ (by decide)) fun _ =>
      goodStops_bind (goodStops_checkRanges ..) fun _ =>
        goodStops_bind (goodStops_readChars ..) fun _ => goodStops_ok _
  | unpack77 useHt =>
    exact goodStops_bind (goodStops_require _ (by decide)) fun _ =>
      goodStops_bind (goodStops_checkRanges ..) fun _ =>
        goodStops_bind (goodStops_readBits ..) fun _ => goodStops_ok _
  | hashCompute =>
    exact goodStops_bind (goodStops_require _ (by decide)) fun _ =>
      goodStops_bind (goodStops_checkRanges ..) fun _ =>
        goodStops_bind (goodStops_readChars ..) fun _ =>
          goodStops_bind (goodStops_require _ (by decide)) fun _ => goodStops_ok _
  | hashSave =>
    exact goodStops_bind (goodStops_require _ (by decide)) fun _ =>
      goodStops_bind (goodStops_checkRanges ..) fun _ =>
        goodStops_bind (goodStops_readChars ..) fun _ => goodStops_ok _
  | hashLookup width =>
    show GoodStops (hashLookupRule width s)
    unfold hashLookupRule
    split
    · exact goodStops_error (by decide)
    · exact goodStops_bind (goodStops_require _ (by decide)) fun _ =>
        goodStops_bind (goodStops_require _ (by decide)) fun _ =>
          goodStops_bind (goodStops_checkRanges ..) fun _ => goodStops_ok _
  | hashClear => exact goodStops_ok _
  | hashSize => exact goodStops_ok _

/-- All that a command can do, for every command. -/
theorem exec_cases (i : Instr) (s : State) :
    (∃ eff, ruleOf i s = .ok eff ∧ exec i s = .next (s.commit eff)) ∨
    (∃ e, e ≠ .none ∧ ruleOf i s = .error (.error e) ∧ exec i s = .next (s.raiseError e)) ∨
    (ruleOf i s = .error (.fault .uninitRead) ∧ exec i s = .fault .uninitRead) := by
  rw [exec_eq_runCommand]
  cases h : ruleOf i s with
  | ok eff => exact .inl ⟨eff, rfl, rfl⟩
  | error st =>
    rcases (goodStops_ruleOf i s).only st h with rfl | ⟨e, rfl, he⟩
    · exact .inr (.inr ⟨rfl, rfl⟩)
    · exact .inr (.inl ⟨e, he, rfl, rfl⟩)

end Sys2Proof.Machine
end

