-- ==== Sys2Proof/Laws/Reads.lean ====
section
/-! SUPPORT. What the numeric commands read, from the words their operands hold, and what a completed command
wrote. -/

namespace Sys2Proof.Machine

/-! ## Parts of a held array -/

theorem HoldsWords.drop {m : Memory} {a : Nat} {ws : List Word64} (h : HoldsWords m a ws) (k : Nat) :
    HoldsWords m (a + k) (ws.drop k) := by
  intro j hj
  rw [List.length_drop] at hj
  rw [List.getElem_drop, Nat.add_assoc]
  exact h (k + j) (by omega)

theorem HoldsWords.take {m : Memory} {a : Nat} {ws : List Word64} (h : HoldsWords m a ws) (k : Nat) :
    HoldsWords m a (ws.take k) := by
  intro j hj
  rw [List.length_take] at hj
  rw [List.getElem_take]
  exact h j (by omega)

/-- A word of a held array. -/
theorem HoldsWords.memRead {m : Memory} {a : Nat} {ws : List Word64} (h : HoldsWords m a ws) {k : Nat}
    (hk : k < ws.length) (d : Word64) : memRead m (a + k) = .ok (ws.getD k d) := by
  rw [memRead_some (h k hk), List.getD_eq_getElem _ _ hk]

theorem holdsWords_writeWords (m : Memory) (a : Nat) (ws : List Word64) : HoldsWords (writeWords m a ws) a ws :=
  fun k hk => readWord_writeWords m a ws k hk

/-- Words outside a run are held as before. -/
theorem HoldsWords.writeWords {m : Memory} {a b : Nat} {ws vs : List Word64} (h : HoldsWords m a ws)
    (hd : a + ws.length ≤ b ∨ b + vs.length ≤ a) : HoldsWords (writeWords m b vs) a ws := by
  intro k hk
  rw [readWord_writeWords_outside (by omega)]
  exact h k hk

/-! ## What a completed command wrote -/

theorem sameOutside_writeRuns (m : Memory) (runs : List (Nat × List Word64)) :
    SameOutside (runs.map fun run => { base := run.1, len := run.2.length }) m (writeRuns m runs) := by
  intro b hb
  apply readByte_writeRuns_outside
  intro run hr
  have := hb _ (List.mem_map_of_mem (f := fun run => ({ base := run.1, len := run.2.length } : Range)) hr)
  simp only [Range.mem, decide_eq_false_iff_not] at this
  omega

theorem wrote_none {s : State} {eff : Effect} (h : eff.writes = []) : Wrote s (s.commit eff) [] := by
  refine ⟨fun run hr => by simp at hr, ?_⟩
  have := sameOutside_writeRuns s.dmem eff.writes
  rw [h] at this
  rw [commit_dmem, h]; exact this

theorem wrote_one {s : State} {eff : Effect} {run : Nat × List Word64} (h : eff.writes = [run]) :
    Wrote s (s.commit eff) [run] := by
  have hf := sameOutside_writeRuns s.dmem eff.writes
  refine ⟨fun r hr => ?_, ?_⟩
  · rw [List.mem_singleton] at hr
    subst hr
    rw [commit_dmem, h]
    exact holdsWords_writeWords _ _ _
  · rw [commit_dmem]; rw [h] at hf ⊢; exact hf

theorem wrote_two {s : State} {eff : Effect} {run run' : Nat × List Word64} (h : eff.writes = [run, run'])
    (hd : run.1 + run.2.length ≤ run'.1 ∨ run'.1 + run'.2.length ≤ run.1) :
    Wrote s (s.commit eff) [run, run'] := by
  have hf := sameOutside_writeRuns s.dmem eff.writes
  refine ⟨fun r hr => ?_, ?_⟩
  · simp only [List.mem_cons, List.not_mem_nil, or_false] at hr
    rw [commit_dmem, h]
    rcases hr with rfl | rfl
    · exact (holdsWords_writeWords _ _ _).writeWords hd
    · exact holdsWords_writeWords _ _ _
  · rw [commit_dmem]; rw [h] at hf ⊢; exact hf

/-- Output ranges that do not meet, as word addresses. -/
theorem apart_of_not_meets {b b' n : Nat} (h : ¬ Range.Meets ⟨b, n⟩ ⟨b', n⟩) : b + n ≤ b' ∨ b' + n ≤ b := by
  simp only [Range.Meets] at h
  omega

/-! ## The transforms -/

theorem transformCommand_ok {f : Nat → List Cplx → List Cplx} {s : State} {xr xi : List F64}
    (hl : LengthsLegal .fft s.snapshot) (hf : RangesFit .fft s.snapshot) (ha : NoOverlap .fft s.snapshot)
    (hxr : xr.length = argNat s.snapshot 2) (hxi : xi.length = argNat s.snapshot 2)
    (hr : HoldsWords s.dmem (argNat s.snapshot 0) xr) (hi : HoldsWords s.dmem (argNat s.snapshot 1) xi) :
    transformCommand f s = .ok
      { writes := [(argNat s.snapshot 0, (f (argNat s.snapshot 2) (xr.zip xi)).map Prod.fst),
          (argNat s.snapshot 1, (f (argNat s.snapshot 2) (xr.zip xi)).map Prod.snd)]
        ht := s.ht
        res := results [1, transformPath (argNat s.snapshot 2), transformLength (argNat s.snapshot 2)] } := by
  simp only [LengthsLegal] at hl
  have h1 : decide (argNat s.snapshot 2 ≠ 0) = true := decide_eq_true (by omega)
  have h2 : decide (argNat s.snapshot 2 ≤ Config.nmaxFft) = true := decide_eq_true hl.2
  have h3 : checkRanges [] [⟨argNat s.snapshot 0, argNat s.snapshot 2⟩, ⟨argNat s.snapshot 1, argNat s.snapshot 2⟩]
      = .ok () :=
    checkRanges_ok (fun r hr => hf r (List.mem_append_right _ hr))
      ((overlaps_false_iff _ _).mpr (by simpa [NoOverlap, outputRanges, guardedInputs, rangeAt] using ha))
  rw [transformCommand, h1, h2, require_true, ok_bind, ok_bind, h3, ok_bind, readFs_ok hxr hr, ok_bind,
    readFs_ok hxi hi, ok_bind]

theorem isPow2_iff (N : Nat) : isPow2 N = true ↔ ∃ p, N = 2 ^ p := by
  simp only [isPow2, beq_iff_eq]
  constructor
  · exact fun h => ⟨_, h⟩
  · rintro ⟨p, rfl⟩; rw [Nat.log2_two_pow]

theorem ceilLog2_spec (n : Nat) : n ≤ 2 ^ ceilLog2 n ∧ ∀ p, n ≤ 2 ^ p → 2 ^ ceilLog2 n ≤ 2 ^ p := by
  unfold ceilLog2
  split
  · rename_i h
    exact ⟨by omega, fun p _ => Nat.one_le_two_pow⟩
  · rename_i h
    have h1 : n - 1 ≠ 0 := by omega
    constructor
    · have := Nat.lt_log2_self (n := n - 1)
      omega
    · intro p hp
      apply Nat.pow_le_pow_right (by decide)
      have h2 := Nat.log2_self_le h1
      have h3 : (n - 1).log2 < p := (Nat.pow_lt_pow_iff_right (by decide)).mp (by omega : 2 ^ (n - 1).log2 < 2 ^ p)
      omega

theorem transformPath_spec (N : Nat) : TransformPath N (transformPath N) (transformLength N) := by
  unfold transformPath transformLength
  constructor
  · intro h
    have := (isPow2_iff N).mpr h
    simp [this]
  · intro h
    have : isPow2 N = false := by
      rw [← Bool.not_eq_true, isPow2_iff]; exact h
    have hc := ceilLog2_spec (2 * N - 1)
    simp only [this, Bool.false_eq_true, if_false]
    exact ⟨trivial, ⟨_, rfl⟩, hc.1, hc.2⟩

/-! ## MIX_DOWN -/

theorem mixSource_lt {N M : Nat} (hN : 0 < N) (k0 : Int) (j : Nat) : mixSource N M k0 j < N := by
  unfold mixSource
  have h1 := Int.emod_nonneg (k0 + mixOffset M j) (b := N) (by omega)
  have h2 := Int.emod_lt_of_pos (k0 + mixOffset M j) (b := N) (by omega)
  omega

theorem mixBins_ok {taper : Nat → F64} {m : Memory} {re im N M : Nat} {k0 : Int} {xr xi : List F64} (hN : 0 < N)
    (hr : HoldsWords m re xr) (hi : HoldsWords m im xi) (hxr : xr.length = N) (hxi : xi.length = N)
    (js : List Nat) :
    mixBins taper m re im N M k0 js = .ok (js.map fun j =>
      (fmul (xr.getD (mixSource N M k0 j) 0) (taper j), fmul (xi.getD (mixSource N M k0 j) 0) (taper j))) := by
  induction js with
  | nil => rfl
  | cons j js ih =>
    have h := mixSource_lt (M := M) hN k0 j
    rw [mixBins, hr.memRead (by omega) 0, ok_bind, hi.memRead (by omega) 0, ok_bind, ih, ok_bind, List.map_cons]

theorem tapered_eq (xr xi : List F64) (N M : Nat) (k0 : Int) :
    tapered xr xi N M k0 = (List.range M).map fun j =>
      (fmul (xr.getD (mixSource N M k0 j) 0) (Config.mixTaper M j),
        fmul (xi.getD (mixSource N M k0 j) 0) (Config.mixTaper M j)) := rfl

/-! ## SYMBOL_TONES -/

theorem sampleAt_ok {m : Memory} {re im : Nat} {xr xi : List F64} (hx : xi.length = xr.length)
    (hr : HoldsWords m re xr) (hi : HoldsWords m im xi) (q : Int) :
    sampleAt m re im xr.length q
      = .ok (if 0 ≤ q ∧ q < xr.length then (xr.getD q.toNat 0, xi.getD q.toNat 0) else (0, 0)) := by
  unfold sampleAt
  split
  · rw [hr.memRead (by omega) 0, ok_bind, hi.memRead (by omega) 0, ok_bind]
  · rfl

theorem symbolSamples_ok {m : Memory} {re im : Nat} {xr xi : List F64} (hx : xi.length = xr.length)
    (hr : HoldsWords m re xr) (hi : HoldsWords m im xi) (q : Int) (n : Nat) :
    symbolSamples m re im xr.length q n = .ok ((List.range n).map fun k =>
      if 0 ≤ q + (k : Nat) ∧ q + (k : Nat) < xr.length
        then (xr.getD (q + (k : Nat)).toNat 0, xi.getD (q + (k : Nat)).toNat 0) else (0, 0)) := by
  induction n generalizing q with
  | zero => rfl
  | succ n ih =>
    rw [symbolSamples, sampleAt_ok hx hr hi, ok_bind, ih, ok_bind, List.range_succ_eq_map, List.map_cons,
      List.map_map]
    simp only [Nat.cast_zero, add_zero, Function.comp_def, Nat.succ_eq_add_one, Nat.cast_add, Nat.cast_one]
    congr 2
    refine List.map_congr_left fun k _ => ?_
    rw [show q + 1 + (k : Int) = q + (k + 1) by ring]

theorem symbolTones_ok {T : Config.Trig} {m : Memory} {re im : Nat} {xr xi : List F64}
    (hx : xi.length = xr.length) (hr : HoldsWords m re xr) (hi : HoldsWords m im xi) (L : Nat) (t0 : Int)
    (tn s n : Nat) :
    symbolTones T m re im xr.length L t0 tn s n
      = .ok ((List.range n).flatMap fun k => (forwardTransform T L (segment xr xi L t0 (s + k))).take tn) := by
  induction n generalizing s with
  | zero => rfl
  | succ n ih =>
    rw [symbolTones, symbolSamples_ok hx hr hi, ok_bind, ih, ok_bind, List.range_succ_eq_map, List.flatMap_cons,
      List.flatMap_map]
    congr 3
    funext k
    rw [show s + 1 + k = s + (k + 1) by omega]

/-! ## Tone arrays -/

theorem readTones_ok {m : Memory} {base T s : Nat} {ws : List F64} (h : HoldsWords m base ws)
    (hl : 2 * (s * T) + 2 * T ≤ ws.length) : readTones m base T s = .ok (tonesOf T ws s) := by
  have h1 : ((ws.drop (2 * (s * T))).take (2 * T)).length = 2 * T := by
    rw [List.length_take, List.length_drop]; omega
  rw [readTones, readFs_ok h1 ((h.drop _).take _), ok_bind, tonesOf]
  congr 1
  refine List.map_congr_left fun t ht => ?_
  rw [List.mem_range] at ht
  have hg : ∀ k < 2 * T, ((ws.drop (2 * (s * T))).take (2 * T)).getD k 0 = ws.getD (2 * (s * T) + k) 0 := by
    intro k hk
    simp only [List.getD_eq_getElem?_getD, List.getElem?_take, List.getElem?_drop, if_pos hk]
  rw [hg _ (by omega), hg _ (by omega)]
  rw [show 2 * (s * T) + 2 * t = 2 * (s * T + t) by ring, show 2 * (s * T) + (2 * t + 1) = 2 * (s * T + t) + 1 by ring]

theorem countSync_ok {m : Memory} {base T : Nat} {ws : List F64} (h : HoldsWords m base ws) (expected : List Nat)
    (s : Nat) (hl : 2 * ((s + expected.length) * T) ≤ ws.length) :
    countSync m base T s expected = .ok (syncMatches T ws (s, expected)) := by
  induction expected generalizing s with
  | nil => rfl
  | cons tone rest ih =>
    rw [List.length_cons] at hl
    have h1 : (s + (rest.length + 1)) * T = s * T + T + rest.length * T := by ring
    have h2 : (s + 1 + rest.length) * T = s * T + T + rest.length * T := by ring
    rw [countSync, readTones_ok h (by omega), ok_bind, ih (s + 1) (by omega), ok_bind]
    simp only [syncMatches, List.length_cons, List.range_succ_eq_map, List.filter_cons, List.filter_map]
    have h3 : ((List.range rest.length).filter
        ((fun k => argmax ((tonesOf T ws (s + k)).map cabs) == (tone :: rest).getD k 0) ∘ Nat.succ)) =
        (List.range rest.length).filter fun k => argmax ((tonesOf T ws (s + 1 + k)).map cabs) == rest.getD k 0 := by
      refine List.filter_congr fun k _ => ?_
      simp only [Function.comp, Nat.succ_eq_add_one, List.getD_cons_succ, show s + (k + 1) = s + 1 + k by omega]
    simp only [Nat.add_zero, List.getD_cons_zero, beq_iff_eq]
    split
    · rename_i h4
      rw [List.length_cons, List.length_map, h3, Nat.add_comm]
    · rename_i h4
      rw [List.length_map, h3, Nat.zero_add]

theorem countBlocks_ok {m : Memory} {base T : Nat} {ws : List F64} (h : HoldsWords m base ws)
    (blocks : List (Nat × List Nat)) (hl : ∀ b ∈ blocks, 2 * ((b.1 + b.2.length) * T) ≤ ws.length) :
    countBlocks m base T blocks = .ok (blocks.map (syncMatches T ws)) := by
  induction blocks with
  | nil => rfl
  | cons b rest ih =>
    rw [countBlocks, countSync_ok h _ _ (hl b (by simp)), ok_bind, ih fun c hc => hl c (by simp [hc]), ok_bind,
      List.map_cons]

theorem readSymbols_ok {m : Memory} {base T : Nat} {ws : List F64} (h : HoldsWords m base ws) (s n : Nat)
    (hl : 2 * ((s + n) * T) ≤ ws.length) :
    readSymbols m base T s n = .ok ((List.range n).map fun k => tonesOf T ws (s + k)) := by
  induction n generalizing s with
  | zero => rfl
  | succ n ih =>
    have h1 : (s + (n + 1)) * T = s * T + T + n * T := by ring
    have h2 : (s + 1 + n) * T = s * T + T + n * T := by ring
    rw [readSymbols, readTones_ok h (by omega), ok_bind, ih (s + 1) (by omega), ok_bind, List.range_succ_eq_map,
      List.map_cons, List.map_map]
    congr 2
    refine List.map_congr_left fun k _ => ?_
    simp only [Function.comp, Nat.succ_eq_add_one, show s + (k + 1) = s + 1 + k by omega]

theorem readBlocks_ok {m : Memory} {base T : Nat} {ws : List F64} (h : HoldsWords m base ws) (firsts : List Nat)
    (hl : ∀ f ∈ firsts, 2 * ((f + 29) * T) ≤ ws.length) :
    readBlocks m base T firsts
      = .ok (firsts.map fun f => (List.range 29).map fun k => tonesOf T ws (f + k)) := by
  induction firsts with
  | nil => rfl
  | cons f rest ih =>
    rw [readBlocks, readSymbols_ok h f blockSymbols (hl f (by simp)), ok_bind, ih fun c hc => hl c (by simp [hc]),
      ok_bind, List.map_cons]
    rfl

/-- The sync blocks lie within the frame. -/
theorem syncBlocks_fit (mode : Mode) :
    ∀ b ∈ syncBlocks mode, 2 * ((b.1 + b.2.length) * tones mode) ≤ toneWords mode := by
  cases mode <;> decide

/-- The data blocks lie within the frame. -/
theorem dataBlocks_fit (mode : Mode) :
    ∀ f ∈ dataBlocks mode, 2 * ((f + 29) * tones mode) ≤ toneWords mode := by
  cases mode <;> decide

end Sys2Proof.Machine
end

