-- ==== Sys2Proof/Laws/Faults.lean ====
section
/-! SUPPORT. Which words each read of a command looks at: it faults when one of them has no value, and answers
otherwise. -/

namespace Sys2Proof.Machine

/-- All that a computation which reads the words of `A` can do: fault with MODEL_UNINIT_READ where one of them has no
value, and answer where all of them have one. -/
def Looks {α : Type} (m : Memory) (c : Check α) (A : Nat → Prop) : Prop :=
  (∃ a, A a ∧ readWord m a = none) ∧ c = .error (.fault .uninitRead) ∨
    (∀ a, A a → readWord m a ≠ none) ∧ ∃ x, c = .ok x

theorem looks_ok {α : Type} (m : Memory) (x : α) : Looks m (.ok x) fun _ => False :=
  .inr ⟨fun _ h => h.elim, x, rfl⟩

theorem Looks.congr {α : Type} {m : Memory} {c : Check α} {A B : Nat → Prop} (h : Looks m c A) (hAB : ∀ a, A a ↔ B a) :
    Looks m c B := by
  have : A = B := funext fun a => propext (hAB a)
  rwa [← this]

theorem Looks.bind {α β : Type} {m : Memory} {c : Check α} {f : α → Check β} {A B : Nat → Prop} (hc : Looks m c A)
    (hf : ∀ x, Looks m (f x) B) : Looks m (c >>= f) fun a => A a ∨ B a := by
  rcases hc with ⟨⟨a, ha, hn⟩, rfl⟩ | ⟨hA, x, rfl⟩
  · exact .inl ⟨⟨a, .inl ha, hn⟩, rfl⟩
  · rcases hf x with ⟨⟨a, ha, hn⟩, h⟩ | ⟨hB, y, h⟩
    · exact .inl ⟨⟨a, .inr ha, hn⟩, h⟩
    · exact .inr ⟨fun a ha => ha.elim (hA a) (hB a), y, h⟩

/-- Adding an answer that reads nothing. -/
theorem Looks.map {α β : Type} {m : Memory} {c : Check α} {A : Nat → Prop} (hc : Looks m c A) (f : α → β) :
    Looks m (c >>= fun x => .ok (f x)) A :=
  (hc.bind fun x => looks_ok m (f x)).congr fun _ => iff_of_eq (or_false _)

theorem looks_memRead (m : Memory) (a : Nat) : Looks m (memRead m a) (· = a) := by
  cases h : readWord m a with
  | none => exact .inl ⟨⟨a, rfl, h⟩, memRead_none h⟩
  | some w => exact .inr ⟨fun b hb => by simp [hb, h], w, memRead_some h⟩

/-- A run of words, each of which passes the check of its reader where it has a value. -/
theorem looks_readAll {α : Type} {f : Word64 → Check α} {m : Memory} {a n : Nat}
    (hf : ∀ i w, a ≤ i → i < a + n → readWord m i = some w → ∃ x, f w = .ok x) :
    Looks m (readAll f m a n) fun i => a ≤ i ∧ i < a + n := by
  induction n generalizing a with
  | zero => exact (looks_ok m []).congr fun i => ⟨False.elim, fun h => by omega⟩
  | succ n ih =>
    have rest := ih (a := a + 1) fun i w h h' => hf i w (by omega) (by omega)
    rw [readAll]
    cases h : readWord m a with
    | none => exact .inl ⟨⟨a, ⟨le_refl a, by omega⟩, h⟩, by rw [memRead_none h]; rfl⟩
    | some w =>
      obtain ⟨x, hx⟩ := hf a w (le_refl a) (by omega) h
      rw [memRead_some h, ok_bind, hx, ok_bind]
      rcases rest.map (x :: ·) with ⟨⟨i, hi, hn⟩, e⟩ | ⟨hr, e⟩
      · exact .inl ⟨⟨i, ⟨by omega, by omega⟩, hn⟩, e⟩
      · refine .inr ⟨fun i hi => ?_, e⟩
        rcases Nat.eq_or_lt_of_le hi.1 with rfl | hlt
        · simp [h]
        · exact hr i ⟨by omega, by omega⟩

theorem looks_readFs (m : Memory) (a n : Nat) : Looks m (readFs m a n) fun i => a ≤ i ∧ i < a + n :=
  looks_readAll fun _ w _ _ _ => ⟨w, rfl⟩

theorem looks_readBits {m : Memory} {a n : Nat}
    (h : ∀ i w, a ≤ i → i < a + n → readWord m i = some w → w = 0 ∨ w = 1) :
    Looks m (readBits m a n) fun i => a ≤ i ∧ i < a + n :=
  looks_readAll fun i w h1 h2 hw => by
    rcases h i w h1 h2 hw with rfl | rfl
    · exact ⟨false, rfl⟩
    · exact ⟨true, rfl⟩

theorem looks_readChars {m : Memory} {a n : Nat}
    (h : ∀ i w, a ≤ i → i < a + n → readWord m i = some w → w.toNat < 128) :
    Looks m (readChars m a n) fun i => a ≤ i ∧ i < a + n :=
  looks_readAll fun i w h1 h2 hw => ⟨_, if_pos (h i w h1 h2 hw)⟩

theorem looks_mixBins (taper : Nat → F64) (m : Memory) (re im N M : Nat) (k0 : Int) (js : List Nat) :
    Looks m (mixBins taper m re im N M k0 js)
      fun a => ∃ j ∈ js, a = re + mixSource N M k0 j ∨ a = im + mixSource N M k0 j := by
  induction js with
  | nil => exact (looks_ok m []).congr fun a => by simp
  | cons j js ih =>
    rw [mixBins]
    exact ((looks_memRead m _).bind fun x => (looks_memRead m _).bind fun y => ih.map _).congr fun a => by
      simp [or_assoc]

theorem looks_sampleAt (m : Memory) (re im Ls : Nat) (q : Int) :
    Looks m (sampleAt m re im Ls q) fun a => ∃ k < Ls, (k : Int) = q ∧ (a = re + k ∨ a = im + k) := by
  unfold sampleAt
  split
  case isTrue h =>
    refine ((looks_memRead m _).bind fun x => (looks_memRead m _).map _).congr fun a => ?_
    constructor
    · exact fun e => ⟨q.toNat, by omega, by omega, e⟩
    · rintro ⟨k, -, rfl, e⟩
      exact e
  case isFalse h => exact (looks_ok m _).congr fun a => ⟨False.elim, fun ⟨k, hk, e, _⟩ => h (by omega)⟩

theorem looks_symbolSamples (m : Memory) (re im Ls : Nat) (q : Int) (n : Nat) :
    Looks m (symbolSamples m re im Ls q n)
      fun a => ∃ i < n, ∃ k < Ls, (k : Int) = q + (i : Nat) ∧ (a = re + k ∨ a = im + k) := by
  induction n generalizing q with
  | zero => exact (looks_ok m []).congr fun a => by simp
  | succ n ih =>
    rw [symbolSamples]
    refine ((looks_sampleAt m re im Ls q).bind fun z => (ih (q + 1)).map _).congr fun a => ?_
    constructor
    · rintro (⟨k, hk, e, h⟩ | ⟨i, hi, k, hk, e, h⟩)
      · exact ⟨0, by omega, k, hk, by omega, h⟩
      · exact ⟨i + 1, by omega, k, hk, by omega, h⟩
    · rintro ⟨i, hi, k, hk, e, h⟩
      rcases i with _ | i
      · exact .inl ⟨k, hk, by omega, h⟩
      · exact .inr ⟨i, by omega, k, hk, by omega, h⟩

theorem looks_symbolTones (T : Config.Trig) (m : Memory) (re im Ls L : Nat) (t0 : Int) (tones s n : Nat) :
    Looks m (symbolTones T m re im Ls L t0 tones s n) fun a => ∃ j < n, ∃ i < L, ∃ k < Ls,
      (k : Int) = t0 + ((s + j) * L : Nat) + (i : Nat) ∧ (a = re + k ∨ a = im + k) := by
  induction n generalizing s with
  | zero => exact (looks_ok m []).congr fun a => by simp
  | succ n ih =>
    rw [symbolTones]
    refine ((looks_symbolSamples m re im Ls _ L).bind fun z => (ih (s + 1)).map _).congr fun a => ?_
    constructor
    · rintro (⟨i, hi, k, hk, e, h⟩ | ⟨j, hj, i, hi, k, hk, e, h⟩)
      · exact ⟨0, by omega, i, hi, k, hk, e, h⟩
      · exact ⟨j + 1, by omega, i, hi, k, hk, by rw [e, show s + 1 + j = s + (j + 1) by omega], h⟩
    · rintro ⟨j, hj, i, hi, k, hk, e, h⟩
      rcases j with _ | j
      · exact .inl ⟨i, hi, k, hk, e, h⟩
      · exact .inr ⟨j, by omega, i, hi, k, hk, by rw [e, show s + 1 + j = s + (j + 1) by omega], h⟩

theorem looks_readTones (m : Memory) (base T s : Nat) :
    Looks m (readTones m base T s) fun a => ∃ j < 2 * T, a = base + 2 * (s * T) + j :=
  ((looks_readFs m _ _).map _).congr fun a =>
    ⟨fun h => ⟨a - (base + 2 * (s * T)), by omega, by omega⟩, fun ⟨j, hj, e⟩ => by omega⟩

/-- The tone words of the n symbols from symbol s on. -/
def SymbolWords (base T s n a : Nat) : Prop := ∃ k < n, ∃ j < 2 * T, a = base + 2 * ((s + k) * T) + j

theorem symbolWords_succ (base T s n a : Nat) :
    (∃ j < 2 * T, a = base + 2 * (s * T) + j) ∨ SymbolWords base T (s + 1) n a ↔ SymbolWords base T s (n + 1) a := by
  constructor
  · rintro (⟨j, hj, e⟩ | ⟨k, hk, j, hj, e⟩)
    · exact ⟨0, by omega, j, hj, e⟩
    · exact ⟨k + 1, by omega, j, hj, by rw [e, show s + 1 + k = s + (k + 1) by omega]⟩
  · rintro ⟨k, hk, j, hj, e⟩
    rcases k with _ | k
    · exact .inl ⟨j, hj, e⟩
    · exact .inr ⟨k, by omega, j, hj, by rw [e, show s + 1 + k = s + (k + 1) by omega]⟩

theorem looks_countSync (m : Memory) (base T s : Nat) (expected : List Nat) :
    Looks m (countSync m base T s expected) (SymbolWords base T s expected.length) := by
  induction expected generalizing s with
  | nil => exact (looks_ok m _).congr fun a => by simp [SymbolWords]
  | cons tone rest ih =>
    rw [countSync]
    exact ((looks_readTones m base T s).bind fun zs => (ih (s + 1)).map _).congr (symbolWords_succ base T s _)

theorem looks_countBlocks (m : Memory) (base T : Nat) (blocks : List (Nat × List Nat)) :
    Looks m (countBlocks m base T blocks) fun a => ∃ b ∈ blocks, SymbolWords base T b.1 b.2.length a := by
  induction blocks with
  | nil => exact (looks_ok m _).congr fun a => by simp
  | cons b rest ih =>
    obtain ⟨first, expected⟩ := b
    rw [countBlocks]
    exact ((looks_countSync m base T first expected).bind fun n => ih.map _).congr fun a => by simp

theorem looks_readSymbols (m : Memory) (base T s n : Nat) :
    Looks m (readSymbols m base T s n) (SymbolWords base T s n) := by
  induction n generalizing s with
  | zero => exact (looks_ok m _).congr fun a => by simp [SymbolWords]
  | succ n ih =>
    rw [readSymbols]
    exact ((looks_readTones m base T s).bind fun zs => (ih (s + 1)).map _).congr (symbolWords_succ base T s n)

theorem looks_readBlocks (m : Memory) (base T : Nat) (firsts : List Nat) :
    Looks m (readBlocks m base T firsts) fun a => ∃ first ∈ firsts, SymbolWords base T first blockSymbols a := by
  induction firsts with
  | nil => exact (looks_ok m _).congr fun a => by simp
  | cons first rest ih =>
    rw [readBlocks]
    exact ((looks_readSymbols m base T first blockSymbols).bind fun b => ih.map _).congr fun a => by simp

end Sys2Proof.Machine
end

