-- ==== Sys2Proof/Laws/Float.lean ====
section
/-! SUPPORT. The sign of a binary64 number, that adding 0.0 keeps it, and what the functions of TRIG can give. -/

namespace Sys2Proof.Machine

/-- The value of a pattern given by its sign, exponent field and fraction field. -/
theorem fval_ofNat (neg : Bool) (bits : Nat) (h : bits < 0x7FF0000000000000) (h0 : bits ≠ 0) :
    ∃ m e, m ≠ 0 ∧ fval (BitVec.ofNat 64 (bits + if neg then 2 ^ 63 else 0)) = .fin neg m e := by
  have hx : (BitVec.ofNat 64 (bits + if neg then 2 ^ 63 else 0)).toNat = bits + if neg then 2 ^ 63 else 0 := by
    rw [BitVec.toNat_ofNat, Nat.mod_eq_of_lt]
    split <;> omega
  have hm : (BitVec.ofNat 64 (bits + if neg then 2 ^ 63 else 0)).msb = neg := by
    rw [BitVec.msb_eq_decide, hx]
    cases neg <;> simp <;> omega
  have he : (bits + if neg then 2 ^ 63 else 0) / 2 ^ 52 % 2048 = bits / 2 ^ 52 := by
    cases neg <;> simp <;> omega
  have hf : (bits + if neg then 2 ^ 63 else 0) % 2 ^ 52 = bits % 2 ^ 52 := by
    cases neg <;> simp <;> omega
  unfold fval
  simp only [hx, hm, he, hf]
  rw [if_neg (by omega)]
  split
  · exact ⟨_, _, by omega, rfl⟩
  · exact ⟨_, _, by omega, rfl⟩

theorem fval_infF64 (neg : Bool) : fval (infF64 neg) = .inf neg := by cases neg <;> decide

theorem fval_qNaN : fval qNaN = .nan := by decide

theorem fval_zero : fval 0 = .fin false 0 (-1074) := by decide

/-- A number is above 0.0 exactly when it is positive and not zero. -/
theorem hard_fin {x : F64} {neg : Bool} {m : Nat} {e : Int} (h : fval x = .fin neg m e) :
    hard x = (!neg && decide (m ≠ 0)) := by
  unfold hard flt
  rw [fval_zero, h]
  have hp : ∀ k : Nat, 0 < 2 ^ k := fun k => Nat.two_pow_pos k
  simp only [finLt, signedInt, Nat.zero_mul]
  cases neg
  · by_cases hm : m = 0
    · simp [hm]
    · have := Nat.mul_pos (Nat.pos_of_ne_zero hm) (hp (e - min (-1074) e).toNat)
      simp only [Bool.false_eq_true, if_false, Bool.not_false, Bool.true_and, decide_eq_true (show m ≠ 0 from hm)]
      exact decide_eq_true (by exact_mod_cast this)
  · simp only [if_true, Bool.false_eq_true, if_false, Bool.not_true, Bool.false_and]
    apply decide_eq_false
    have : (0 : Int) ≤ ((m * 2 ^ (e - min (-1074) e).toNat : Nat) : Int) := Int.natCast_nonneg _
    simp only [Nat.cast_zero]
    omega

theorem hard_inf {x : F64} {neg : Bool} (h : fval x = .inf neg) : hard x = !neg := by
  unfold hard flt
  rw [fval_zero, h]

theorem hard_nan {x : F64} (h : fval x = .nan) : hard x = false := by
  unfold hard flt
  rw [fval_zero, h]

theorem hard_ofNat (neg : Bool) {bits : Nat} (h : bits ≠ 0) :
    hard (if 0x7FF0000000000000 ≤ bits then infF64 neg
      else BitVec.ofNat 64 (bits + if neg then 2 ^ 63 else 0)) = !neg := by
  split
  · exact hard_inf (fval_infF64 neg)
  · rename_i hb
    obtain ⟨m', e', hm', hv⟩ := fval_ofNat neg bits (by omega) h
    rw [hard_fin hv]
    simp [hm']

/-- A nonzero number rounds to a number of its sign. -/
theorem hard_roundF64 (neg : Bool) {m : Nat} (h : m ≠ 0) : hard (roundF64 neg m (-1074)) = !neg := by
  unfold roundF64
  rw [if_neg h]
  refine hard_ofNat neg ?_
  by_cases hq : (m.log2 : Int) + -1074 - 52 ≤ -1074
  · have h1 : max ((m.log2 : Int) + -1074 - 52) (-1074) = -1074 := by omega
    rw [h1, if_pos (by decide)]
    have h2 : roundShift m (-1074 - -1074 : Int).toNat = m := by simp [roundShift, Nat.mod_one]
    omega
  · have : 0 < (max ((m.log2 : Int) + -1074 - 52) (-1074) + 1074).toNat := by omega
    omega

theorem fval_exponent {x : F64} {neg : Bool} {m : Nat} {e : Int} (h : fval x = .fin neg m e) : -1074 ≤ e := by
  unfold fval at h
  dsimp only at h
  split at h
  · split at h <;> simp at h
  · split at h
    · simp only [FVal.fin.injEq] at h; omega
    · simp only [FVal.fin.injEq] at h; omega

/-- Adding 0.0 keeps the hard decision (R151, R160). -/
theorem hard_fadd_zero (x : F64) : hard (fadd x 0) = hard x := by
  cases hx : fval x with
  | nan =>
    have : fadd x 0 = qNaN := by unfold fadd; rw [hx]
    rw [this, hard_nan hx, hard_nan fval_qNaN]
  | inf a =>
    have : fadd x 0 = infF64 a := by unfold fadd; rw [hx, fval_zero]
    rw [this, hard_inf hx, hard_inf (fval_infF64 a)]
  | fin s m e =>
    have he := fval_exponent hx
    have hg : min e (-1074) = -1074 := by omega
    have hp := Nat.two_pow_pos (e - -1074).toNat
    rw [hard_fin hx]
    unfold fadd
    rw [hx, fval_zero]
    simp only [hg, Nat.zero_mul]
    have h0 : signedInt false 0 = 0 := rfl
    rw [h0, Int.add_zero]
    by_cases hm : m = 0
    · subst hm
      have h1 : signedInt s (0 * 2 ^ (e - -1074).toNat) = 0 := by cases s <;> simp [signedInt]
      rw [if_pos h1]
      cases s <;> decide
    · have h2 : m * 2 ^ (e - -1074).toNat ≠ 0 := Nat.mul_ne_zero hm (by omega)
      have h3 : (signedInt s (m * 2 ^ (e - -1074).toNat)).natAbs = m * 2 ^ (e - -1074).toNat := by
        generalize m * 2 ^ (e - -1074).toNat = M
        cases s <;> simp [signedInt]
      have h4 : decide (signedInt s (m * 2 ^ (e - -1074).toNat) < 0) = s := by
        cases s
        · apply decide_eq_false; simp only [signedInt, Bool.false_eq_true, if_false]; omega
        · apply decide_eq_true; simp only [signedInt, if_true]; omega
      have h5 : signedInt s (m * 2 ^ (e - -1074).toNat) ≠ 0 := by
        intro h; rw [h] at h3; simp only [Int.natAbs_zero] at h3; exact h2 h3.symm
      rw [if_neg h5, h3, h4, hard_roundF64 s h2, decide_eq_true (show m ≠ 0 from hm), Bool.and_true]

/-- What a function of TRIG can answer (R12, R167): the canonical NaN, for a NaN argument always; otherwise the
parameter's own value. -/
theorem trigValue_cases (f : F64 → F64) (x : F64) :
    trigValue f x = qNaN ∨ isNaN x = false ∧ isNaN (f x) = false ∧ trigValue f x = f x := by
  unfold trigValue canonNaN
  cases isNaN x <;> cases isNaN (f x) <;> simp

theorem trigValue_nan (f : F64 → F64) {x : F64} (h : isNaN x = true) : trigValue f x = qNaN := by
  rw [trigValue, if_pos h]

/-- A NaN message stays one through tanh (R167). -/
theorem trigTanh_nan (T : Config.Trig) {x : F64} (h : isNaN x = true) : trigTanh T x = qNaN := trigValue_nan _ h

/-- A NaN product stays one through atanh (R167). -/
theorem trigAtanh_nan (T : Config.Trig) {x : F64} (h : isNaN x = true) : trigAtanh T x = qNaN := by
  have h1 : x ≠ oneF64 := by rintro rfl; exact absurd h (by decide)
  have h2 : x ≠ negOneF64 := by rintro rfl; exact absurd h (by decide)
  rw [trigAtanh, if_neg h1, if_neg h2, trigValue_nan _ h]

end Sys2Proof.Machine
end

