-- ==== Sys2Proof/Laws/PerInstr.lean ====
section
/-! SUPPORT. Per-instruction facts about the encoding (spec 30_encoding R90, R102). -/

namespace Sys2Proof.Laws.EncodeFields

/-- The three fields of a command's encoding are its opcode, its flags and zero. -/
def Statement (i : Instr) : Prop :=
  opField (encode i) = i.opcode ∧ flField (encode i) = i.flags ∧ rsvField (encode i) = 0

theorem nop : Statement .nop := by
  simp only [Statement]; decide

theorem fft : Statement .fft := by
  simp only [Statement]; decide

theorem ifft : Statement .ifft := by
  simp only [Statement]; decide

theorem ldpcEncode : Statement .ldpcEncode := by
  simp only [Statement]; decide

theorem ldpcDecode (maskEn : Bool) : Statement (.ldpcDecode maskEn) := by
  cases maskEn <;> (simp only [Statement]; decide)

theorem crc14Gen : Statement .crc14Gen := by
  simp only [Statement]; decide

theorem crc14Check : Statement .crc14Check := by
  simp only [Statement]; decide

theorem mixDown : Statement .mixDown := by
  simp only [Statement]; decide

theorem symbolTones (mode : Mode) : Statement (.symbolTones mode) := by
  cases mode <;> (simp only [Statement]; decide)

theorem syncCount (mode : Mode) : Statement (.syncCount mode) := by
  cases mode <;> (simp only [Statement]; decide)

theorem softBits (mode : Mode) : Statement (.softBits mode) := by
  cases mode <;> (simp only [Statement]; decide)

theorem pack77 : Statement .pack77 := by
  simp only [Statement]; decide

theorem unpack77 (useHt : Bool) : Statement (.unpack77 useHt) := by
  cases useHt <;> (simp only [Statement]; decide)

theorem hashCompute : Statement .hashCompute := by
  simp only [Statement]; decide

theorem hashSave : Statement .hashSave := by
  simp only [Statement]; decide

theorem hashLookup (width : BitVec 2) : Statement (.hashLookup width) := by
  simp only [Statement]; revert width; decide

theorem hashClear : Statement .hashClear := by
  simp only [Statement]; decide

theorem hashSize : Statement .hashSize := by
  simp only [Statement]; decide

end Sys2Proof.Laws.EncodeFields
end

