-- ==== Sys2Proof/Laws/Table.lean ====
section
/-! SUPPORT. The hash-call table: what a save does to a lookup, and the form every save keeps. -/

namespace Sys2Proof.Machine

theorem hashBits_lt {w : Nat} (hw : w ≤ 64) (t : List Char) : hashBits w t < 2 ^ w := by
  unfold hashBits
  rw [Nat.div_lt_iff_lt_mul (Nat.two_pow_pos _), ← Nat.pow_add, Nat.add_sub_cancel' hw]
  exact Nat.mod_lt _ (Nat.two_pow_pos _)

theorem hash10_lt (t : List Char) : hash10 t < 2 ^ 10 := hashBits_lt (by decide) t

theorem hash12_lt (t : List Char) : hash12 t < 2 ^ 12 := hashBits_lt (by decide) t

theorem hash22_lt (t : List Char) : hash22 t < 2 ^ 22 := hashBits_lt (by decide) t

/-! ## The direct-indexed maps -/

/-- A map after an entry is overwritten. -/
theorem getEntry_putEntry (h : Nat) (x : Callsign) (map : List (Nat × Callsign)) (k : Nat) :
    getEntry (putEntry h x map) k = if k = h then some x else getEntry map k := by
  induction map with
  | nil => simp only [putEntry, getEntry, eq_comm]
  | cons p rest ih =>
    obtain ⟨j, y⟩ := p
    simp only [putEntry]
    split
    · simp only [getEntry, eq_comm]
    · split
      · rename_i h1 h2
        subst h2
        simp only [getEntry]
        by_cases hk : h = k
        · simp [hk]
        · simp [hk, Ne.symm hk]
      · rename_i h1 h2
        simp only [getEntry, ih]
        by_cases hj : j = k
        · subst hj; simp [Ne.symm h2]
        · simp [hj]

theorem getEntry_saveEntry (h : Nat) (x : Callsign) (map : List (Nat × Callsign)) (k : Nat) :
    getEntry (saveEntry h x map) k = if k = h then some x else getEntry map k := by
  unfold saveEntry
  split
  · rename_i hx
    split
    · rename_i hk; rw [hk, hx]
    · rfl
  · exact getEntry_putEntry h x map k

theorem mem_putEntry {h : Nat} {x : Callsign} {map : List (Nat × Callsign)} {p : Nat × Callsign}
    (hp : p ∈ putEntry h x map) : p = (h, x) ∨ p ∈ map := by
  induction map with
  | nil => simpa [putEntry] using hp
  | cons q rest ih =>
    simp only [putEntry] at hp
    split at hp
    · simpa using hp
    · split at hp
      · simp only [List.mem_cons] at hp ⊢; tauto
      · simp only [List.mem_cons] at hp ⊢
        rcases hp with hp | hp
        · tauto
        · rcases ih hp with h1 | h1 <;> tauto

theorem pairwise_putEntry {h : Nat} {x : Callsign} {map : List (Nat × Callsign)}
    (hm : map.Pairwise fun p q => p.1 < q.1) : (putEntry h x map).Pairwise fun p q => p.1 < q.1 := by
  induction map with
  | nil => simp [putEntry]
  | cons q rest ih =>
    obtain ⟨k, y⟩ := q
    simp only [List.pairwise_cons] at hm
    simp only [putEntry]
    split
    · rename_i hk
      refine List.pairwise_cons.mpr ⟨fun p hp => ?_, List.pairwise_cons.mpr hm⟩
      rcases List.mem_cons.mp hp with rfl | hp
      · exact hk
      · exact lt_trans hk (hm.1 p hp)
    · split
      · rename_i h1 h2
        subst h2
        exact List.pairwise_cons.mpr hm
      · rename_i h1 h2
        refine List.pairwise_cons.mpr ⟨fun p hp => ?_, ih hm.2⟩
        rcases mem_putEntry hp with rfl | hp
        · show k < h; omega
        · exact hm.1 p hp

/-- A save keeps the form of a direct-indexed map. -/
theorem mapWf_saveEntry {w : Nat} (hw : w ≤ 64) {x : Callsign} (hx : validCallsign x = true)
    {map : List (Nat × Callsign)} (hm : mapWf w map = true) : mapWf w (saveEntry (hashBits w x) x map) = true := by
  unfold saveEntry
  split
  · exact hm
  simp only [mapWf, Bool.and_eq_true, decide_eq_true_eq, List.all_eq_true] at hm ⊢
  refine ⟨pairwise_putEntry hm.1, fun p hp => ?_⟩
  rcases mem_putEntry hp with rfl | hp
  · exact ⟨⟨hashBits_lt hw x, by simp⟩, hx⟩
  · exact hm.2 p hp

/-! ## HT22 -/

theorem any_snd_iff (list : List (Nat × Callsign)) (x : Callsign) :
    (list.any fun p => p.2 == x) = true ↔ x ∈ list.map Prod.snd := by
  simp [List.any_eq_true]

theorem mem_dropLast_of {α : Type} {a : α} {l : List α} (h : a ∈ l.dropLast) : a ∈ l :=
  List.mem_of_mem_dropLast h

/-- A save keeps the form of HT22. -/
theorem listWf_saveFront {x : Callsign} (hx : validCallsign x = true) {list : List (Nat × Callsign)}
    (hm : listWf list = true) : listWf (saveFront x list) = true := by
  unfold saveFront
  split
  · exact hm
  rename_i hnew
  rw [any_snd_iff] at hnew
  simp only [listWf, Bool.and_eq_true, decide_eq_true_eq, List.all_eq_true] at hm ⊢
  obtain ⟨⟨h1, h2⟩, h3⟩ := hm
  split
  · rename_i hfull
    refine ⟨⟨?_, ?_⟩, ?_⟩
    · simp only [List.length_cons, List.length_dropLast, hfull]; decide
    · rw [List.map_cons, List.nodup_cons, List.map_dropLast]
      exact ⟨fun h => hnew (mem_dropLast_of h), h2.sublist (List.dropLast_sublist _)⟩
    · intro p hp
      rcases List.mem_cons.mp hp with rfl | hp
      · exact ⟨by simp, hx⟩
      · exact h3 p (mem_dropLast_of hp)
  · rename_i hfull
    refine ⟨⟨?_, ?_⟩, ?_⟩
    · simp only [List.length_cons]; omega
    · rw [List.map_cons, List.nodup_cons]; exact ⟨hnew, h2⟩
    · intro p hp
      rcases List.mem_cons.mp hp with rfl | hp
      · exact ⟨by simp, hx⟩
      · exact h3 p hp

/-! ## The table -/

/-- A save of a valid callsign keeps the table's form. -/
theorem wf_save {t : HashTable} (h : t.wf = true) {x : Callsign} (hx : validCallsign x = true) :
    (t.save x).wf = true := by
  simp only [HashTable.wf, Bool.and_eq_true] at h ⊢
  exact ⟨⟨mapWf_saveEntry (by decide) hx h.1.1, mapWf_saveEntry (by decide) hx h.1.2⟩, listWf_saveFront hx h.2⟩

theorem wf_empty : HashTable.empty.wf = true := by decide

theorem getEntry_mem {map : List (Nat × Callsign)} {h : Nat} {x : Callsign} (hx : getEntry map h = some x) :
    (h, x) ∈ map := by
  induction map with
  | nil => simp [getEntry] at hx
  | cons p rest ih =>
    obtain ⟨k, y⟩ := p
    simp only [getEntry] at hx
    split at hx
    · rename_i hk
      simp only [Option.some.injEq] at hx
      subst hk hx
      exact List.mem_cons_self ..
    · exact List.mem_cons_of_mem _ (ih hx)

theorem validCallsign_length {x : List Char} (h : validCallsign x = true) : x.length ≤ 11 := by
  simp only [validCallsign, Bool.and_eq_true, decide_eq_true_eq] at h
  exact h.1.2

/-- Every callsign a lookup finds has the form the table stores. -/
theorem valid_of_lookup {t : HashTable} (h : t.wf = true) {k : Nat} {x : Callsign} :
    (t.lookup10 k = some x → validCallsign x = true) ∧ (t.lookup12 k = some x → validCallsign x = true) ∧
      (t.lookup22 k = some x → validCallsign x = true) := by
  simp only [HashTable.wf, mapWf, listWf, Bool.and_eq_true, List.all_eq_true] at h
  obtain ⟨⟨⟨-, h10⟩, -, h12⟩, -, h22⟩ := h
  exact ⟨fun hx => (h10 _ (getEntry_mem hx)).2, fun hx => (h12 _ (getEntry_mem hx)).2,
    fun hx => (h22 _ (getEntry_mem hx)).2⟩

theorem length_lookup {t : HashTable} (h : t.wf = true) {width : BitVec 2} {k : Nat} {x : Callsign}
    (hx : t.lookup width k = some x) : x.length ≤ 11 := by
  have hv := valid_of_lookup h (k := k) (x := x)
  unfold HashTable.lookup at hx
  split at hx
  · exact validCallsign_length (hv.1 hx)
  · exact validCallsign_length (hv.2.1 hx)
  · exact validCallsign_length (hv.2.2 hx)

end Sys2Proof.Machine
end

