-- ==== Sys2Proof/Laws/Text.lean ====
section
/-! SUPPORT. Bit fields and alphabets: a field holds what was put in it, and a number's text gives the number's
characters back. -/

namespace Sys2Proof.Machine

/-! ## Bit fields -/

theorem bitsNat_append (a b : List Bool) : bitsNat (a ++ b) = bitsNat a * 2 ^ b.length + bitsNat b := by
  have h : ∀ (b : List Bool) (n : Nat),
      b.foldl (fun acc c => 2 * acc + c.toNat) n = n * 2 ^ b.length + bitsNat b := by
    intro b
    induction b with
    | nil => intro n; simp [bitsNat]
    | cons c b ih =>
      intro n
      simp only [List.foldl_cons, List.length_cons, bitsNat, Nat.mul_zero, Nat.zero_add]
      rw [ih, ih c.toNat, Nat.pow_succ]
      ring
  rw [bitsNat, List.foldl_append, h]
  rfl

theorem bitsNat_natBits (n v : Nat) : bitsNat (natBits n v) = v % 2 ^ n := by
  induction n generalizing v with
  | zero => simp [natBits, bitsNat, Nat.mod_one]
  | succ n ih =>
    rw [natBits, bitsNat_append, ih, Nat.pow_succ, Nat.mul_comm (2 ^ n) 2, Nat.mod_mul]
    have h : bitsNat [decide (v % 2 = 1)] = v % 2 := by
      rcases Nat.mod_two_eq_zero_or_one v with h | h <;> simp [bitsNat, h]
    rw [h]
    simp only [List.length_cons, List.length_nil]
    ring

/-- A field that stands between two others. -/
theorem bitField_middle {a b c : List Bool} {i n : Nat} (ha : a.length = i) (hb : b.length = n) :
    bitField (a ++ b ++ c) i n = bitsNat b := by
  subst ha hb
  simp [bitField]

/-! ## Alphabets -/

theorem alphaIdx_lt {A : List Char} {c : Char} (h : c ∈ A) : alphaIdx A c < A.length := List.idxOf_lt_length_of_mem h

theorem alphaChar_alphaIdx {A : List Char} {c : Char} (h : c ∈ A) : alphaChar A (alphaIdx A c) = c := by
  have hl := alphaIdx_lt h
  rw [alphaChar, List.getD_eq_getElem _ _ hl]
  exact List.getElem_idxOf hl

theorem alphaValue_append (A : List Char) (t : List Char) (c : Char) :
    alphaValue A (t ++ [c]) = alphaValue A t * A.length + alphaIdx A c := by
  simp [alphaValue]

/-- The characters of a text's number are the text. -/
theorem alphaText_alphaValue {A : List Char} {t : List Char} (h : ∀ c ∈ t, c ∈ A) :
    alphaText A t.length (alphaValue A t) = t := by
  induction t using List.reverseRecOn with
  | nil => rfl
  | append_singleton t c ih =>
    have hc : alphaIdx A c < A.length := alphaIdx_lt (h c (by simp))
    have hp : 0 < A.length := by omega
    rw [List.length_append, List.length_singleton, alphaText, alphaValue_append]
    have h1 : (alphaValue A t * A.length + alphaIdx A c) / A.length = alphaValue A t := by
      rw [Nat.add_comm, Nat.add_mul_div_right _ _ hp, Nat.div_eq_of_lt hc, Nat.zero_add]
    have h2 : (alphaValue A t * A.length + alphaIdx A c) % A.length = alphaIdx A c := by
      rw [Nat.add_comm, Nat.add_mul_mod_self_right, Nat.mod_eq_of_lt hc]
    rw [h1, h2, ih fun d hd => h d (by simp [hd]), alphaChar_alphaIdx (h c (by simp))]

/-- A text's number has as many digits as the text has characters. -/
theorem alphaValue_lt {A : List Char} {t : List Char} (h : ∀ c ∈ t, c ∈ A) :
    alphaValue A t < A.length ^ t.length := by
  induction t using List.reverseRecOn with
  | nil => simp [alphaValue]
  | append_singleton t c ih =>
    have hc : alphaIdx A c < A.length := alphaIdx_lt (h c (by simp))
    have ht := ih fun d hd => h d (by simp [hd])
    rw [alphaValue_append, List.length_append, List.length_singleton, Nat.pow_succ]
    calc alphaValue A t * A.length + alphaIdx A c < alphaValue A t * A.length + A.length := by omega
      _ = (alphaValue A t + 1) * A.length := by ring
      _ ≤ A.length ^ t.length * A.length := Nat.mul_le_mul_right _ ht

theorem alphaIdx_alphaChar {A : List Char} (hA : A.Nodup) {k : Nat} (h : k < A.length) :
    alphaIdx A (alphaChar A k) = k := by
  rw [alphaChar, List.getD_eq_getElem _ _ h]
  exact hA.idxOf_getElem k h

/-- The number of the text of a number, where the text has room for it. -/
theorem alphaValue_alphaText {A : List Char} (hA : A.Nodup) (h0 : 0 < A.length) {n v : Nat}
    (h : v < A.length ^ n) : alphaValue A (alphaText A n v) = v := by
  induction n generalizing v with
  | zero => simp only [Nat.pow_zero, Nat.lt_one_iff] at h; subst h; rfl
  | succ n ih =>
    rw [alphaText, alphaValue_append, ih (Nat.div_lt_of_lt_mul (by rwa [Nat.pow_succ'] at h)),
      alphaIdx_alphaChar hA (Nat.mod_lt _ h0), Nat.div_add_mod']

end Sys2Proof.Machine
end

