-- ==== Sys2Proof/Laws/Transform.lean ====
section
/-! SUPPORT. The elements of a complex array, through every way the transforms build one. -/

namespace Sys2Proof.Machine

theorem celem_toArray (x : List Cplx) (k : Nat) : celem x.toArray k = elemAt x k := by
  simp [celem, elemAt, Array.getD_eq_getD_getElem?, List.getD_eq_getElem?_getD]

theorem elemAt_map_range (f : Nat → Cplx) {n k : Nat} (h : k < n) : elemAt ((List.range n).map f) k = f k := by
  simp [elemAt, List.getD_eq_getElem?_getD, h]

theorem elemAt_map (f : Cplx → Cplx) {x : List Cplx} {k : Nat} (h : k < x.length) :
    elemAt (x.map f) k = f (elemAt x k) := by
  simp [elemAt, List.getD_eq_getElem?_getD, h]

theorem elemAt_zipWith (f : Cplx → Cplx → Cplx) {x y : List Cplx} {k : Nat} (h : k < x.length) (h' : k < y.length) :
    elemAt (List.zipWith f x y) k = f (elemAt x k) (elemAt y k) := by
  simp [elemAt, List.getD_eq_getElem?_getD, h, h']

/-- One more round of a fold over the first numbers. -/
theorem foldl_range_succ {α : Type} (f : α → Nat → α) (a : α) (n : Nat) :
    (List.range (n + 1)).foldl f a = f ((List.range n).foldl f a) n := by
  rw [List.range_succ, List.foldl_append]; rfl

end Sys2Proof.Machine
end

