-- ==== Sys2Proof/Laws/Writes.lean ====
section
/-! SUPPORT. What a command that completes writes: runs inside its output ranges, which fit in the data memory, and
a hash-call table that is the old one, the old one with a save, or the empty one. -/

namespace Sys2Proof.Machine

/-- The bounds of a command's effect. -/
structure GoodEffect (i : Instr) (s : State) (eff : Effect) : Prop where
  fits : ∀ r ∈ outputRanges i s.snapshot, r.base + r.len ≤ Config.dmemWords
  writes : ∀ run ∈ eff.writes, ∃ r ∈ outputRanges i s.snapshot, run.1 = r.base ∧ run.2.length ≤ r.len
  table : eff.ht = s.ht ∨ (∃ x, validCallsign x = true ∧ eff.ht = s.ht.save x) ∨ eff.ht = HashTable.empty

theorem fits_of_checkRanges {ins outs : List Range} {u : Unit} (h : checkRanges ins outs = .ok u) :
    ∀ r ∈ outs, r.base + r.len ≤ Config.dmemWords :=
  fun r hr => (checkRanges_ok_iff.mp h).1 r (List.mem_append_right _ hr)

theorem canon_valid {t : List Char} {x : Callsign} (h : canon t = some x) : validCallsign x = true := by
  unfold canon at h
  dsimp only at h
  split at h
  · rename_i hv
    simp only [Option.some.injEq] at h
    rw [← h]; exact hv
  · simp at h

theorem learnedCall_valid {tok : Token} {x : Callsign} (h : learnedCall tok = some x) : validCallsign x = true := by
  cases tok with
  | standard u =>
    simp only [learnedCall] at h
    split at h
    · simp only [Option.some.injEq] at h; rw [← h]; assumption
    · simp at h
  | special u => simp [learnedCall] at h
  | unused => simp [learnedCall] at h
  | hashed k => simp [learnedCall] at h

theorem unpack_learn_valid {l22 l12 : Nat → Option Callsign} {m : List Bool} {u : Unpacked}
    (h : unpack l22 l12 m = some u) {x : Callsign} (hx : u.learn = some x) : validCallsign x = true := by
  simp only [unpack] at h
  split at h
  · simp only [unpackFree] at h
    split at h
    · simp at h
    · simp only [Option.some.injEq] at h; subst h; simp at hx
  split at h
  · simp only [unpackStandard, bind, Option.bind_eq_some_iff] at h
    obtain ⟨w1, -, w2, -, ext, -, h⟩ := h
    simp only [Option.some.injEq] at h
    subst h
    exact learnedCall_valid hx
  split at h
  · simp only [unpackHashed] at h
    split at h
    · simp at h
    · split at h <;> simp only [Option.some.injEq] at h <;> subst h <;> simp at hx
  · simp at h

/-- An unpacked text is at most 34 characters long (R275). -/
theorem length_unpackWith_le {t : HashTable} (ht : t.wf = true) {useHt : Bool} {m : List Bool} {u : Unpacked}
    (h : unpackWith useHt t m = some u) : u.text.length ≤ 34 := by
  have hv := fun k x => valid_of_lookup ht (k := k) (x := x)
  unfold unpackWith at h
  split at h
  · exact length_unpack_le (fun k x hx => validCallsign_length ((hv k x).2.2 hx))
      (fun k x hx => validCallsign_length ((hv k x).2.1 hx)) h
  · exact length_unpack_le (fun k x hx => by simp at hx) (fun k x hx => by simp at hx) h

theorem unpackWith_learn_valid {t : HashTable} {useHt : Bool} {m : List Bool} {u : Unpacked}
    (h : unpackWith useHt t m = some u) {x : Callsign} (hx : u.learn = some x) : validCallsign x = true := by
  unfold unpackWith at h
  split at h <;> exact unpack_learn_valid h hx

theorem goodEffect_transform {f : Nat → List Cplx → List Cplx} (hf : ∀ N x, (f N x).length = N) {s : State}
    {eff : Effect} (h : transformCommand f s = .ok eff) : GoodEffect .fft s eff ∧ eff.ht = s.ht := by
  simp only [transformCommand, bind_ok_iff] at h
  obtain ⟨_, _, _, _, _, hc, xr, _, xi, _, h⟩ := h
  simp only [Except.ok.injEq] at h
  subst h
  refine ⟨⟨fits_of_checkRanges hc, ?_, .inl rfl⟩, rfl⟩
  intro run hr
  simp only [List.mem_cons, List.not_mem_nil, or_false] at hr
  rcases hr with rfl | rfl
  · exact ⟨rangeAt s.snapshot 0 (argNat s.snapshot 2), by simp [outputRanges], rfl, by simp [hf, rangeAt]⟩
  · exact ⟨rangeAt s.snapshot 1 (argNat s.snapshot 2), by simp [outputRanges], rfl, by simp [hf, rangeAt]⟩

theorem goodEffect_of_run {i : Instr} {s : State} {eff : Effect} {r : Range} {ins : List Range} {u : Unit}
    (hc : checkRanges ins (outputRanges i s.snapshot) = .ok u) (hr : r ∈ outputRanges i s.snapshot)
    (hw : ∀ run ∈ eff.writes, run.1 = r.base ∧ run.2.length ≤ r.len)
    (ht : eff.ht = s.ht ∨ (∃ x, validCallsign x = true ∧ eff.ht = s.ht.save x) ∨ eff.ht = HashTable.empty) :
    GoodEffect i s eff :=
  ⟨fits_of_checkRanges hc, fun run h => ⟨r, hr, hw run h⟩, ht⟩

theorem goodEffect_none {i : Instr} {s : State} {eff : Effect} (ho : outputRanges i s.snapshot = [])
    (hw : eff.writes = [])
    (ht : eff.ht = s.ht ∨ (∃ x, validCallsign x = true ∧ eff.ht = s.ht.save x) ∨ eff.ht = HashTable.empty) :
    GoodEffect i s eff := by
  refine ⟨fun r hr => ?_, fun run h => ?_, ht⟩
  · rw [ho] at hr; simp at hr
  · rw [hw] at h; simp at h

theorem length_crcBits (r : BitVec 14) : (crcBits r).length = 14 := length_natBits ..

theorem length_readMask {maskEn : Bool} {m : Memory} {a : Nat} {ap : List Bool}
    (h : readMask maskEn m a = .ok ap) : ap.length = 174 := by
  unfold readMask at h
  split at h
  · exact readAll_length h
  · simp only [Except.ok.injEq] at h; rw [← h, List.length_replicate]

/-- The bounds of what any command that completes writes. -/
theorem goodEffect_ruleOf {i : Instr} {s : State} {eff : Effect} (ht : s.ht.wf = true)
    (h : ruleOf i s = .ok eff) : GoodEffect i s eff := by
  cases i with
  | nop =>
    simp only [ruleOf, nopRule, Except.ok.injEq] at h; subst h
    exact goodEffect_none rfl rfl (.inl rfl)
  | fft => exact (goodEffect_transform (length_forwardTransform Config.trig) h).1
  | ifft =>
    have hg := (goodEffect_transform (length_inverseTransform Config.trig) h).1
    exact ⟨hg.fits, hg.writes, hg.table⟩
  | ldpcEncode =>
    simp only [ruleOf, ldpcEncodeRule, bind_ok_iff] at h
    obtain ⟨_, hc, u, hu, h⟩ := h
    simp only [Except.ok.injEq] at h; subst h
    refine goodEffect_of_run hc (r := rangeAt s.snapshot 1 174) (by simp [outputRanges]) ?_ (.inl rfl)
    intro run hr
    simp only [List.mem_singleton] at hr; subst hr
    exact ⟨rfl, by rw [List.length_map, length_codeword, readAll_length hu]; exact Nat.le_refl _⟩
  | ldpcDecode maskEn =>
    simp only [ruleOf, ldpcDecodeRule, bind_ok_iff] at h
    obtain ⟨_, hc, ap, _, llr, _, h⟩ := h
    simp only [Except.ok.injEq] at h; subst h
    refine goodEffect_of_run hc (r := rangeAt s.snapshot 2 174) (by simp [outputRanges]) ?_ ?_
    · intro run hr
      unfold decodeEffect at hr
      split at hr
      · rename_i cw hcw
        simp only [List.mem_singleton] at hr; subst hr
        exact ⟨rfl, by rw [List.length_map, length_decodeMetrics hcw]; exact Nat.le_refl _⟩
      · simp at hr
    · unfold decodeEffect; split <;> exact .inl rfl
  | crc14Gen =>
    simp only [ruleOf, crc14GenRule, bind_ok_iff] at h
    obtain ⟨_, hc, m, _, h⟩ := h
    simp only [Except.ok.injEq] at h; subst h
    refine goodEffect_of_run hc (r := rangeAt s.snapshot 1 14) (by simp [outputRanges]) ?_ (.inl rfl)
    intro run hr
    simp only [List.mem_singleton] at hr; subst hr
    exact ⟨rfl, by rw [List.length_map, length_crcBits]; exact Nat.le_refl _⟩
  | crc14Check =>
    simp only [ruleOf, crc14CheckRule, bind_ok_iff] at h
    obtain ⟨_, _, w, _, h⟩ := h
    simp only [Except.ok.injEq] at h; subst h
    exact goodEffect_none rfl rfl (.inl rfl)
  | mixDown =>
    simp only [ruleOf, mixDownRule, bind_ok_iff] at h
    obtain ⟨_, _, _, _, _, hc, y, _, h⟩ := h
    simp only [Except.ok.injEq] at h; subst h
    refine ⟨fits_of_checkRanges hc, fun run hr => ?_, .inl rfl⟩
    simp only [List.mem_cons, List.not_mem_nil, or_false] at hr
    rcases hr with rfl | rfl
    · exact ⟨rangeAt s.snapshot 5 (argNat s.snapshot 4), by simp [outputRanges], rfl,
        by simp [length_inverseTransform, rangeAt]⟩
    · exact ⟨rangeAt s.snapshot 6 (argNat s.snapshot 4), by simp [outputRanges], rfl,
        by simp [length_inverseTransform, rangeAt]⟩
  | symbolTones mode =>
    simp only [ruleOf, symbolTonesRule, bind_ok_iff] at h
    obtain ⟨_, _, _, _, _, hc, zs, hz, h⟩ := h
    simp only [Except.ok.injEq] at h; subst h
    refine goodEffect_of_run hc (r := rangeAt s.snapshot 6 (2 * tones mode * argNat s.snapshot 5))
      (by simp [outputRanges]) ?_ (.inl rfl)
    intro run hr
    simp only [List.mem_singleton] at hr; subst hr
    refine ⟨rfl, ?_⟩
    have := length_symbolTones hz
    rw [length_interleave, Nat.mul_assoc]
    exact Nat.mul_le_mul_left 2 this
  | syncCount mode =>
    simp only [ruleOf, syncCountRule, bind_ok_iff] at h
    obtain ⟨_, _, per, _, h⟩ := h
    simp only [Except.ok.injEq] at h; subst h
    exact goodEffect_none rfl rfl (.inl rfl)
  | softBits mode =>
    simp only [ruleOf, softBitsRule, bind_ok_iff] at h
    obtain ⟨_, hc, bs, hb, h⟩ := h
    simp only [Except.ok.injEq] at h; subst h
    refine goodEffect_of_run hc (r := rangeAt s.snapshot 1 (174 * metricArrays mode)) (by simp [outputRanges]) ?_
      (.inl rfl)
    intro run hr
    simp only [List.mem_singleton] at hr; subst hr
    exact ⟨rfl, by rw [length_metricWords hb]; exact Nat.le_refl _⟩
  | pack77 =>
    simp only [ruleOf, pack77Rule, bind_ok_iff] at h
    obtain ⟨_, _, _, hc, t, _, h⟩ := h
    simp only [Except.ok.injEq] at h; subst h
    refine goodEffect_of_run hc (r := rangeAt s.snapshot 2 77) (by simp [outputRanges]) ?_ ?_
    · intro run hr
      unfold packEffect at hr
      split at hr
      · simp at hr
      · simp only [List.mem_singleton] at hr; subst hr
        exact ⟨rfl, by rw [List.length_map, length_pack]; exact Nat.le_refl _⟩
    · unfold packEffect; split <;> exact .inl rfl
  | unpack77 useHt =>
    simp only [ruleOf, unpack77Rule, bind_ok_iff, require_ok_iff, decide_eq_true_eq] at h
    obtain ⟨_, hcap, _, hc, m, _, h⟩ := h
    simp only [Except.ok.injEq] at h; subst h
    refine goodEffect_of_run hc (r := rangeAt s.snapshot 1 (argNat s.snapshot 2)) (by simp [outputRanges]) ?_ ?_
    · intro run hr
      unfold unpackEffect at hr
      have hcap' : 40 ≤ argNat s.snapshot 2 := hcap
      split at hr
      · simp at hr
      · rename_i u hu
        have hl := length_unpackWith_le ht hu
        split at hr <;>
        · simp only [List.mem_singleton] at hr; subst hr
          refine ⟨rfl, ?_⟩
          simp only [List.length_map, rangeAt]; omega
    · unfold unpackEffect
      split
      · exact .inl rfl
      · rename_i u hu
        split
        · exact .inl rfl
        · rename_i x hx
          refine .inr (.inl ⟨x, ?_, rfl⟩)
          unfold learning at hx
          split at hx
          · exact unpackWith_learn_valid hu hx
          · simp at hx
  | hashCompute =>
    simp only [ruleOf, hashComputeRule, bind_ok_iff] at h
    obtain ⟨_, _, _, _, t, _, _, _, h⟩ := h
    simp only [Except.ok.injEq] at h; subst h
    exact goodEffect_none rfl rfl (.inl rfl)
  | hashSave =>
    simp only [ruleOf, hashSaveRule, bind_ok_iff] at h
    obtain ⟨_, _, _, _, t, _, h⟩ := h
    simp only [Except.ok.injEq] at h; subst h
    unfold saveEffect
    split
    · exact goodEffect_none rfl rfl (.inl rfl)
    · rename_i x hx
      exact goodEffect_none rfl rfl (.inr (.inl ⟨x, canon_valid hx, rfl⟩))
  | hashLookup width =>
    simp only [ruleOf, hashLookupRule] at h
    split at h
    · simp at h
    simp only [bind_ok_iff, require_ok_iff, decide_eq_true_eq] at h
    obtain ⟨_, _, _, hcap, _, hc, h⟩ := h
    simp only [Except.ok.injEq] at h; subst h
    refine goodEffect_of_run hc (r := rangeAt s.snapshot 1 (argNat s.snapshot 2)) (by simp [outputRanges]) ?_ ?_
    · intro run hr
      unfold lookupEffect at hr
      split at hr
      · simp at hr
      · rename_i x hx
        simp only [List.mem_singleton] at hr; subst hr
        refine ⟨rfl, ?_⟩
        have := length_lookup ht hx
        simp only [List.length_map, rangeAt]; omega
    · unfold lookupEffect; split <;> exact .inl rfl
  | hashClear =>
    simp only [ruleOf, hashClearRule, Except.ok.injEq] at h; subst h
    exact goodEffect_none rfl rfl (.inr (.inr rfl))
  | hashSize =>
    simp only [ruleOf, hashSizeRule, Except.ok.injEq] at h; subst h
    exact goodEffect_none rfl rfl (.inl rfl)

end Sys2Proof.Machine
end

