-- ==== Sys2Proof/Tests/Slice0.lean ====
section
/-! SUPPORT. Tests of the model: the encoding word by word, one step of every command against the vectors of spec
95_test_vectors, and for every statement with hypotheses a state and operands that meet them. -/

namespace Sys2Proof.Tests

open Sys2Proof.Machine

-- One theorem at a time: the kernel's evaluations would otherwise each hold a thread.
set_option Elab.async false

/-! ## Helpers -/

/-- A machine busy with a command word and its arguments, from reset, with the given data memory. -/
def busyWith (w : Word32) (args : List Nat) (mem : Memory) : State :=
  { State.reset with
    cmd := w
    status := { Status.reset with lastOp := opField w }
    args := results args
    phase := .busy w (results args)
    dmem := mem }

/-- A machine busy with a command. -/
def running (i : Instr) (args : List Nat) (mem : Memory) : State := busyWith (encode i) args mem

/-- An idle machine after reset whose host has the given accesses to make. -/
def hosting (bus : List BusEvent) : State := { State.reset with bus := bus }

/-- The state an outcome goes on with; none for a fault or a refusal. -/
def after (o : Host.Outcome State Fault Refusal) : Option State :=
  match o with
  | .next t => some t
  | .fault _ => none
  | .refused _ => none

/-- The fault an outcome stops with. -/
def faultOf (o : Host.Outcome State Fault Refusal) : Option Fault :=
  match o with
  | .next _ => none
  | .fault f => some f
  | .refused _ => none

/-- The results and STATUS after a step of a machine. -/
def report (s : State) : Option (Regs8 × Word32) := (after (step s)).map fun t => (t.res, t.statusWord)

/-- A bit array from a text of digits. -/
def bits (t : String) : List Bool := t.toList.map fun c => c == '1'

/-- A text as the words that hold it. -/
def text (t : String) : List Word64 := t.toList.map charWord

/-- The data memory with one run of words. -/
def mem (a : Nat) (ws : List Word64) : Memory := writeWords [] a ws

/-- The payload of "CQ K1ABC FN42" (vector V40). -/
def payload40 : List Bool :=
  bits "00000000000000000000000000100000010011011110111100011010100010100001100110001"

/-! ## The check of WellFormed -/

theorem test_reserved_width_is_refused : (Instr.hashLookup 3).wellFormed = false := by decide

theorem test_other_widths_are_well_formed : ∀ width : BitVec 2, width ≠ 3 → (Instr.hashLookup width).wellFormed = true := by
  decide

/-! ## Decoding: the words of R95 with the flags of R92, written out field by field (RSV, FL, OP) -/

theorem test_decode_nop : decode 0b00000000000000000000_0000_00000000 = .ok .nop := by decide
theorem test_decode_fft : decode 0b00000000000000000000_0000_00000001 = .ok .fft := by decide
theorem test_decode_ifft : decode 0b00000000000000000000_0000_00000010 = .ok .ifft := by decide
theorem test_decode_ldpcEncode : decode 0b00000000000000000000_0000_00010000 = .ok .ldpcEncode := by decide
theorem test_decode_ldpcDecode : decode 0b00000000000000000000_0000_00010001 = .ok (.ldpcDecode false)
    ∧ decode 0b00000000000000000000_0001_00010001 = .ok (.ldpcDecode true) := by decide
theorem test_decode_crc14Gen : decode 0b00000000000000000000_0000_00010010 = .ok .crc14Gen := by decide
theorem test_decode_crc14Check : decode 0b00000000000000000000_0000_00010011 = .ok .crc14Check := by decide
theorem test_decode_mixDown : decode 0b00000000000000000000_0000_00100000 = .ok .mixDown := by decide
theorem test_decode_symbolTones : decode 0b00000000000000000000_0000_00100001 = .ok (.symbolTones .ft8)
    ∧ decode 0b00000000000000000000_0001_00100001 = .ok (.symbolTones .ft4) := by decide
theorem test_decode_syncCount : decode 0b00000000000000000000_0000_00100010 = .ok (.syncCount .ft8)
    ∧ decode 0b00000000000000000000_0001_00100010 = .ok (.syncCount .ft4) := by decide
theorem test_decode_softBits : decode 0b00000000000000000000_0000_00100011 = .ok (.softBits .ft8)
    ∧ decode 0b00000000000000000000_0001_00100011 = .ok (.softBits .ft4) := by decide
theorem test_decode_pack77 : decode 0b00000000000000000000_0000_00110000 = .ok .pack77 := by decide
theorem test_decode_unpack77 : decode 0b00000000000000000000_0000_00110001 = .ok (.unpack77 false)
    ∧ decode 0b00000000000000000000_0001_00110001 = .ok (.unpack77 true) := by decide
theorem test_decode_hashCompute : decode 0b00000000000000000000_0000_00111000 = .ok .hashCompute := by decide
theorem test_decode_hashSave : decode 0b00000000000000000000_0000_00111001 = .ok .hashSave := by decide
theorem test_decode_hashLookup : decode 0b00000000000000000000_0000_00111010 = .ok (.hashLookup 0)
    ∧ decode 0b00000000000000000000_0001_00111010 = .ok (.hashLookup 1)
    ∧ decode 0b00000000000000000000_0010_00111010 = .ok (.hashLookup 2)
    ∧ decode 0b00000000000000000000_0011_00111010 = .error .arg := by decide
theorem test_decode_hashClear : decode 0b00000000000000000000_0000_00111011 = .ok .hashClear := by decide
theorem test_decode_hashSize : decode 0b00000000000000000000_0000_00111100 = .ok .hashSize := by decide

/-- Vectors V81 to V88. -/
theorem test_decode_refusals :
    decode 0x00000003 = .error .opcode ∧ decode 0x00001003 = .error .opcode ∧ decode 0x00001001 = .error .reserved
      ∧ decode 0x00000101 = .error .reserved ∧ decode 0x00000438 = .error .reserved
      ∧ decode 0x0000033A = .error .arg ∧ decode 0x000000FF = .error .opcode
      ∧ decode 0x0000003D = .error .opcode := by decide

theorem test_decodeTableWord : decodeTableWord 32 0x23A = some (.hashLookup 2) ∧ decodeTableWord 32 3 = none := by
  decide

/-- STATUS after the refused words of vectors V82, V83 and V86. -/
theorem test_refused_words_status :
    report (busyWith 0x00001003 [] []) = some (Regs8.zero, 0x00030106)
      ∧ report (busyWith 0x00001001 [] []) = some (Regs8.zero, 0x00010206)
      ∧ report (busyWith 0x0000033A [] []) = some (Regs8.zero, 0x003A0306) := by decide +kernel

/-! ## One step of every command -/

/-- Vector V80. -/
theorem test_nop : report (running .nop [] []) = some (results [1], 0x0000000A) := by decide +kernel

/-- Vector V1: one element stays as it is. -/
theorem test_fft_one :
    (after (exec .fft (running .fft [0, 1, 1] (mem 0 [0x4014000000000000, 0xC008000000000000])))).map
        (fun t => (t.res, readWord t.dmem 0, readWord t.dmem 1))
      = some (results [1, 0, 1], some 0x4014000000000000, some 0xC008000000000000) := by decide +kernel

/-- Vector V14: the error codes of the transforms, in order of the checks. -/
theorem test_fft_errors :
    report (running .fft [0, 2, 0] []) = some (Regs8.zero, 0x00010406)
      ∧ report (running .fft [0, 2, 262145] []) = some (Regs8.zero, 0x00010406)
      ∧ report (running .fft [0, 2, 4] []) = some (Regs8.zero, 0x00010606)
      ∧ report (running .fft [524286, 0, 4] []) = some (Regs8.zero, 0x00010506)
      ∧ report (running .fft [0xFFFFFFFF, 0, 1] []) = some (Regs8.zero, 0x00010506) := by decide +kernel

/-- Vector V2, for every TRIG with cos 0 = 1 and sin 0 = 0; and V15a, the NaN of the butterfly. -/
theorem test_radix2_butterfly :
    r2 ⟨fun _ => 0x3FF0000000000000, fun _ => 0, id, id⟩ false 1 [(0x3FF0000000000000, 0), (0x4000000000000000, 0)]
        = [(0x4008000000000000, 0), (0xBFF0000000000000, 0)]
      ∧ r2 ⟨fun _ => 0x3FF0000000000000, fun _ => 0, id, id⟩ false 1 [(0, 0), (0x7FF0000000000000, 0)]
        = [(0x7FF0000000000000, 0x7FF8000000000000), (0xFFF0000000000000, 0x7FF8000000000000)] := by decide +kernel

theorem test_ifft_one :
    (after (exec .ifft (running .ifft [8, 9, 1] (mem 8 [0x4014000000000000, 0xC008000000000000])))).map
        (fun t => (t.res, readWord t.dmem 8, readWord t.dmem 9))
      = some (results [1, 0, 1], some 0x4014000000000000, some 0xC008000000000000) := by decide +kernel

/-- Vector V94: a word that was never written, and one with its low half written only. -/
theorem test_ifft_uninit :
    faultOf (exec .ifft (running .ifft [0, 1, 1] [])) = some .uninitRead
      ∧ faultOf (exec .ifft (running .ifft [0, 1, 1] (writeSpan (mem 1 [0]) 0 (leBytes 4 7)))) = some .uninitRead := by
  decide +kernel

/-- A bit word that is 2 raises ERR_VALUE (R15, R157). -/
theorem test_ldpcEncode_value :
    report (running .ldpcEncode [0, 91] (mem 0 [0, 1, 2])) = some (Regs8.zero, 0x00100706) := by decide +kernel

/-- Vector V39: the output on the metrics. -/
theorem test_ldpcDecode_overlap :
    report (running (.ldpcDecode false) [0, 524288, 100] []) = some (Regs8.zero, 0x00110606)
      ∧ report (running (.ldpcDecode true) [0, 524288, 174] []) = some (Regs8.zero, 0x00110506) := by decide +kernel

/-- A NaN in one bit's message to a check is a NaN in the check's message to the other bit, under a TRIG that is never
a NaN itself; atanh(-1) is clamped (R165, R167). -/
theorem test_ldpcDecode_nan :
    (checkToBit { cos := id, sin := id, tanh := fun _ => oneF64, atanh := fun _ => oneF64 }
        { nm := [[0, 1]], mn := [[0], [0]], gen := [] }
        (tanhMessages { cos := id, sin := id, tanh := fun _ => oneF64, atanh := fun _ => oneF64 }
          [[qNaN, oneF64]])).take 2 = [[fneg bpClamp], [qNaN]] := by decide +kernel

/-- Vector V30: the CRC of V40's payload and its 14 bits, the most significant first. -/
theorem test_crc14_payload40 :
    (crc14 payload40).toNat = 2862 ∧ crcBits (crc14 payload40) = bits "00101100101110" := by decide +kernel

/-- Vector V34: a bit word that is 2, and an output that meets the input. -/
theorem test_crc14Gen_errors :
    report (running .crc14Gen [0, 77] (mem 0 [1, 2])) = some (Regs8.zero, 0x00120706)
      ∧ report (running .crc14Gen [0, 76] []) = some (Regs8.zero, 0x00120606) := by decide +kernel

/-- Vector V33, by the CRC of the payloads with one bit set, and of all ones. -/
theorem test_crc14_values :
    crc14 ((List.replicate 77 false).set 0 true) = 11256 ∧ crc14 ((List.replicate 77 false).set 76 true) = 14452
      ∧ crc14 (List.replicate 77 true) = 1969 ∧ crc14 (List.replicate 77 false) = 0 := by decide +kernel

/-- Vectors V31 and V32: the word with its CRC, and with its first bit flipped. -/
theorem test_crc14Check_word :
    crcOk (payload40 ++ bits "00101100101110") = true
      ∧ crcOk ((payload40 ++ bits "00101100101110").set 0 true) = false
      ∧ (crc14 (payload40.set 0 true)).toNat = 8406 := by decide +kernel

theorem test_crc14Check_value :
    report (running .crc14Check [5] (mem 5 [0, 3])) = some (Regs8.zero, 0x00130706) := by decide +kernel

/-- Vector V18. -/
theorem test_mixDown_errors :
    report (running .mixDown [0, 8, 8, 3, 0, 16, 24] []) = some (Regs8.zero, 0x00200406)
      ∧ report (running .mixDown [0, 8, 8, 3, 9, 16, 24] []) = some (Regs8.zero, 0x00200406)
      ∧ report (running .mixDown [0, 0, 8, 3, 4, 7, 24] []) = some (Regs8.zero, 0x00200606) := by decide +kernel

/-- Vectors V16 and V17: the source bins around the centre bin. -/
theorem test_mix_sources :
    (List.range 4).map (mixSource 8 4 3) = [3, 4, 1, 2] ∧ (List.range 4).map (mixSource 8 4 (-5)) = [3, 4, 1, 2] := by
  decide

/-- Vector V21. -/
theorem test_symbolTones_errors :
    report (running (.symbolTones .ft4) [0, 8, 8, 3, 0, 1, 100] []) = some (Regs8.zero, 0x00210406)
      ∧ report (running (.symbolTones .ft4) [0, 8, 8, 8, 0, 0, 100] []) = some (Regs8.zero, 0x00210406) := by
  decide +kernel

/-- Vector V20: samples before and after the signal read as zero. -/
theorem test_symbolTones_outside :
    symbolSamples (mem 0 [7, 9]) 0 1 1 (-1) 3 = .ok [(0, 0), (7, 9), (0, 0)] := by decide +kernel

/-- The tie of vector V27 picks the first tone; a NaN is never larger (R18, R214). -/
theorem test_syncCount_argmax :
    argmax [0x3FF0000000000000, 0x3FF0000000000000] = 0 ∧ argmax [0, 0x3FF0000000000000, 0x7FF8000000000000] = 1 := by
  decide +kernel

theorem test_syncCount_range :
    report (running (.syncCount .ft8) [523025] []) = some (Regs8.zero, 0x00220506) := by decide +kernel

/-- Vector V28's reason: the metrics of one ideal FT4 symbol carrying Gray code 3, whose tone is 2. -/
theorem test_softBits_ideal_symbol :
    groupMetrics .ft4 [[(0, 0), (0, 0), (0x3FF0000000000000, 0), (0, 0)]]
      = [0x3FF0000000000000, 0x3FF0000000000000] := by decide +kernel

/-- Vector V29d. -/
theorem test_softBits_overlap :
    report (running (.softBits .ft8) [0, 1000] []) = some (Regs8.zero, 0x00230606) := by decide +kernel

/-- Vectors V40 and Q1. -/
theorem test_pack77 :
    pack (normalizedWords "  cq   k1abc  fn42 ".toList) = { bits := payload40, i3 := 1, n3 := 0, form := 1 }
      ∧ report (running .pack77 [0, 13, 100] (mem 0 (text "CQ K1ABC FN42"))) = some (results [1, 1, 0, 1], 0x0030000A) := by
  decide +kernel

/-- RR73 alone is the acknowledgement and after R nothing a standard message holds (R253). -/
theorem test_pack77_rr73 :
    extraTok ["RR73".toList] = some (false, 32403) ∧ extraTok ["R".toList, "RR73".toList] = none
      ∧ extraTok ["R".toList, "FN42".toList] ≠ none := by decide +kernel

/-- Vector V59: an empty message fails without an error; a character word of 200 is an error. -/
theorem test_pack77_fails :
    report (running .pack77 [0, 3, 100] (mem 0 (text "   "))) = some (results [0], 0x00300002)
      ∧ report (running .pack77 [0, 1, 100] (mem 0 [0xC8])) = some (Regs8.zero, 0x00300706) := by decide +kernel

/-- Vectors V40 and V63: unpacked with the table, it teaches K1ABC. Vector V60: DE in the second place fails. -/
theorem test_unpack77 :
    unpackWith true HashTable.empty payload40
        = some { text := "CQ K1ABC FN42".toList, learn := some "K1ABC".toList }
      ∧ unpackWith true HashTable.empty (payload40.take 29 ++ List.replicate 28 false ++ payload40.drop 57) = none := by
  decide +kernel

/-- Vector V62. -/
theorem test_unpack77_errors :
    report (running (.unpack77 false) [0, 100, 39] []) = some (Regs8.zero, 0x00310406)
      ∧ report (running (.unpack77 false) [0, 76, 40] []) = some (Regs8.zero, 0x00310606)
      ∧ report (running (.unpack77 false) [0, 100, 40] (mem 0 [2])) = some (Regs8.zero, 0x00310706) := by decide +kernel

/-- Vector V64, in lower case. -/
theorem test_hashCompute :
    report (running .hashCompute [0, 5] (mem 0 (text "k1abc"))) = some (results [1, 712, 2851, 2920267], 0x0038000A) := by
  decide +kernel

/-- Vector V74. -/
theorem test_hashCompute_value :
    report (running .hashCompute [0, 5] (mem 0 (text "K1.BC"))) = some (Regs8.zero, 0x00380706) := by decide +kernel

/-- Vector V75: the brackets are removed, the letters upper-cased. -/
theorem test_hashSave :
    (after (exec .hashSave (running .hashSave [0, 7] (mem 0 (text "<w9xyz>"))))).map
        (fun t => (t.res, t.ht.ht22)) = some (results [1, 1, 1], [(3982604, "W9XYZ".toList)]) := by decide +kernel

theorem test_hashSave_fails :
    report (running .hashSave [0, 5] (mem 0 (text "<...>"))) = some (results [0], 0x00390002) := by decide +kernel

/-- The table after the saves of vector V77. -/
def table77 : HashTable :=
  ((HashTable.empty.save "A0RWI".toList).save "F0AAA".toList).save "A0RWI".toList

/-- Vector V77: the front pair is found, not the one saved last. -/
theorem test_hashLookup_collision :
    (after (exec (.hashLookup 2) { running (.hashLookup 2) [2261321, 100, 11] [] with ht := table77 })).map
        (fun t => (t.res, readChars t.dmem 100 5)) = some (results [1, 5], .ok "F0AAA".toList)
      ∧ table77.lookup10 552 = some "A0RWI".toList ∧ table77.lookup12 2208 = some "A0RWI".toList := by decide +kernel

/-- Vector V79a. -/
theorem test_hashLookup_errors :
    report (running (.hashLookup 0) [1024, 100, 11] []) = some (Regs8.zero, 0x003A0306)
      ∧ report (running (.hashLookup 0) [5, 100, 10] []) = some (Regs8.zero, 0x003A0406)
      ∧ report (running (.hashLookup 1) [0, 100, 11] []) = some (results [0], 0x003A0002) := by decide +kernel

/-- Vector V79b. -/
theorem test_hashClear :
    (after (exec .hashClear { running .hashClear [] [] with ht := table77 })).map (fun t => (t.res, t.ht))
      = some (results [1], HashTable.empty) := by decide +kernel

/-- Vector V77: HT22 holds both callsigns, the direct maps one. -/
theorem test_hashSize :
    (after (exec .hashSize { running .hashSize [] [] with ht := table77 })).map State.res
      = some (results [1, 2, 1, 1]) := by decide +kernel

/-! ## Witnesses: the command statements -/

/-- The argument checks of a command, from the Boolean checks the machine makes. -/
theorem argsLegal {i : Instr} {args : Regs8} (hw : i.wellFormed = true)
    (hh : ∀ width w, i = .hashLookup width → widthBits width = some w → argNat args 0 < 2 ^ w)
    (hl : LengthsLegal i args) (hf : (inputRanges i args ++ outputRanges i args).all Range.fits = true)
    (ho : overlaps (guardedInputs i args) (outputRanges i args) = false) : ArgsLegal i args :=
  ⟨hw, hh, hl, fun r hr => by simpa [Range.fits] using List.all_eq_true.mp hf r hr, (overlaps_false_iff _ _).mp ho⟩

/-- Arguments that fit the commands on one complex or bit array of a few words, and those on frames. -/
theorem argsLegal_fft : ArgsLegal .fft (results [0, 4, 4]) :=
  argsLegal rfl (fun _ _ h => nomatch h) (by simp only [LengthsLegal]; decide +kernel) (by decide +kernel)
    (by decide +kernel)

theorem argsLegal_ifft : ArgsLegal .ifft (results [0, 4, 4]) :=
  argsLegal rfl (fun _ _ h => nomatch h) (by simp only [LengthsLegal]; decide +kernel) (by decide +kernel)
    (by decide +kernel)

theorem argsLegal_ldpcEncode : ArgsLegal .ldpcEncode (results [0, 524114]) :=
  argsLegal rfl (fun _ _ h => nomatch h) trivial (by decide +kernel) (by decide +kernel)

theorem argsLegal_ldpcDecode (maskEn : Bool) (d : Nat) : ArgsLegal (.ldpcDecode maskEn) (results [0, 174, 524114, d]) := by
  cases maskEn <;>
    exact argsLegal rfl (fun _ _ h => nomatch h) trivial (by rfl) (by rfl)

theorem argsLegal_crc14Gen : ArgsLegal .crc14Gen (results [0, 77]) :=
  argsLegal rfl (fun _ _ h => nomatch h) trivial (by decide +kernel) (by decide +kernel)

theorem argsLegal_crc14Check : ArgsLegal .crc14Check (results [524197]) :=
  argsLegal rfl (fun _ _ h => nomatch h) trivial (by decide +kernel) (by decide +kernel)

theorem argsLegal_mixDown : ArgsLegal .mixDown (results [0, 8, 8, 3, 4, 16, 24]) :=
  argsLegal rfl (fun _ _ h => nomatch h) (by simp only [LengthsLegal]; decide +kernel) (by decide +kernel)
    (by decide +kernel)

theorem argsLegal_symbolTones (mode : Mode) : ArgsLegal (.symbolTones mode) (results [0, 8, 8, 8, 0, 1, 100]) := by
  cases mode <;>
    exact argsLegal rfl (fun _ _ h => nomatch h) (by simp only [LengthsLegal]; decide +kernel) (by decide +kernel)
      (by decide +kernel)

theorem argsLegal_syncCount (mode : Mode) : ArgsLegal (.syncCount mode) (results [0, 2000]) := by
  cases mode <;> exact argsLegal rfl (fun _ _ h => nomatch h) trivial (by decide +kernel) (by decide +kernel)

theorem argsLegal_softBits (mode : Mode) : ArgsLegal (.softBits mode) (results [0, 2000]) := by
  cases mode <;> exact argsLegal rfl (fun _ _ h => nomatch h) trivial (by decide +kernel) (by decide +kernel)

theorem argsLegal_pack77 : ArgsLegal .pack77 (results [0, 13, 100]) :=
  argsLegal rfl (fun _ _ h => nomatch h) (by simp only [LengthsLegal]; decide +kernel) (by decide +kernel)
    (by decide +kernel)

theorem argsLegal_unpack77 (useHt : Bool) : ArgsLegal (.unpack77 useHt) (results [0, 77, 40]) := by
  cases useHt <;>
    exact argsLegal rfl (fun _ _ h => nomatch h) (by simp only [LengthsLegal]; decide +kernel) (by decide +kernel)
      (by decide +kernel)

theorem argsLegal_hashCompute : ArgsLegal .hashCompute (results [0, 5]) :=
  argsLegal rfl (fun _ _ h => nomatch h) (by simp only [LengthsLegal]; decide +kernel) (by decide +kernel)
    (by decide +kernel)

theorem argsLegal_hashSave : ArgsLegal .hashSave (results [0, 5]) :=
  argsLegal rfl (fun _ _ h => nomatch h) (by simp only [LengthsLegal]; decide +kernel) (by decide +kernel)
    (by decide +kernel)

theorem argsLegal_hashLookup :
    ArgsLegal (.hashLookup 0) (results [1023, 0, 11]) ∧ ArgsLegal (.hashLookup 1) (results [4095, 0, 11])
      ∧ ArgsLegal (.hashLookup 2) (results [4194303, 0, 11]) := by
  refine ⟨?_, ?_, ?_⟩ <;>
    refine argsLegal rfl (fun width w h hw => ?_) (by simp only [LengthsLegal]; decide +kernel) (by decide +kernel)
      (by decide +kernel) <;>
    · cases h
      simp only [widthBits] at hw
      cases hw
      decide +kernel

/-- Two runs of words held at once. -/
theorem holdsTwo {a b : Nat} {ws vs : List Word64} (h : a + ws.length ≤ b ∨ b + vs.length ≤ a) :
    HoldsWords (writeWords (mem a ws) b vs) a ws ∧ HoldsWords (writeWords (mem a ws) b vs) b vs :=
  ⟨(holdsWords_writeWords _ _ _).writeWords h, holdsWords_writeWords _ _ _⟩

theorem snapshot_running (i : Instr) (args : List Nat) (m : Memory) :
    (running i args m).snapshot = results args ∧ (running i args m).dmem = m := ⟨rfl, rfl⟩

/-- A check of every element, from one that computes. -/
theorem everyOf {α : Type} {t : List α} {p : α → Prop} [DecidablePred p] (h : (t.all fun c => decide (p c)) = true) :
    ∀ c ∈ t, p c := fun c hc => of_decide_eq_true (List.all_eq_true.mp h c hc)

/-- Four samples. -/
def four : List F64 := [0x3FF0000000000000, 0, 0x4000000000000000, 0]

theorem witness_TransformsComplete :
    ∃ (s : State) (N : Nat) (xr : List F64) (xi : List F64), argNat s.snapshot 2 = N ∧ xr.length = N ∧ xi.length = N ∧
      HoldsWords s.dmem (argNat s.snapshot 0) xr ∧ HoldsWords s.dmem (argNat s.snapshot 1) xi ∧
      ArgsLegal .fft s.snapshot ∧ ArgsLegal .ifft s.snapshot ∧ 0 < N ∧ (xr.zip xi).length = N :=
  ⟨running .fft [0, 4, 4] (writeWords (mem 0 four) 4 four), 4, four, four, rfl, rfl, rfl,
    (holdsTwo (by decide)).1, (holdsTwo (by decide)).2, argsLegal_fft, argsLegal_ifft, by decide, rfl⟩

/-- The clause of one element, at the last word of the data memory. -/
theorem witness_TransformsComplete_one :
    ∃ (s : State) (xr : List F64) (xi : List F64), argNat s.snapshot 2 = 1 ∧ xr.length = 1 ∧ xi.length = 1 ∧
      HoldsWords s.dmem (argNat s.snapshot 0) xr ∧ HoldsWords s.dmem (argNat s.snapshot 1) xi ∧
      ArgsLegal .fft s.snapshot :=
  ⟨running .fft [524287, 0, 1] (writeWords (mem 524287 [7]) 0 [9]), [7], [9], rfl, rfl, rfl,
    (holdsTwo (by decide)).1, (holdsTwo (by decide)).2,
    argsLegal rfl (fun _ _ h => nomatch h) (by simp only [LengthsLegal]; decide +kernel) (by decide +kernel)
      (by decide +kernel)⟩

theorem witness_LdpcEncodeCompletes :
    ∃ (s : State) (u : List Bool), ArgsLegal .ldpcEncode s.snapshot ∧ u.length = 91 ∧
      HoldsWords s.dmem (argNat s.snapshot 0) (u.map bitWord) :=
  ⟨running .ldpcEncode [0, 524114] (mem 0 ((List.replicate 91 true).map bitWord)), List.replicate 91 true,
    argsLegal_ldpcEncode, rfl, holdsWords_writeWords _ _ _⟩

/-- A machine busy with a decode of the metrics, with the mask behind them. -/
def decoding (maskEn : Bool) (d : Nat) (llr : List F64) (ap : List Bool) : State :=
  running (.ldpcDecode maskEn) [0, 174, 524114, d] (writeWords (mem 0 llr) 174 (ap.map bitWord))

theorem decodeOperands (maskEn : Bool) (d : Nat) (llr : List F64) (ap : List Bool) (hl : llr.length = 174)
    (ha : ap.length = 174) (hm : maskEn = false → ap = List.replicate 174 false) :
    DecodeOperands maskEn (decoding maskEn d llr ap) llr ap :=
  ⟨hl, (holdsTwo (.inl (by rw [hl]))).1, ha, fun _ => (holdsTwo (.inl (by rw [hl]))).2, hm⟩

theorem witness_LdpcDecodeCompletes (maskEn : Bool) :
    ∃ (s : State) (llr : List F64) (ap : List Bool),
      ArgsLegal (.ldpcDecode maskEn) s.snapshot ∧ DecodeOperands maskEn s llr ap :=
  ⟨decoding maskEn 4294967295 (List.replicate 174 0xC024000000000000) (List.replicate 174 false), _, _,
    argsLegal_ldpcDecode maskEn 4294967295,
    decodeOperands maskEn 4294967295 _ _ List.length_replicate List.length_replicate fun _ => rfl⟩

theorem witness_DecodeIsGated (maskEn : Bool) :
    ∃ (s : State) (llr : List F64) (ap : List Bool),
      ArgsLegal (.ldpcDecode maskEn) s.snapshot ∧ DecodeOperands maskEn s llr ap :=
  ⟨decoding maskEn 1 (List.replicate 174 0x3FF0000000000000) (List.replicate 174 false), _, _,
    argsLegal_ldpcDecode maskEn 1,
    decodeOperands maskEn 1 _ _ List.length_replicate List.length_replicate fun _ => rfl⟩

/-- The payload of V40 with its CRC (vector V31). -/
def word31 : List Bool := payload40 ++ bits "00101100101110"

/-- Both clauses: the metrics of the codeword of V31, and metrics that are NaN. -/
theorem witness_NoiselessMetricsDecode (maskEn : Bool) :
    (∃ (s : State) (llr : List F64) (ap : List Bool) (u : List Bool) (a : F64),
      ArgsLegal (.ldpcDecode maskEn) s.snapshot ∧ DecodeOperands maskEn s llr ap ∧
      u.length = 91 ∧ crcOk u = true ∧ flt 0 a = true ∧
      llr = (codeword ldpcCode u).map fun b => if b then a else fneg a) ∧
    ∃ (s : State) (llr : List F64) (ap : List Bool),
      ArgsLegal (.ldpcDecode maskEn) s.snapshot ∧ DecodeOperands maskEn s llr ap ∧ ∀ l ∈ llr, hard l = false := by
  have h31 : word31.length = 91 := by decide +kernel
  refine ⟨⟨decoding maskEn 0 ((codeword ldpcCode word31).map fun b => if b then 0x4024000000000000 else
      fneg 0x4024000000000000) (List.replicate 174 false), _, _, word31, 0x4024000000000000,
    argsLegal_ldpcDecode maskEn 0, decodeOperands maskEn 0 _ _ ?_ List.length_replicate fun _ => rfl, h31,
    by decide +kernel, by decide +kernel, rfl⟩,
    decoding maskEn 0 (List.replicate 174 0x7FF8000000000000) (List.replicate 174 false), _, _,
    argsLegal_ldpcDecode maskEn 0,
    decodeOperands maskEn 0 _ _ List.length_replicate List.length_replicate fun _ => rfl, fun l hl => ?_⟩
  · rw [List.length_map, codeword, List.length_append, List.length_map, List.length_range, h31]
  · rw [List.eq_of_mem_replicate hl]
    decide +kernel

theorem witness_Crc14GenCompletes :
    ∃ (s : State) (m : List Bool), ArgsLegal .crc14Gen s.snapshot ∧ m.length = 77 ∧
      HoldsWords s.dmem (argNat s.snapshot 0) (m.map bitWord) :=
  ⟨running .crc14Gen [0, 77] (mem 0 (payload40.map bitWord)), payload40, argsLegal_crc14Gen, by decide +kernel,
    holdsWords_writeWords _ _ _⟩

theorem witness_Crc14CheckCompletes :
    ∃ (s : State) (m : List Bool) (c : List Bool), ArgsLegal .crc14Check s.snapshot ∧ m.length = 77 ∧ c.length = 14 ∧
      HoldsWords s.dmem (argNat s.snapshot 0) ((m ++ c).map bitWord) :=
  ⟨running .crc14Check [524197] (mem 524197 ((payload40 ++ List.replicate 14 true).map bitWord)), payload40,
    List.replicate 14 true, argsLegal_crc14Check, by decide +kernel, rfl, holdsWords_writeWords _ _ _⟩

theorem witness_MixDownCompletes :
    ∃ (s : State) (N : Nat) (M : Nat) (xr : List F64) (xi : List F64), argNat s.snapshot 2 = N ∧ argNat s.snapshot 4 = M ∧ ArgsLegal .mixDown s.snapshot ∧
      xr.length = N ∧ xi.length = N ∧ HoldsWords s.dmem (argNat s.snapshot 0) xr ∧
      HoldsWords s.dmem (argNat s.snapshot 1) xi :=
  ⟨running .mixDown [0, 8, 8, 3, 4, 16, 24] (writeWords (mem 0 (four ++ four)) 8 (four ++ four)), 8, 4, four ++ four,
    four ++ four, rfl, rfl, argsLegal_mixDown, rfl, rfl, (holdsTwo (by decide)).1, (holdsTwo (by decide)).2⟩

theorem witness_SymbolTonesCompletes (mode : Mode) :
    ∃ (s : State) (L : Nat) (NS : Nat) (xr : List F64) (xi : List F64), argNat s.snapshot 3 = L ∧ argNat s.snapshot 5 = NS ∧ ArgsLegal (.symbolTones mode) s.snapshot ∧
      xr.length = argNat s.snapshot 2 ∧ xi.length = argNat s.snapshot 2 ∧
      HoldsWords s.dmem (argNat s.snapshot 0) xr ∧ HoldsWords s.dmem (argNat s.snapshot 1) xi :=
  ⟨running (.symbolTones mode) [0, 8, 8, 8, 0, 1, 100] (writeWords (mem 0 (four ++ four)) 8 (four ++ four)), 8, 1,
    four ++ four, four ++ four, rfl, rfl, argsLegal_symbolTones mode, rfl, rfl, (holdsTwo (by decide)).1,
    (holdsTwo (by decide)).2⟩

theorem witness_SyncCountCompletes (mode : Mode) :
    ∃ (s : State) (ws : List F64), ArgsLegal (.syncCount mode) s.snapshot ∧ ws.length = toneWords mode ∧
      HoldsWords s.dmem (argNat s.snapshot 0) ws :=
  ⟨running (.syncCount mode) [0, 2000] (mem 0 (List.replicate (toneWords mode) 0x3FF0000000000000)), _,
    argsLegal_syncCount mode, List.length_replicate, holdsWords_writeWords _ _ _⟩

theorem witness_SoftBitsCompletes (mode : Mode) :
    ∃ (s : State) (ws : List F64), ArgsLegal (.softBits mode) s.snapshot ∧ ws.length = toneWords mode ∧
      HoldsWords s.dmem (argNat s.snapshot 0) ws :=
  ⟨running (.softBits mode) [0, 2000] (mem 0 (List.replicate (toneWords mode) 0x3FF0000000000000)), _,
    argsLegal_softBits mode, List.length_replicate, holdsWords_writeWords _ _ _⟩

theorem witness_ZeroFrame (mode : Mode) :
    ∃ s : State, HoldsWords s.dmem (argNat s.snapshot 0) (List.replicate (toneWords mode) 0) ∧
      ArgsLegal (.softBits mode) s.snapshot ∧ ArgsLegal (.syncCount mode) s.snapshot :=
  ⟨running (.softBits mode) [0, 2000] (mem 0 (List.replicate (toneWords mode) 0)), holdsWords_writeWords _ _ _,
    argsLegal_softBits mode, argsLegal_syncCount mode⟩

/-- Both clauses: a text with words, and 13 spaces. -/
theorem witness_Pack77Completes :
    (∃ (s : State) (t : List Char), ArgsLegal .pack77 s.snapshot ∧ t.length = argNat s.snapshot 1 ∧ (∀ c ∈ t, c.toNat < 128) ∧
      HoldsWords s.dmem (argNat s.snapshot 0) (t.map charWord) ∧ words (upper t) ≠ []) ∧
    ∃ (s : State) (t : List Char), ArgsLegal .pack77 s.snapshot ∧ t.length = argNat s.snapshot 1 ∧ (∀ c ∈ t, c.toNat < 128) ∧
      HoldsWords s.dmem (argNat s.snapshot 0) (t.map charWord) ∧ words (upper t) = [] :=
  ⟨⟨running .pack77 [0, 13, 100] (mem 0 ("CQ K1ABC FN42".toList.map charWord)), _, argsLegal_pack77, by decide +kernel,
      everyOf (by decide +kernel), holdsWords_writeWords _ _ _, by decide +kernel⟩,
    running .pack77 [0, 13, 100] (mem 0 ((List.replicate 13 ' ').map charWord)), _, argsLegal_pack77,
      by decide +kernel, everyOf (by decide +kernel), holdsWords_writeWords _ _ _, by decide +kernel⟩

/-- Every clause: a failed unpacking, one that teaches a callsign, and the empty text. -/
theorem witness_Unpack77Completes (useHt : Bool) :
    (∃ (s : State) (m : List Bool), ArgsLegal (.unpack77 useHt) s.snapshot ∧ m.length = 77 ∧
      HoldsWords s.dmem (argNat s.snapshot 0) (m.map bitWord) ∧ unpackWith useHt s.ht m = none) ∧
    (∃ (s : State) (m : List Bool) (u : Unpacked), ArgsLegal (.unpack77 useHt) s.snapshot ∧ m.length = 77 ∧
      HoldsWords s.dmem (argNat s.snapshot 0) (m.map bitWord) ∧ unpackWith useHt s.ht m = some u ∧
      u.learn = some "K1ABC".toList) ∧
    ∃ (s : State) (m : List Bool) (u : Unpacked), ArgsLegal (.unpack77 useHt) s.snapshot ∧ m.length = 77 ∧
      HoldsWords s.dmem (argNat s.snapshot 0) (m.map bitWord) ∧ unpackWith useHt s.ht m = some u ∧
      u.learn = none := by
  refine ⟨⟨running (.unpack77 useHt) [0, 77, 40] (mem 0 ((List.replicate 77 true).map bitWord)), _,
      argsLegal_unpack77 useHt, rfl, holdsWords_writeWords _ _ _, ?_⟩,
    ⟨running (.unpack77 useHt) [0, 77, 40] (mem 0 (payload40.map bitWord)), _, ⟨"CQ K1ABC FN42".toList, _⟩,
      argsLegal_unpack77 useHt, by decide +kernel, holdsWords_writeWords _ _ _, ?_, rfl⟩,
    running (.unpack77 useHt) [0, 77, 40] (mem 0 ((List.replicate 77 false).map bitWord)), _, ⟨[], none⟩,
      argsLegal_unpack77 useHt, rfl, holdsWords_writeWords _ _ _, ?_, rfl⟩
  all_goals cases useHt <;> decide +kernel

theorem witness_HashComputeCompletes :
    ∃ (s : State) (t : List Char), ArgsLegal .hashCompute s.snapshot ∧ t.length = argNat s.snapshot 1 ∧
      (∀ c ∈ t, c.toNat < 128 ∧ upperChar c ∈ A38) ∧ HoldsWords s.dmem (argNat s.snapshot 0) (t.map charWord) :=
  ⟨running .hashCompute [0, 5] (mem 0 ("k1abc".toList.map charWord)), _, argsLegal_hashCompute, by decide +kernel,
    everyOf (by decide +kernel), holdsWords_writeWords _ _ _⟩

/-- Both clauses: a callsign, and a text that is none. -/
theorem witness_HashSaveCompletes :
    (∃ (s : State) (t : List Char) (x : Callsign), ArgsLegal .hashSave s.snapshot ∧ t.length = argNat s.snapshot 1 ∧ (∀ c ∈ t, c.toNat < 128) ∧
      HoldsWords s.dmem (argNat s.snapshot 0) (t.map charWord) ∧ canon t = some x) ∧
    ∃ (s : State) (t : List Char), ArgsLegal .hashSave s.snapshot ∧ t.length = argNat s.snapshot 1 ∧ (∀ c ∈ t, c.toNat < 128) ∧
      HoldsWords s.dmem (argNat s.snapshot 0) (t.map charWord) ∧ canon t = none :=
  ⟨⟨running .hashSave [0, 5] (mem 0 ("w9xyz".toList.map charWord)), _, "W9XYZ".toList, argsLegal_hashSave,
      by decide +kernel, everyOf (by decide +kernel), holdsWords_writeWords _ _ _, by decide +kernel⟩,
    running .hashSave [0, 5] (mem 0 ("<...>".toList.map charWord)), _, argsLegal_hashSave, by decide +kernel,
      everyOf (by decide +kernel), holdsWords_writeWords _ _ _, by decide +kernel⟩

/-- Every width at its largest hash, each with a hit and a miss. -/
theorem witness_HashLookupCompletes :
    ArgsLegal (.hashLookup 0) (running (.hashLookup 0) [1023, 0, 11] []).snapshot ∧
      ArgsLegal (.hashLookup 1) (running (.hashLookup 1) [4095, 0, 11] []).snapshot ∧
      ArgsLegal (.hashLookup 2) (running (.hashLookup 2) [4194303, 0, 11] []).snapshot ∧
      HashTable.empty.lookup22 4194303 = none ∧ table77.lookup22 2261321 = some "F0AAA".toList :=
  ⟨argsLegal_hashLookup.1, argsLegal_hashLookup.2.1, argsLegal_hashLookup.2.2, rfl, by decide +kernel⟩

theorem witness_HashSizeCompletes : (running .hashSize [] []).ht.wf = true ∧ table77.wf = true := by decide +kernel

/-! ## Witnesses: encoding and the engine -/

/-- The five clauses: an opcode without a row, RSV set, an undefined flag, the reserved WIDTH, and a command. -/
theorem witness_DecodingOrder :
    (∀ w, (busyWith w [] []).phase = .busy w (results []) ∧ (busyWith w [] []).bus = []) ∧
    (∀ fl, (opField 0x0000003D, fl) ∉ opcodeMap) ∧
    ((opField 0x00001001, 0) ∈ opcodeMap ∧ rsvField 0x00001001 ≠ 0) ∧
    ((opField 0x00000211, 1) ∈ opcodeMap ∧ rsvField 0x00000211 = 0 ∧ flField 0x00000211 &&& ~~~1 ≠ 0) ∧
    ((opField 0x0000033A, 3) ∈ opcodeMap ∧ rsvField 0x0000033A = 0 ∧ opField 0x0000033A = 0x3A ∧
      flField 0x0000033A = 3) ∧
    (opField 0x0000023A, 3) ∈ opcodeMap ∧ rsvField 0x0000023A = 0 ∧ flField 0x0000023A &&& ~~~3 = 0 ∧
      ¬(opField 0x0000023A = 0x3A ∧ flField 0x0000023A = 3) :=
  ⟨fun _ => ⟨rfl, rfl⟩, by decide, by decide, by decide, by decide, by decide⟩

theorem witness_StepRunsTheDecodedCommand :
    decode 0x0000023A = .ok (.hashLookup 2) ∧
    (busyWith 0x0000023A [] []).phase = .busy 0x0000023A (results []) ∧ (busyWith 0x0000023A [] []).bus = [] ∧
    { busyWith 0x0000023A [] [] with bus := [.engine, ld32 (regAddr 0)] }.bus
      = .engine :: [ld32 (regAddr 0)] := ⟨by decide, rfl, rfl, rfl⟩

/-! ## Witnesses: the host's accesses -/

theorem witness_CommandStart :
    (hosting [st32 (regAddr 0x010) 1]).busy = false ∧
      (hosting [st32 (regAddr 0x010) 1]).bus = st32 (regAddr 0x010) 1 :: [] := ⟨rfl, rfl⟩

theorem witness_CommandDropped :
    { running .fft [] [] with bus := [st32 (regAddr 0x010) 1] }.busy = true ∧
      { running .fft [] [] with bus := [st32 (regAddr 0x010) 1] }.bus = st32 (regAddr 0x010) 1 :: [] := ⟨rfl, rfl⟩

theorem witness_HardwiredIdentity :
    (hosting [ld32 (regAddr 0x000)]).bus = ld32 (regAddr 0x000) :: [] ∧
      (hosting [ld32 (regAddr 0x004)]).bus = ld32 (regAddr 0x004) :: [] ∧
      (hosting [st32 (regAddr 0x000) 5]).bus = st32 (regAddr 0x000) 5 :: [] ∧
      (hosting [st32 (regAddr 0x004) 5]).bus = st32 (regAddr 0x004) 5 :: [] := ⟨rfl, rfl, rfl, rfl⟩

/-- Every register, the first and last of each bank, and offsets without a register between and above them. -/
theorem witness_RegisterReads :
    ∀ off ∈ [0x000, 0x004, 0x008, 0x00C, 0x010, 0x014, 0x01C, 0x020, 0x03C, 0x040, 0x05C, 0x060, 0xFFFFC],
      off % 4 = 0 ∧ off < 0x100000 ∧ (hosting [ld32 (regAddr off)]).bus = ld32 (regAddr off) :: [] := by
  intro off h
  refine ⟨?_, ?_, rfl⟩ <;>
    · revert off
      decide

theorem witness_RegisterWrites :
    (∀ off ∈ [0x008, 0x00C, 0x014, 0x01C, 0x020, 0x03C, 0x040, 0x05C, 0x060, 0xFFFFC],
      off % 4 = 0 ∧ off < 0x100000 ∧ (hosting [st32 (regAddr off) 1]).bus = st32 (regAddr off) 1 :: []) ∧
    (1 : Word32).getLsbD 1 = false := by
  refine ⟨fun off h => ⟨?_, ?_, rfl⟩, by decide⟩ <;>
    · revert off
      decide

theorem witness_InterruptLine :
    (∃ t, exec .nop State.reset = .next t) ∧
    (∃ t, step (hosting [st32 (regAddr 0x008) 1]) = .next t ∧ (1 : Word32).getLsbD 1 = false) ∧
    (∃ t, step (hosting [st32 (regAddr 0x008) 3]) = .next t ∧ (3 : Word32).getLsbD 1 = true) ∧
    ∃ t, step (hosting [st32 (regAddr 0x00C) 2]) = .next t ∧ (2 : Word32).getLsbD 1 = true :=
  ⟨⟨_, rfl⟩, ⟨_, step_writeRegister (by decide) (by decide) rfl, by decide⟩,
    ⟨_, step_writeRegister (by decide) (by decide) rfl, by decide⟩,
    ⟨_, step_writeRegister (by decide) (by decide) rfl, by decide⟩⟩

/-- Each clause by its width and by its alignment, at the ends of the two parts of the address space. -/
theorem witness_IllegalAccesses :
    (∀ off bytes v, (hosting [.read (Config.base + off) bytes]).bus = .read (Config.base + off) bytes :: [] ∧
      (hosting [.write (Config.base + off) bytes v]).bus = .write (Config.base + off) bytes v :: []) ∧
    (0xFFFFF < 0x100000 ∧ (Config.base + 0xFFFFE) % 4 ≠ 0) ∧
    (0x100000 < 0x500000 ∧ (2 ≠ 4 ∧ 2 ≠ 8)) ∧ (0x4FFFFC < 0x500000 ∧ (Config.base + 0x4FFFFC) % 8 ≠ 0) := by
  refine ⟨fun _ _ _ => ⟨rfl, rfl⟩, ⟨by decide, ?_⟩, ⟨by decide, by decide⟩, by decide, ?_⟩
  · rw [Config.base, show 8 * Config.baseUnits = 4 * (2 * Config.baseUnits) by omega, Nat.mul_add_mod]
    decide
  · rw [Config.base, Nat.mul_add_mod]
    decide

/-- The word before a running command's output, the one after it, and the last of the data memory. -/
theorem witness_WindowWrites :
    (∀ a ∈ [76 + 100, 91 + 100, 524287],
      a < 524288 ∧ ∀ r ∈ (running .crc14Gen [0, 177] []).footprint, r.mem a = false) ∧
    (∀ v, { running .crc14Gen [0, 177] [] with bus := [stw 524287 v] }.bus = stw 524287 v :: []) ∧
    ∀ v half, { running .crc14Gen [0, 177] [] with bus := [st32 (windowAddr 524287 + 4 * half) v] }.bus
      = st32 (windowAddr 524287 + 4 * half) v :: [] :=
  ⟨by decide +kernel, fun _ => rfl, fun _ _ => rfl⟩

/-- Each clause: the word before the output holds a value; the first and last words of the output. -/
theorem witness_WindowReads :
    ((∀ r ∈ (running .crc14Gen [0, 177] (mem 176 [7])).runningOutputs, r.mem 176 = false) ∧
      readWord (running .crc14Gen [0, 177] (mem 176 [7])).dmem 176 = some 7 ∧
      ∀ e, { running .crc14Gen [0, 177] (mem 176 [7]) with bus := [e] }.bus = e :: []) ∧
    ∀ a ∈ [177, 190], a < 524288 ∧ ∃ r ∈ (running .crc14Gen [0, 177] []).runningOutputs, r.mem a = true := by
  refine ⟨⟨by decide +kernel, by decide +kernel, fun _ => rfl⟩, by decide +kernel⟩

/-- The clauses of a word with one half without a value. -/
theorem witness_HalfWords :
    (∃ k < 4, readByte [] (8 * 0 + 4 + k) = none) ∧ ∃ k < 4, readByte [] (8 * 524287 + k) = none :=
  ⟨⟨0, by decide, rfl⟩, 3, by decide, rfl⟩

/-- The first and last words of the input and of the output. -/
theorem witness_HostRace :
    (running .crc14Gen [0, 177] []).phase = .busy (encode .crc14Gen) (results [0, 177]) ∧
    decode (encode .crc14Gen) = .ok .crc14Gen ∧
    (∀ a ∈ [0, 76, 177, 190], a < 524288 ∧
      ∃ r ∈ inputRanges .crc14Gen (results [0, 177]) ++ outputRanges .crc14Gen (results [0, 177]),
        r.base ≤ a ∧ a < r.base + r.len) ∧
    ∀ e, { running .crc14Gen [0, 177] [] with bus := [e] }.bus = e :: [] :=
  ⟨rfl, by decide, by decide +kernel, fun _ => rfl⟩

theorem witness_SoftResetIdle :
    (hosting [st32 (regAddr 0x008) 3]).phase = .idle ∧ (3 : Word32).getLsbD 1 = true ∧
      (hosting [st32 (regAddr 0x008) 3]).bus = st32 (regAddr 0x008) 3 :: [] := ⟨rfl, by decide, rfl⟩

theorem witness_SoftResetBusy :
    (running .crc14Gen [0, 177] []).busy = true ∧ (2 : Word32).getLsbD 1 = true ∧
      { running .crc14Gen [0, 177] [] with bus := [st32 (regAddr 0x008) 2] }.bus = st32 (regAddr 0x008) 2 :: [] :=
  ⟨rfl, by decide, rfl⟩

theorem witness_IdleEngineWaits : State.reset.phase = .idle ∧ State.reset.bus = [] := ⟨rfl, rfl⟩

/-! ## Witnesses: all commands -/

theorem witness_CommandsCompleteOrRaise :
    (busyWith 0x00000003 [] []).phase = .busy 0x00000003 (results []) ∧ (busyWith 0x00000003 [] []).bus = [] ∧
      decode 0x00000003 = .error .opcode := ⟨rfl, rfl, by decide⟩

theorem witness_MemoryFrame :
    State.reset.ht.wf = true ∧ (∃ t, exec .nop State.reset = .next t) ∧ State.reset.dmem.inRange = true ∧
      State.reset.dmem.wf = true := ⟨by decide, ⟨_, rfl⟩, by decide, by decide⟩

theorem witness_TableFrame :
    (∃ t, exec .nop State.reset = .next t) ∧ Instr.nop ≠ .hashSave ∧ Instr.nop ≠ .hashClear ∧
      Instr.nop ≠ .unpack77 true ∧ (∀ width, Instr.nop ≠ .hashLookup width) ∧ Instr.nop ≠ .hashSize :=
  ⟨⟨_, rfl⟩, by decide, by decide, by decide, by decide, by decide⟩

/-- Two machines that differ in the live arguments, STATUS and CTRL, busy with one command. -/
theorem witness_SnapshotDetermines :
    let s := running .hashSize [1, 2] []
    let s' := { s with args := results [7], ie := true, cmd := 5 }
    s'.snapshot = s.snapshot ∧ s'.dmem = s.dmem ∧ s'.ht = s.ht ∧ ∃ t, exec .hashSize s = .next t :=
  ⟨rfl, rfl, rfl, _, rfl⟩

theorem witness_SuccessFlag :
    (∃ t, exec .nop State.reset = .next t ∧ t.status.errCode = .none) ∧ (∀ maskEn, Instr.nop ≠ .ldpcDecode maskEn) ∧
      Instr.nop ≠ .crc14Check ∧ Instr.nop ≠ .pack77 ∧ (∀ useHt, Instr.nop ≠ .unpack77 useHt) ∧
      Instr.nop ≠ .hashSave ∧ ∀ width, Instr.nop ≠ .hashLookup width :=
  ⟨⟨_, rfl, rfl⟩, by decide, by decide, by decide, by decide, by decide, by decide⟩

/-- A busy machine that meets the invariant and steps on. -/
theorem witness_StepKeepsInvariant :
    (running .hashSize [] (mem 0 [7])).Inv ∧ ∃ t, step (running .hashSize [] (mem 0 [7])) = .next t :=
  ⟨⟨by decide +kernel, by decide +kernel, by decide +kernel, ⟨rfl, rfl, fun h => (h rfl).elim, by
    intro w args h
    cases h
    rfl⟩⟩, _, rfl⟩

/-- A command line with all eight arguments, and one with none. -/
theorem witness_CommandLineRuns :
    Instr.mixDown.wellFormed = true ∧ [1, 2, 3, 4, 5, 6, 7, (8 : Word32)].length ≤ 8 ∧
      (hosting (commandLine [1, 2, 3, 4, 5, 6, 7, 8] .mixDown ++ [])).phase = .idle ∧
      (hosting (commandLine [] .nop ++ [])).bus = commandLine [] .nop ++ [] := ⟨rfl, by decide, rfl, rfl⟩

/-- A machine that meets each clause: the reserved WIDTH, a hash one too large, and for the transforms a length of
0, a range one too long, and ranges that meet. -/
theorem witness_ArgumentErrors :
    (Instr.hashLookup 3).wellFormed = false ∧
    ¬ HashLegal (.hashLookup 0) (running (.hashLookup 0) [1024, 0, 11] []).snapshot ∧
    (Instr.fft.wellFormed = true ∧ ∀ args, HashLegal .fft args) ∧
    ¬ LengthsLegal .fft (running .fft [0, 4, 0] []).snapshot ∧
    (LengthsLegal .fft (running .fft [524285, 0, 4] []).snapshot ∧
      ¬ RangesFit .fft (running .fft [524285, 0, 4] []).snapshot) ∧
    LengthsLegal .fft (running .fft [0, 3, 4] []).snapshot ∧ RangesFit .fft (running .fft [0, 3, 4] []).snapshot ∧
      ¬ NoOverlap .fft (running .fft [0, 3, 4] []).snapshot := by
  refine ⟨by decide, fun h => absurd (h 0 10 rfl rfl) (by decide +kernel), ⟨rfl, fun _ _ _ h => nomatch h⟩, ?_,
    ⟨?_, ?_⟩, ?_, ?_, ?_⟩
  · simp only [LengthsLegal]; decide +kernel
  · simp only [LengthsLegal]; decide +kernel
  · unfold RangesFit; decide +kernel
  · simp only [LengthsLegal]; decide +kernel
  · unfold RangesFit; decide +kernel
  · exact fun h => absurd ((overlaps_false_iff _ _).mpr h) (by decide +kernel)

/-- Each clause: a bit word 2 among the last of 77, a character word 128, and a character outside A38. -/
theorem witness_ValueErrors :
    (∃ (s : State) (ws : List Word64), ArgsLegal .crc14Gen s.snapshot ∧
      bitOperand .crc14Gen s.snapshot = some (rangeAt s.snapshot 0 77) ∧ ws.length = 77 ∧
      HoldsWords s.dmem (argNat s.snapshot 0) ws ∧ ∃ w ∈ ws, w ≠ 0 ∧ w ≠ 1) ∧
    (∃ (s : State) (ws : List Word64), ArgsLegal .hashSave s.snapshot ∧ ws.length = argNat s.snapshot 1 ∧
      HoldsWords s.dmem (argNat s.snapshot 0) ws ∧ ∃ w ∈ ws, 128 ≤ w.toNat) ∧
    ∃ (s : State) (ws : List Word64), ArgsLegal .hashCompute s.snapshot ∧ ws.length = argNat s.snapshot 1 ∧
      HoldsWords s.dmem (argNat s.snapshot 0) ws ∧ (∀ w ∈ ws, w.toNat < 128) ∧
      ∃ w ∈ ws, upperChar (Char.ofNat w.toNat) ∉ A38 := by
  refine ⟨⟨running .crc14Gen [0, 77] (mem 0 (List.replicate 76 0 ++ [2])), _, argsLegal_crc14Gen, rfl, rfl,
      holdsWords_writeWords _ _ _, 2, by simp, by decide, by decide⟩,
    ⟨running .hashSave [0, 5] (mem 0 [65, 65, 65, 65, 128]), [65, 65, 65, 65, 128], argsLegal_hashSave, rfl,
      holdsWords_writeWords _ _ _, 128, by simp, by decide⟩,
    running .hashCompute [0, 5] (mem 0 [65, 65, 65, 65, 46]), [65, 65, 65, 65, 46], argsLegal_hashCompute, rfl,
      holdsWords_writeWords _ _ _, everyOf (by decide +kernel), 46, by simp, ?_⟩
  decide +kernel

/-- Legal arguments on a data memory without a value, and a word the command reads there. -/
theorem valueless {i : Instr} {args : List Nat} (h : ArgsLegal i (results args)) {a : Nat}
    (ha : ReadsWord i (results args) a) :
    ∃ s : State, ArgsLegal i s.snapshot ∧
      (∀ a w, ReadsWord i s.snapshot a → readWord s.dmem a = some w → PassesCheck i s.snapshot a w) ∧
      ∃ a, ReadsWord i s.snapshot a ∧ readWord s.dmem a = none :=
  ⟨running i args [], h, (fun _ _ _ hw => nomatch hw), a, ha, rfl⟩

/-- The last word that each kind of command reads. -/
theorem witness_ValuelessReadsFault (mode : Mode) :
    ∀ i ∈ [Instr.fft, .ifft, .ldpcEncode, .ldpcDecode false, .ldpcDecode true, .crc14Gen, .crc14Check, .mixDown,
        .symbolTones mode, .syncCount mode, .softBits mode, .pack77, .unpack77 true, .hashCompute, .hashSave],
      ∃ s : State, ArgsLegal i s.snapshot ∧
        (∀ a w, ReadsWord i s.snapshot a → readWord s.dmem a = some w → PassesCheck i s.snapshot a w) ∧
        ∃ a, ReadsWord i s.snapshot a ∧ readWord s.dmem a = none := by
  simp only [List.forall_mem_cons]
  refine ⟨valueless argsLegal_fft (a := 7) ?_, valueless argsLegal_ifft (a := 7) ?_,
    valueless argsLegal_ldpcEncode (a := 90) ?_, valueless (argsLegal_ldpcDecode false 0) (a := 173) ?_,
    valueless (argsLegal_ldpcDecode true 0) (a := 347) ?_, valueless argsLegal_crc14Gen (a := 76) ?_,
    valueless argsLegal_crc14Check (a := 524287) ?_, valueless argsLegal_mixDown (a := 10) ?_,
    valueless (argsLegal_symbolTones mode) (a := 15) ?_,
    valueless (argsLegal_syncCount mode) (a := 2 * tones mode * frameSymbols mode - 1) ?_,
    valueless (argsLegal_softBits mode) (a := if mode = .ft8 then 1151 else 791) ?_,
    valueless argsLegal_pack77 (a := 12) ?_, valueless (argsLegal_unpack77 true) (a := 76) ?_,
    valueless argsLegal_hashCompute (a := 4) ?_, valueless argsLegal_hashSave (a := 4) ?_, fun _ h => nomatch h⟩
  case refine_8 => exact ⟨3, by decide +kernel, 2, by decide +kernel, .inr (by decide +kernel)⟩
  case refine_9 => exact ⟨0, by decide +kernel, 7, by decide +kernel, 7, by decide +kernel, by decide +kernel,
    .inr (by decide +kernel)⟩
  case refine_10 =>
    cases mode
    · exact ⟨(72, [3, 1, 4, 0, 6, 5, 2]), by decide, 6, by decide, 15, by decide, by decide +kernel⟩
    · exact ⟨(99, [3, 2, 0, 1]), by decide, 3, by decide, 7, by decide, by decide +kernel⟩
  case refine_11 =>
    cases mode
    · exact ⟨43, by decide, 28, by decide, 15, by decide, by decide +kernel⟩
    · exact ⟨70, by decide, 28, by decide, 7, by decide, by decide +kernel⟩
  all_goals
    refine ⟨(inputRanges _ _).getLast (by decide +kernel), List.getLast_mem _, ?_, ?_⟩ <;> decide +kernel

/-- A command whose words all have a value: the payload of vector V40, every word a bit. -/
theorem witness_ValuelessReadsFault_none :
    ∃ s : State, ArgsLegal .crc14Gen s.snapshot ∧
      (∀ a w, ReadsWord .crc14Gen s.snapshot a → readWord s.dmem a = some w → PassesCheck .crc14Gen s.snapshot a w) ∧
      ∀ a, ReadsWord .crc14Gen s.snapshot a → readWord s.dmem a ≠ none := by
  have held : ∀ a, ReadsWord .crc14Gen (results [0, 77]) a →
      ∃ b : Bool, readWord (mem 0 (payload40.map bitWord)) a = some (bitWord b) := by
    rintro a ⟨r, hr, -, ha⟩
    obtain rfl := List.mem_singleton.mp hr
    have hlt : a < (payload40.map bitWord).length := Nat.lt_of_lt_of_le ha (by decide +kernel)
    have := holdsWords_writeWords [] 0 (payload40.map bitWord) a hlt
    rw [Nat.zero_add, List.getElem_map] at this
    exact ⟨_, this⟩
  refine ⟨running .crc14Gen [0, 77] (mem 0 (payload40.map bitWord)), argsLegal_crc14Gen, fun a w ha hw => ?_,
    fun a ha hn => ?_⟩
  · obtain ⟨b, hb⟩ := held a ha
    obtain rfl := Option.some.inj (hb.symm.trans hw)
    exact ⟨fun _ _ _ _ => by cases b <;> decide, fun h => by simp at h⟩
  · obtain ⟨b, hb⟩ := held a ha
    exact nomatch hb.symm.trans hn

/-! ## Witnesses: the transforms, the code, the codec, the table -/

theorem witness_BitReversal :
    ∃ (p j : Nat) (x : List Cplx), j < 2 ^ p ∧ x.length = 2 ^ p := ⟨3, 7, List.replicate 8 (0, 0), by decide, by decide⟩

/-- The last pair of the last block of an eight-element round. -/
theorem witness_ButterflyRound :
    ∃ (L half i j : Nat) (x : List Cplx),
      x.length = L ∧ 0 < half ∧ j < half ∧ 2 * half ∣ i ∧ i + 2 * half ≤ L :=
  ⟨8, 2, 4, 1, List.replicate 8 (0, 0), by decide, by decide, by decide, by decide, by decide⟩

theorem witness_CodewordsPassParity : word31.length = 91 := by decide +kernel

theorem witness_CrcIsTheRemainder : payload40.length = 77 := by decide +kernel

theorem witness_CrcAcceptsAndDetects : payload40.length = 77 ∧ 90 < 91 := by decide +kernel

/-- A word for one call of each kind, and the words for a first token at the ends of their ranges. -/
theorem witness_StandardMessageRoundTrip (l22 : Nat → Option Callsign) :
    CallWord l22 "K1ABC/R".toList .slashR "K1ABC/R".toList (some "K1ABC".toList) ∧
    CallWord l22 "W9XYZ".toList .none "W9XYZ".toList (some "W9XYZ".toList) ∧
    CallWord l22 "<PJ4/K1ABC>".toList .none (resolvedText (l22 (hash22 "PJ4/K1ABC".toList))) none ∧
    FirstWords l22 ["DE".toList] .none ["DE".toList] ∧ FirstWords l22 ["QRZ".toList] .none ["QRZ".toList] ∧
    FirstWords l22 ["CQ".toList] .none ["CQ".toList] ∧
    (∀ t ∈ ["000".toList, "145".toList, "999".toList, "A".toList, "ZZZZ".toList],
      FirstWords l22 ["CQ".toList, t] .none ["CQ".toList, t]) ∧
    suffixesAgree .slashR .none = true ∧ suffixesAgree .slashP .slashP = true := by
  have k : CallWord l22 ("K1ABC".toList ++ suffixText .slashR) .slashR ("K1ABC".toList ++ suffixText .slashR)
      (some "K1ABC".toList) := .standard "K1ABC".toList 3957069 .slashR (by decide +kernel)
  have w : CallWord l22 ("W9XYZ".toList ++ suffixText .none) .none ("W9XYZ".toList ++ suffixText .none)
      (some "W9XYZ".toList) := .standard "W9XYZ".toList 6493904 .none (by decide +kernel)
  have h : CallWord l22 ('<' :: "PJ4/K1ABC".toList ++ ['>']) .none
      (resolvedText (l22 (hash22 "PJ4/K1ABC".toList))) none := .hashed "PJ4/K1ABC".toList (by decide +kernel)
  refine ⟨k, w, h, .de, .qrz, .cq, ?_, by decide, by decide⟩
  simp only [List.forall_mem_cons]
  exact ⟨.cqNumber _ (by decide) (everyOf (by decide +kernel)), .cqNumber _ (by decide) (everyOf (by decide +kernel)),
    .cqNumber _ (by decide) (everyOf (by decide +kernel)),
    .cqSuffix _ (by decide) (by decide) (everyOf (by decide +kernel)),
    .cqSuffix _ (by decide) (by decide) (everyOf (by decide +kernel)), fun _ h => nomatch h⟩

/-- Every form of the words after the two calls, at its ends. -/
theorem witness_StandardMessageRoundTrip_rest :
    ExtraWords [] ∧ ExtraWords ["73".toList] ∧ ExtraWords [gridText 32399] ∧ ExtraWords ["R".toList, gridText 0] ∧
    ExtraWords [reportText (-30)] ∧ ExtraWords ['R' :: reportText 99] :=
  ⟨.inl rfl, .inr (.inr (.inr (.inl rfl))),
    .inr (.inr (.inr (.inr (.inl ⟨32399, by decide, .inl rfl⟩)))),
    .inr (.inr (.inr (.inr (.inl ⟨0, by decide, .inr ⟨by decide +kernel, rfl⟩⟩)))),
    .inr (.inr (.inr (.inr (.inr ⟨-30, by decide, by decide, .inl rfl⟩)))),
    .inr (.inr (.inr (.inr (.inr ⟨99, by decide, by decide, .inr rfl⟩))))⟩

/-- Vector V51, of 13 characters. -/
theorem witness_FreeTextRoundTrip :
    words "TNX BOB 73 GL".toList ≠ [] ∧ (unwords (words "TNX BOB 73 GL".toList)).length ≤ 13 ∧
      (∀ c ∈ unwords (words "TNX BOB 73 GL".toList), c ∈ A42) ∧ (pack (words "TNX BOB 73 GL".toList)).form = 0 :=
  ⟨by decide +kernel, by decide +kernel, everyOf (by decide +kernel), by decide +kernel⟩

/-- Vectors V48 to V50. -/
theorem witness_HashedMessageRoundTrip :
    validCallsign "W9XYZ".toList = true ∧ nonStd "PJ4/K1ABC".toList = true ∧ AckWords ["RR73".toList] ∧ AckWords [] ∧
      "PJ4/K1ABC".toList ≠ "QRZ".toList :=
  ⟨by decide +kernel, by decide +kernel, .inr (.inr (.inl rfl)), .inl rfl, by decide +kernel⟩

/-- The two callsigns of vectors V72 and V73, which have one 22-bit hash, and an empty table. -/
theorem witness_SaveLaws :
    (∀ p ∈ HashTable.empty.ht22, p.2 ≠ "A0RWI".toList ∧ p.2 ≠ "F0AAA".toList) ∧
      "A0RWI".toList ≠ "F0AAA".toList ∧ hash22 "A0RWI".toList = hash22 "F0AAA".toList ∧
      hash10 "K1ABC".toList ≠ hash10 "A0RWI".toList ∧ hash12 "K1ABC".toList ≠ hash12 "A0RWI".toList :=
  ⟨fun p h => absurd h (by simp [HashTable.empty]), by decide +kernel, by decide +kernel, by decide +kernel,
    by decide +kernel⟩

/-- One callsign more than the list holds. -/
theorem witness_TableOverflow :
    ∃ xs : List Callsign, xs.Nodup ∧ 1000 < xs.length := by
  refine ⟨(List.range 1001).map (alphaText A36 3), ?_, by simp⟩
  refine List.Nodup.map_on (fun a ha b hb h => ?_) List.nodup_range
  have key : ∀ n < 1001, alphaValue A36 (alphaText A36 3 n) = n := fun n hn =>
    alphaValue_alphaText (by decide +kernel) (by decide +kernel)
      (Nat.lt_of_lt_of_le hn (by decide +kernel : 1001 ≤ A36.length ^ 3))
  rw [← key a (List.mem_range.mp ha), ← key b (List.mem_range.mp hb), h]

end Sys2Proof.Tests
end

section
/-! PROOFS. The value checks on input words and the reads of words without a value (R15, R47, R320, R323, R327): what
each rule does once its argument checks have passed, what a read of checked words answers, and the two statements. -/

namespace Sys2Proof.Machine

/-! ## A rule on legal arguments -/

theorem require_pass {p : Prop} [Decidable p] {e : ErrCode} (h : p) : require (decide p) e = .ok () :=
  require_ok_iff.mpr (decide_eq_true h)

/-- A command that reads one array of bits, as the only thing it reads. -/
theorem ruleOf_readBits {i : Instr} {s : State} {r : Range} (h : ArgsLegal i s.snapshot)
    (hb : bitOperand i s.snapshot = some r) (hd : ∀ maskEn, i ≠ .ldpcDecode maskEn) :
    ∃ eff : List Bool → Effect, ruleOf i s = readBits s.dmem r.base r.len >>= fun bs => .ok (eff bs) := by
  cases i with
  | ldpcEncode =>
    obtain rfl := Option.some.inj hb
    exact ⟨_, by rw [ruleOf, ldpcEncodeRule, checkRanges_legal h rfl, ok_bind]; rfl⟩
  | crc14Gen =>
    obtain rfl := Option.some.inj hb
    exact ⟨_, by rw [ruleOf, crc14GenRule, checkRanges_legal h rfl, ok_bind]; rfl⟩
  | crc14Check =>
    obtain rfl := Option.some.inj hb
    exact ⟨_, by rw [ruleOf, crc14CheckRule, checkRanges_legal h rfl, ok_bind]; rfl⟩
  | unpack77 useHt =>
    obtain rfl := Option.some.inj hb
    exact ⟨_, by
      rw [ruleOf, unpack77Rule, require_pass (show textMax ≤ _ from h.lengths), ok_bind, checkRanges_legal h rfl,
        ok_bind]
      rfl⟩
  | ldpcDecode maskEn => exact absurd rfl (hd maskEn)
  | _ => exact nomatch hb

theorem ldpcDecodeRule_legal {maskEn : Bool} {s : State} (h : ArgsLegal (.ldpcDecode maskEn) s.snapshot) :
    ∃ eff : List Bool → List F64 → Effect, ldpcDecodeRule maskEn s =
      readMask maskEn s.dmem (argNat s.snapshot 1) >>= fun ap =>
        readFs s.dmem (argNat s.snapshot 0) 174 >>= fun llr => .ok (eff ap llr) :=
  ⟨_, by rw [ldpcDecodeRule, checkRanges_legal h rfl, ok_bind]⟩

/-- Every command with a bit operand reads it before anything else. -/
theorem ruleOf_bitOperand {i : Instr} {s : State} {r : Range} (h : ArgsLegal i s.snapshot)
    (hb : bitOperand i s.snapshot = some r) :
    ∃ f : List Bool → Check Effect, ruleOf i s = readBits s.dmem r.base r.len >>= f := by
  by_cases hd : ∀ maskEn, i ≠ .ldpcDecode maskEn
  · obtain ⟨eff, he⟩ := ruleOf_readBits h hb hd
    exact ⟨_, he⟩
  · push Not at hd
    obtain ⟨maskEn, rfl⟩ := hd
    obtain ⟨eff, he⟩ := ldpcDecodeRule_legal h
    cases maskEn with
    | false => exact nomatch hb
    | true =>
      obtain rfl := Option.some.inj hb
      exact ⟨_, he⟩

theorem hashComputeRule_legal {s : State} (h : ArgsLegal .hashCompute s.snapshot) :
    ∃ eff : List Char → Effect, hashComputeRule s =
      readChars s.dmem (argNat s.snapshot 0) (argNat s.snapshot 1) >>= fun t =>
        require ((upper t).all A38.contains) .value >>= fun _ => .ok (eff t) := by
  obtain ⟨h1, h11⟩ : 1 ≤ argNat s.snapshot 1 ∧ argNat s.snapshot 1 ≤ 11 := h.lengths
  exact ⟨_, by
    rw [hashComputeRule, require_pass ⟨Nat.one_le_iff_ne_zero.mp h1, h11⟩, ok_bind, checkRanges_legal h rfl, ok_bind]⟩

/-- Every command that reads a text reads it first, and nothing after it. -/
theorem ruleOf_readChars {i : Instr} {s : State} (h : ArgsLegal i s.snapshot)
    (hi : i = .pack77 ∨ i = .hashSave ∨ i = .hashCompute) :
    ∃ f : List Char → Check Effect,
      ruleOf i s = readChars s.dmem (argNat s.snapshot 0) (argNat s.snapshot 1) >>= f ∧
        ∀ t, f t ≠ .error (.fault .uninitRead) := by
  rcases hi with rfl | rfl | rfl
  case inl =>
    refine ⟨fun t => .ok (packEffect s (argNat s.snapshot 2) (normalizedWords t)), ?_, fun t => nofun⟩
    rw [ruleOf, pack77Rule, require_pass (show argNat s.snapshot 1 ≤ 256 from h.lengths), ok_bind,
      checkRanges_legal h rfl, ok_bind]
  case inr.inl =>
    refine ⟨fun t => .ok (saveEffect s (canon t)), ?_, fun t => nofun⟩
    rw [ruleOf, hashSaveRule, require_pass (show argNat s.snapshot 1 ≤ 256 from h.lengths), ok_bind,
      checkRanges_legal h rfl, ok_bind]
  case inr.inr =>
    obtain ⟨eff, he⟩ := hashComputeRule_legal h
    refine ⟨_, he, fun t => ?_⟩
    cases (upper t).all A38.contains <;> exact nofun

/-- Only the reserved WIDTH has no hash width (R92). -/
theorem widthBits_defined {width : BitVec 2} (h : width ≠ 3) : ∃ w, widthBits width = some w := by
  have defined : ∀ v : BitVec 2, v ≠ 3 → (widthBits v).isSome = true := by decide
  exact Option.isSome_iff_exists.mp (defined width h)

theorem hashLookupRule_legal {width : BitVec 2} {s : State} (h : ArgsLegal (.hashLookup width) s.snapshot) :
    ∃ eff, hashLookupRule width s = .ok eff := by
  obtain ⟨w, hw⟩ := widthBits_defined (bne_iff_ne.mp h.wellFormed)
  exact ⟨_, by
    simp only [hashLookupRule, hw]
    rw [require_pass (h.hash width w rfl hw), ok_bind, require_pass (show 11 ≤ _ from h.lengths), ok_bind,
      checkRanges_legal h rfl, ok_bind]⟩

/-! ## Words that fail their check -/

/-- A held array with a word that its reader does not accept: the read stops with the reader's one error. -/
theorem readAll_rejects {α : Type} {f : Word64 → Check α} {m : Memory} {a : Nat} {ws : List Word64} {st : Stop}
    (hf : ∀ w ∈ ws, f w = .error st ∨ ∃ x, f w = .ok x) (hbad : ∃ w ∈ ws, f w = .error st)
    (h : HoldsWords m a ws) : readAll f m a ws.length = .error st := by
  induction ws generalizing a with
  | nil => exact nomatch hbad
  | cons w ws ih =>
    rw [List.length_cons, readAll, memRead_some h.head, ok_bind]
    rcases hf w List.mem_cons_self with hw | ⟨x, hx⟩
    · rw [hw, error_bind]
    · have hrest : ∃ v ∈ ws, f v = .error st := by
        obtain ⟨v, hv, hve⟩ := hbad
        rcases List.mem_cons.mp hv with rfl | hv
        · exact nomatch hx.symm.trans hve
        · exact ⟨v, hv, hve⟩
      rw [hx, ok_bind, ih (fun v hv => hf v (List.mem_cons_of_mem _ hv)) hrest h.tail, error_bind]

theorem asBit_rejects {w : Word64} (h0 : w ≠ 0) (h1 : w ≠ 1) : asBit w = .error (.error .value) := by
  rw [asBit, if_neg h0, if_neg h1]

theorem asBit_cases (w : Word64) : asBit w = .error (.error .value) ∨ ∃ b, asBit w = .ok b := by
  by_cases h0 : w = 0
  · exact .inr ⟨false, if_pos h0⟩
  · by_cases h1 : w = 1
    · exact .inr ⟨true, by rw [h1]; rfl⟩
    · exact .inl (asBit_rejects h0 h1)

theorem readBits_rejects {m : Memory} {a n : Nat} {ws : List Word64} (hn : ws.length = n) (h : HoldsWords m a ws)
    (hbad : ∃ w ∈ ws, w ≠ 0 ∧ w ≠ 1) : readBits m a n = .error (.error .value) := by
  subst hn
  obtain ⟨w, hw, h0, h1⟩ := hbad
  exact readAll_rejects (fun w _ => asBit_cases w) ⟨w, hw, asBit_rejects h0 h1⟩ h

theorem asChar_rejects {w : Word64} (h : 128 ≤ w.toNat) : asChar w = .error (.error .value) :=
  if_neg (Nat.not_lt.mpr h)

theorem asChar_cases (w : Word64) : asChar w = .error (.error .value) ∨ ∃ c, asChar w = .ok c := by
  rcases Nat.lt_or_ge w.toNat 128 with h | h
  · exact .inr ⟨_, if_pos h⟩
  · exact .inl (asChar_rejects h)

theorem readChars_rejects {m : Memory} {a n : Nat} {ws : List Word64} (hn : ws.length = n) (h : HoldsWords m a ws)
    (hbad : ∃ w ∈ ws, 128 ≤ w.toNat) : readChars m a n = .error (.error .value) := by
  subst hn
  obtain ⟨w, hw, hge⟩ := hbad
  exact readAll_rejects (fun w _ => asChar_cases w) ⟨w, hw, asChar_rejects hge⟩ h

theorem toNat_ofNat_lt {n : Nat} (h : n < 128) : (Char.ofNat n).toNat = n := by
  rw [Char.toNat_ofNat, if_pos (.inl (by omega))]

theorem charWord_ofNat {w : Word64} (h : w.toNat < 128) : charWord (Char.ofNat w.toNat) = w := by
  rw [charWord, toNat_ofNat_lt h, BitVec.ofNat_toNat, BitVec.setWidth_eq]

/-- Words below 128 are the characters they number (R17). -/
theorem readChars_ascii {m : Memory} {a n : Nat} {ws : List Word64} (hn : ws.length = n) (h : HoldsWords m a ws)
    (hlt : ∀ w ∈ ws, w.toNat < 128) : readChars m a n = .ok (ws.map fun w => Char.ofNat w.toNat) := by
  have hback : (ws.map fun w => Char.ofNat w.toNat).map charWord = ws := by
    rw [List.map_map]
    exact (List.map_congr_left fun w hw => charWord_ofNat (hlt w hw)).trans (List.map_id ws)
  refine readChars_ok (by rw [List.length_map, hn]) (fun c hc => ?_) (hback.symm ▸ h)
  obtain ⟨w, hw, rfl⟩ := List.mem_map.mp hc
  exact (toNat_ofNat_lt (hlt w hw)).symm ▸ hlt w hw

/-- A rule that stops with an error code raises it. -/
theorem exec_raises {i : Instr} {s : State} {e : ErrCode} (h : ruleOf i s = .error (.error e)) :
    ∃ t, exec i s = .next t ∧ Raised s t e :=
  ⟨_, (exec_eq_runCommand i s).trans (runCommand_error h), raised_raiseError s e⟩

/-- Settles O29, from the first read of each rule: it stops at the word that fails its check, and for HASH_COMPUTE
the check against A38 follows the read. -/
theorem valueErrors : Obligations.ValueErrors := by
  intro i s ws h
  refine ⟨fun r hb hlen hheld hbad => ?_, fun hi hlen hheld => ⟨fun hbad => ?_, ?_⟩⟩
  · obtain ⟨f, hf⟩ := ruleOf_bitOperand h hb
    exact exec_raises (by rw [hf, readBits_rejects hlen hheld hbad, error_bind])
  · obtain ⟨f, hf, -⟩ := ruleOf_readChars h hi
    exact exec_raises (by rw [hf, readChars_rejects hlen hheld hbad, error_bind])
  · rintro rfl hlt ⟨w, hw, hout⟩
    obtain ⟨eff, he⟩ := hashComputeRule_legal h
    have hall : (upper (ws.map fun w => Char.ofNat w.toNat)).all A38.contains = false :=
      List.all_eq_false.mpr ⟨_, List.mem_map_of_mem (List.mem_map_of_mem hw), by simpa using hout⟩
    exact exec_raises (by rw [ruleOf, he, readChars_ascii hlen hheld hlt, ok_bind, hall, require_false, error_bind])

/-! ## Words without a value -/

theorem Looks.fault_iff {α : Type} {m : Memory} {c : Check α} {A : Nat → Prop} (h : Looks m c A) :
    c = .error (.fault .uninitRead) ↔ ∃ a, A a ∧ readWord m a = none := by
  rcases h with ⟨hex, rfl⟩ | ⟨hall, x, rfl⟩
  · exact iff_of_true rfl hex
  · exact iff_of_false nofun fun ⟨a, ha, hn⟩ => hall a ha hn

/-- What follows a read and does not fault itself changes nothing about when the whole faults. -/
theorem Looks.bind_fault_iff {α β : Type} {m : Memory} {c : Check α} {f : α → Check β} {A : Nat → Prop}
    (h : Looks m c A) (hf : ∀ x, f x ≠ .error (.fault .uninitRead)) :
    c >>= f = .error (.fault .uninitRead) ↔ ∃ a, A a ∧ readWord m a = none := by
  rcases h with ⟨hex, rfl⟩ | ⟨hall, x, rfl⟩
  · exact iff_of_true rfl hex
  · exact iff_of_false (hf x) fun ⟨a, ha, hn⟩ => hall a ha hn

/-- Every word the command reads passes its check where it has a value (R15). -/
def WordsPass (i : Instr) (s : State) : Prop :=
  ∀ a w, ReadsWord i s.snapshot a → readWord s.dmem a = some w → PassesCheck i s.snapshot a w

theorem readsWord_bitOperand {i : Instr} {args : Regs8} {r : Range} (hb : bitOperand i args = some r) {a : Nat}
    (ha : r.base ≤ a ∧ a < r.base + r.len) : ReadsWord i args a := by
  cases i with
  | ldpcEncode | crc14Gen | crc14Check | unpack77 =>
    obtain rfl := Option.some.inj hb
    exact ⟨_, List.mem_singleton_self _, ha⟩
  | ldpcDecode maskEn =>
    cases maskEn with
    | false => exact nomatch hb
    | true =>
      obtain rfl := Option.some.inj hb
      exact ⟨_, List.mem_cons_of_mem _ (List.mem_singleton_self _), ha⟩
  | _ => exact nomatch hb

/-- A bit operand is all that its command reads, LDPC_DECODE's mask apart. -/
theorem readsWord_bitOperand_iff {i : Instr} {args : Regs8} {r : Range} (hb : bitOperand i args = some r)
    (hd : ∀ maskEn, i ≠ .ldpcDecode maskEn) (a : Nat) : r.base ≤ a ∧ a < r.base + r.len ↔ ReadsWord i args a := by
  refine ⟨readsWord_bitOperand hb, fun ha => ?_⟩
  cases i with
  | ldpcEncode | crc14Gen | crc14Check | unpack77 =>
    obtain rfl := Option.some.inj hb
    obtain ⟨r, hr, ha⟩ := ha
    exact List.mem_singleton.mp hr ▸ ha
  | ldpcDecode maskEn => exact absurd rfl (hd maskEn)
  | _ => exact nomatch hb

theorem looks_bitOperand {i : Instr} {s : State} {r : Range} (hb : bitOperand i s.snapshot = some r)
    (hp : WordsPass i s) : Looks s.dmem (readBits s.dmem r.base r.len) fun a => r.base ≤ a ∧ a < r.base + r.len :=
  looks_readBits fun a w h1 h2 hw => (hp a w (readsWord_bitOperand hb ⟨h1, h2⟩) hw).1 r hb h1 h2

theorem looks_ruleOf_bits {i : Instr} {s : State} {r : Range} (h : ArgsLegal i s.snapshot) (hp : WordsPass i s)
    (hb : bitOperand i s.snapshot = some r) (hd : ∀ maskEn, i ≠ .ldpcDecode maskEn) :
    Looks s.dmem (ruleOf i s) (ReadsWord i s.snapshot) := by
  obtain ⟨eff, he⟩ := ruleOf_readBits h hb hd
  rw [he]
  exact ((looks_bitOperand hb hp).map eff).congr (readsWord_bitOperand_iff hb hd)

theorem looks_ldpcDecodeRule {maskEn : Bool} {s : State} (h : ArgsLegal (.ldpcDecode maskEn) s.snapshot)
    (hp : WordsPass (.ldpcDecode maskEn) s) :
    Looks s.dmem (ldpcDecodeRule maskEn s) (ReadsWord (.ldpcDecode maskEn) s.snapshot) := by
  obtain ⟨eff, he⟩ := ldpcDecodeRule_legal h
  rw [he]
  have metrics (ap : List Bool) := (looks_readFs s.dmem (argNat s.snapshot 0) 174).map (eff ap)
  cases maskEn with
  | false =>
    exact ((looks_ok _ _).bind metrics).congr fun a => by simp [ReadsWord, inputRanges, rangeAt]
  | true =>
    exact ((looks_bitOperand (i := .ldpcDecode true) rfl hp).bind metrics).congr fun a => by
      simp [ReadsWord, inputRanges, rangeAt, or_comm]

theorem readsWord_text_iff {i : Instr} (hi : i = .pack77 ∨ i = .hashSave ∨ i = .hashCompute) (args : Regs8) (a : Nat) :
    ReadsWord i args a ↔ argNat args 0 ≤ a ∧ a < argNat args 0 + argNat args 1 := by
  rcases hi with rfl | rfl | rfl <;> simp [ReadsWord, inputRanges, rangeAt]

/-- The commands that read a text fault on its words alone: what HASH_COMPUTE checks after the read is an error. -/
theorem ruleOf_text_fault_iff {i : Instr} {s : State} (h : ArgsLegal i s.snapshot) (hp : WordsPass i s)
    (hi : i = .pack77 ∨ i = .hashSave ∨ i = .hashCompute) :
    ruleOf i s = .error (.fault .uninitRead) ↔ ∃ a, ReadsWord i s.snapshot a ∧ readWord s.dmem a = none := by
  obtain ⟨f, hf, hnf⟩ := ruleOf_readChars h hi
  have text := looks_readChars (m := s.dmem) (a := argNat s.snapshot 0) (n := argNat s.snapshot 1)
    fun a w h1 h2 hw => (hp a w ((readsWord_text_iff hi _ a).mpr ⟨h1, h2⟩) hw).2 hi
  rw [hf]
  exact (text.congr fun a => (readsWord_text_iff hi _ a).symm).bind_fault_iff hnf

/-- Both transforms read their two ranges whole (R129, R130). -/
theorem looks_transformCommand {s : State} (f : Nat → List Cplx → List Cplx) (h : ArgsLegal .fft s.snapshot) :
    Looks s.dmem (transformCommand f s) (ReadsWord .fft s.snapshot) := by
  obtain ⟨h1, hmax⟩ : 1 ≤ argNat s.snapshot 2 ∧ argNat s.snapshot 2 ≤ Config.nmaxFft := h.lengths
  have hr : checkRanges [] [⟨argNat s.snapshot 0, argNat s.snapshot 2⟩, ⟨argNat s.snapshot 1, argNat s.snapshot 2⟩]
      = .ok () :=
    checkRanges_ok (fun r hr => h.fit r (List.mem_append_right _ hr)) ((overlaps_false_iff _ _).mpr h.apart)
  rw [transformCommand, require_pass (Nat.one_le_iff_ne_zero.mp h1), ok_bind, require_pass hmax, ok_bind, hr, ok_bind]
  exact ((looks_readFs _ _ _).bind fun xr => (looks_readFs _ _ _).map _).congr fun a => by
    simp [ReadsWord, inputRanges, rangeAt]

theorem mixSource_cast {N : Nat} (hN : 1 ≤ N) (M : Nat) (k0 : Int) (j : Nat) :
    (mixSource N M k0 j : Int) = (k0 + mixOffset M j) % (N : Int) :=
  Int.toNat_of_nonneg (Int.emod_nonneg _ (by omega))

/-- MIX_DOWN reads the bins it takes, one for each j below M (R210). -/
theorem looks_mixDownRule {s : State} (h : ArgsLegal .mixDown s.snapshot) :
    Looks s.dmem (mixDownRule s) (ReadsWord .mixDown s.snapshot) := by
  obtain ⟨hN, hM, hMN, hmax⟩ : 1 ≤ argNat s.snapshot 2 ∧ 1 ≤ argNat s.snapshot 4 ∧
    argNat s.snapshot 4 ≤ argNat s.snapshot 2 ∧ argNat s.snapshot 4 ≤ Config.nmaxFft := h.lengths
  rw [mixDownRule, require_pass ⟨Nat.one_le_iff_ne_zero.mp hN, Nat.one_le_iff_ne_zero.mp hM⟩, ok_bind,
    require_pass ⟨hMN, hmax⟩, ok_bind, checkRanges_legal h rfl, ok_bind]
  refine ((looks_mixBins ..).map _).congr fun a => ⟨?_, ?_⟩
  · rintro ⟨j, hj, ha⟩
    exact ⟨j, List.mem_range.mp hj, _, mixSource_cast hN _ _ j, ha⟩
  · rintro ⟨j, hj, src, hsrc, ha⟩
    obtain rfl : src = mixSource _ _ _ j := Int.ofNat_inj.mp (hsrc.trans (mixSource_cast hN _ _ j).symm)
    exact ⟨j, List.mem_range.mpr hj, ha⟩

/-- SYMBOL_TONES reads the samples of its symbols that lie inside the signal (R212). -/
theorem looks_symbolTonesRule {mode : Mode} {s : State} (h : ArgsLegal (.symbolTones mode) s.snapshot) :
    Looks s.dmem (symbolTonesRule mode s) (ReadsWord (.symbolTones mode) s.snapshot) := by
  obtain ⟨hLs, hL, hNS, hmax, ht⟩ : 1 ≤ argNat s.snapshot 2 ∧ 1 ≤ argNat s.snapshot 3 ∧ 1 ≤ argNat s.snapshot 5 ∧
    argNat s.snapshot 3 ≤ Config.nmaxFft ∧ tones mode ≤ argNat s.snapshot 3 := h.lengths
  rw [symbolTonesRule, require_pass ⟨Nat.one_le_iff_ne_zero.mp hLs, Nat.one_le_iff_ne_zero.mp hL,
    Nat.one_le_iff_ne_zero.mp hNS⟩, ok_bind, require_pass ⟨hmax, ht⟩, ok_bind, checkRanges_legal h rfl, ok_bind]
  exact ((looks_symbolTones ..).map _).congr fun a => by simp only [Nat.zero_add, ReadsWord]

theorem looks_syncCountRule {mode : Mode} {s : State} (h : ArgsLegal (.syncCount mode) s.snapshot) :
    Looks s.dmem (syncCountRule mode s) (ReadsWord (.syncCount mode) s.snapshot) := by
  rw [syncCountRule, checkRanges_legal h rfl, ok_bind]
  exact (looks_countBlocks ..).map _

theorem looks_softBitsRule {mode : Mode} {s : State} (h : ArgsLegal (.softBits mode) s.snapshot) :
    Looks s.dmem (softBitsRule mode s) (ReadsWord (.softBits mode) s.snapshot) := by
  rw [softBitsRule, checkRanges_legal h rfl, ok_bind]
  exact (looks_readBlocks ..).map _

theorem looks_hashLookupRule {width : BitVec 2} {s : State} (h : ArgsLegal (.hashLookup width) s.snapshot) :
    Looks s.dmem (hashLookupRule width s) (ReadsWord (.hashLookup width) s.snapshot) := by
  obtain ⟨eff, he⟩ := hashLookupRule_legal h
  rw [he]
  exact looks_ok s.dmem eff

/-- When a rule meets the fault, for every command. -/
theorem ruleOf_fault_iff {i : Instr} {s : State} (h : ArgsLegal i s.snapshot) (hp : WordsPass i s) :
    ruleOf i s = .error (.fault .uninitRead) ↔ ∃ a, ReadsWord i s.snapshot a ∧ readWord s.dmem a = none := by
  cases i with
  | nop | hashClear | hashSize => exact (looks_ok s.dmem _).fault_iff
  | fft => exact (looks_transformCommand _ h).fault_iff
  | ifft => exact (looks_transformCommand _ ⟨rfl, nofun, h.lengths, h.fit, h.apart⟩).fault_iff
  | ldpcEncode | crc14Gen | crc14Check | unpack77 => exact (looks_ruleOf_bits h hp rfl nofun).fault_iff
  | ldpcDecode maskEn => exact (looks_ldpcDecodeRule h hp).fault_iff
  | mixDown => exact (looks_mixDownRule h).fault_iff
  | symbolTones mode => exact (looks_symbolTonesRule h).fault_iff
  | syncCount mode => exact (looks_syncCountRule h).fault_iff
  | softBits mode => exact (looks_softBitsRule h).fault_iff
  | pack77 => exact ruleOf_text_fault_iff h hp (.inl rfl)
  | hashSave => exact ruleOf_text_fault_iff h hp (.inr (.inl rfl))
  | hashCompute => exact ruleOf_text_fault_iff h hp (.inr (.inr rfl))
  | hashLookup width => exact (looks_hashLookupRule h).fault_iff

theorem runCommand_fault_iff {c : Check Effect} {s : State} {f : Fault} :
    runCommand c s = .fault f ↔ c = .error (.fault f) := by
  rcases c with (e | g) | eff <;> simp [runCommand]

/-- Settles O30, from what each rule looks at. -/
theorem valuelessReadsFault : Obligations.ValuelessReadsFault := fun i s h hp => by
  rw [exec_eq_runCommand, runCommand_fault_iff]
  exact ruleOf_fault_iff h hp

end Sys2Proof.Machine
end

section
/-! PROOFS. What every command does (R38, R41, R42, R44, R49, R72, R79, R322): read off its rule's effect. -/

namespace Sys2Proof.Machine

/-! ## What a rule reads -/

/-- An idle machine with a machine's operands: its argument snapshot, its data memory and its hash-call table. -/
def operandsOf (s : State) : State :=
  { State.reset with args := s.snapshot, dmem := s.dmem, ht := s.ht }

theorem ruleOf_operandsOf (i : Instr) (s : State) : ruleOf i (operandsOf s) = ruleOf i s := by
  cases i <;> rfl

theorem ruleOf_congr {i : Instr} {s s' : State} (ha : s'.snapshot = s.snapshot) (hm : s'.dmem = s.dmem)
    (ht : s'.ht = s.ht) : ruleOf i s' = ruleOf i s := by
  have h : operandsOf s' = operandsOf s := by rw [operandsOf, ha, hm, ht, operandsOf]
  rw [← ruleOf_operandsOf, h, ruleOf_operandsOf]

/-- Settles O23: the rule is the same, and the completion and the error take nothing else from the machine. -/
theorem snapshotDetermines : Obligations.SnapshotDetermines := by
  intro i s s' t ha hm ht h
  rw [exec_eq_runCommand] at h ⊢
  rw [ruleOf_congr ha hm ht]
  obtain ⟨eff, hr, rfl⟩ | ⟨e, hr, rfl⟩ := runCommand_next h
  · exact ⟨_, runCommand_ok hr, congrArg (writeRuns · eff.writes) hm, rfl, rfl, rfl, rfl⟩
  · exact ⟨_, runCommand_error hr, hm, ht, rfl, rfl, rfl⟩

/-! ## The memory -/

theorem SameOutside.of_inside {rs rs' : List Range} {m m' : Memory} (h : SameOutside rs m m')
    (hin : ∀ r ∈ rs, ∃ r' ∈ rs', r.base = r'.base ∧ r.len ≤ r'.len) : SameOutside rs' m m' := by
  refine fun b hb => h b fun r hr => ?_
  obtain ⟨r', hr', hbase, hlen⟩ := hin r hr
  have hout := hb r' hr'
  simp only [Range.mem, decide_eq_false_iff_not] at hout ⊢
  omega

theorem GoodEffect.sameOutside {i : Instr} {s : State} {eff : Effect} (h : GoodEffect i s eff) :
    SameOutside (outputRanges i s.snapshot) s.dmem (writeRuns s.dmem eff.writes) :=
  (sameOutside_writeRuns s.dmem eff.writes).of_inside fun r hr => by
    obtain ⟨run, hrun, rfl⟩ := List.mem_map.mp hr
    exact h.writes run hrun

theorem GoodEffect.inRange {i : Instr} {s : State} {eff : Effect} (h : GoodEffect i s eff)
    (hs : s.dmem.inRange = true) : (writeRuns s.dmem eff.writes).inRange = true :=
  inRange_writeRuns hs fun run hrun => by
    obtain ⟨r, hr, hbase, hlen⟩ := h.writes run hrun
    have hfit := h.fits r hr
    omega

/-- Settles O21: an error leaves the memory alone, and a completion writes runs that lie in the output ranges. -/
theorem memoryFrame : Obligations.MemoryFrame := by
  intro i s t ht h
  rw [exec_eq_runCommand] at h
  obtain ⟨eff, hr, rfl⟩ | ⟨e, -, rfl⟩ := runCommand_next h
  · have good := goodEffect_ruleOf ht hr
    exact ⟨good.sameOutside, good.inRange, fun hw => wf_writeRuns hw eff.writes⟩
  · exact ⟨fun _ _ => rfl, id, id⟩

/-! ## What a rule answers -/

/-- Every value that a computation can answer has the property. -/
def Yields {α : Type} (c : Check α) (P : α → Prop) : Prop := ∀ a, c = .ok a → P a

theorem yields_ok {α : Type} {P : α → Prop} {a : α} (h : P a) : Yields (.ok a) P := by
  rintro _ ⟨⟩
  exact h

theorem yields_error {α : Type} {P : α → Prop} (st : Stop) : Yields (.error st) P := nofun

theorem yields_bind {α β : Type} {P : β → Prop} {x : Check α} {f : α → Check β} (h : ∀ a, Yields (f a) P) :
    Yields (x >>= f) P := by
  intro b hb
  obtain ⟨a, -, hb⟩ := bind_ok_iff.mp hb
  exact h a b hb

/-! ## The hash-call table -/

/-- The commands whose rule does not look at the hash-call table (R79). -/
def tableFree : Instr → Bool
  | .unpack77 useHt => !useHt
  | .hashSave | .hashLookup _ | .hashClear | .hashSize => false
  | _ => true

/-- The effect with another hash-call table. -/
def Effect.withTable (h : HashTable) (eff : Effect) : Effect := { eff with ht := h }

theorem decodeEffect_table (s : State) (h : HashTable) (out : Nat) (llr : List F64) (r : DecodeReport) :
    decodeEffect { s with ht := h } out llr r = (decodeEffect s out llr r).withTable h := by
  unfold decodeEffect
  split <;> rfl

theorem packEffect_table (s : State) (h : HashTable) (out : Nat) (w : List (List Char)) :
    packEffect { s with ht := h } out w = (packEffect s out w).withTable h := by
  unfold packEffect
  split <;> rfl

theorem unpackEffect_table (s : State) (h : HashTable) (out : Nat) (m : List Bool) :
    unpackEffect false { s with ht := h } out m = (unpackEffect false s out m).withTable h := by
  have hu : unpackWith false h m = unpackWith false s.ht m := by simp only [unpackWith, Bool.false_eq_true, if_false]
  simp only [unpackEffect, hu]
  cases unpackWith false s.ht m <;> rfl

/-- A rule that does not look at the hash-call table hands on whatever it holds. -/
theorem ruleOf_tableFree {i : Instr} (hi : tableFree i = true) (s : State) (h : HashTable) :
    ruleOf i { s with ht := h } = ruleOf i s >>= fun eff => .ok (eff.withTable h) := by
  cases i with
  | nop => rfl
  | fft | ifft => simp only [ruleOf, transformCommand, bind_assoc, ok_bind]; rfl
  | ldpcEncode => simp only [ruleOf, ldpcEncodeRule, bind_assoc, ok_bind]; rfl
  | ldpcDecode maskEn =>
    simp only [ruleOf, ldpcDecodeRule, decodeEffect_table, bind_assoc, ok_bind]; rfl
  | crc14Gen => simp only [ruleOf, crc14GenRule, bind_assoc, ok_bind]; rfl
  | crc14Check => simp only [ruleOf, crc14CheckRule, bind_assoc, ok_bind]; rfl
  | mixDown => simp only [ruleOf, mixDownRule, bind_assoc, ok_bind]; rfl
  | symbolTones mode => simp only [ruleOf, symbolTonesRule, bind_assoc, ok_bind]; rfl
  | syncCount mode => simp only [ruleOf, syncCountRule, bind_assoc, ok_bind]; rfl
  | softBits mode => simp only [ruleOf, softBitsRule, bind_assoc, ok_bind]; rfl
  | pack77 => simp only [ruleOf, pack77Rule, packEffect_table, bind_assoc, ok_bind]; rfl
  | unpack77 useHt =>
    obtain rfl : useHt = false := by simpa [tableFree] using hi
    simp only [ruleOf, unpack77Rule, unpackEffect_table, bind_assoc, ok_bind]; rfl
  | hashCompute => simp only [ruleOf, hashComputeRule, bind_assoc, ok_bind]; rfl
  | hashSave | hashLookup | hashClear | hashSize => exact nomatch hi

/-- A rule that does not look at the table puts back the one it was given. -/
theorem tableFree_keeps {i : Instr} (hi : tableFree i = true) (s : State) :
    Yields (ruleOf i s) fun eff => eff.ht = s.ht := by
  intro eff h
  have hback := ruleOf_tableFree hi s s.ht
  rw [h, ok_bind] at hback
  exact congrArg Effect.ht (Except.ok.inj hback)

theorem hashLookup_keeps (width : BitVec 2) (s : State) :
    Yields (ruleOf (.hashLookup width) s) fun eff => eff.ht = s.ht := by
  show Yields (hashLookupRule width s) _
  unfold hashLookupRule
  split
  · exact yields_error _
  · refine yields_bind fun _ => yields_bind fun _ => yields_bind fun _ => yields_ok ?_
    unfold lookupEffect
    split <;> rfl

theorem ruleOf_keepsTable {i : Instr} (h1 : i ≠ .hashSave) (h2 : i ≠ .hashClear) (h3 : i ≠ .unpack77 true)
    (s : State) : Yields (ruleOf i s) fun eff => eff.ht = s.ht := by
  cases i with
  | hashSave => exact absurd rfl h1
  | hashClear => exact absurd rfl h2
  | hashLookup width => exact hashLookup_keeps width s
  | hashSize => exact yields_ok rfl
  | unpack77 useHt =>
    cases useHt with
    | true => exact absurd rfl h3
    | false => exact tableFree_keeps rfl s
  | _ => exact tableFree_keeps rfl s

theorem tableFree_of_ne {i : Instr} (h1 : i ≠ .hashSave) (h2 : i ≠ .hashClear) (h3 : i ≠ .unpack77 true)
    (h4 : ∀ width, i ≠ .hashLookup width) (h5 : i ≠ .hashSize) : tableFree i = true := by
  cases i with
  | hashSave => exact absurd rfl h1
  | hashClear => exact absurd rfl h2
  | hashLookup width => exact absurd rfl (h4 width)
  | hashSize => exact absurd rfl h5
  | unpack77 useHt =>
    cases useHt with
    | true => exact absurd rfl h3
    | false => rfl
  | _ => rfl

/-- A command whose rule does not look at the table does the same whatever the table holds, and hands it on. -/
theorem exec_tableFree {i : Instr} (hi : tableFree i = true) {s t : State} (h : HashTable)
    (he : exec i s = .next t) : exec i { s with ht := h } = .next { t with ht := h } := by
  rw [exec_eq_runCommand] at he ⊢
  rw [ruleOf_tableFree hi]
  obtain ⟨eff, hr, rfl⟩ | ⟨e, hr, rfl⟩ := runCommand_next he <;> rw [hr] <;> rfl

/-- Settles O22: the rules that keep the table, and among them those that do not look at it. -/
theorem tableFrame : Obligations.TableFrame := by
  refine ⟨fun i s t h h1 h2 h3 => ?_, fun i s t h he h1 h2 h3 h4 h5 =>
    exec_tableFree (tableFree_of_ne h1 h2 h3 h4 h5) h he⟩
  rw [exec_eq_runCommand] at h
  obtain ⟨eff, hr, rfl⟩ | ⟨e, -, rfl⟩ := runCommand_next h
  · exact ruleOf_keepsTable h1 h2 h3 s eff hr
  · rfl

/-! ## Completion and the success flag -/

theorem results_zero (v : Nat) (vs : List Nat) : (results (v :: vs))[0] = BitVec.ofNat 32 v := rfl

/-- The commands with a success flag (R38). -/
def flagged : Instr → Bool
  | .ldpcDecode _ | .crc14Check | .pack77 | .unpack77 _ | .hashSave | .hashLookup _ => true
  | _ => false

/-- A command without a success flag writes RES0 = 1. -/
theorem ruleOf_unflagged {i : Instr} (hi : flagged i = false) (s : State) :
    Yields (ruleOf i s) fun eff => eff.res[0] = 1 := by
  cases i with
  | nop | hashClear | hashSize => exact yields_ok rfl
  | fft | ifft =>
    exact yields_bind fun _ => yields_bind fun _ => yields_bind fun _ => yields_bind fun _ => yields_bind fun _ =>
      yields_ok rfl
  | ldpcEncode | crc14Gen | syncCount | softBits =>
    exact yields_bind fun _ => yields_bind fun _ => yields_ok rfl
  | mixDown | symbolTones | hashCompute =>
    exact yields_bind fun _ => yields_bind fun _ => yields_bind fun _ => yields_bind fun _ => yields_ok rfl
  | ldpcDecode | crc14Check | pack77 | unpack77 | hashSave | hashLookup => exact nomatch hi

/-- The success flag is 0 or 1. -/
theorem ruleOf_flagged {i : Instr} (hi : flagged i = true) (s : State) :
    Yields (ruleOf i s) fun eff => eff.res[0] = 0 ∨ eff.res[0] = 1 := by
  cases i with
  | ldpcDecode maskEn =>
    refine yields_bind fun _ => yields_bind fun _ => yields_bind fun _ => yields_ok ?_
    unfold decodeEffect
    split
    · exact .inr rfl
    · exact .inl rfl
  | crc14Check =>
    refine yields_bind fun _ => yields_bind fun w => yields_ok ?_
    cases h : crcOk w <;> simp [results_zero]
  | pack77 =>
    refine yields_bind fun _ => yields_bind fun _ => yields_bind fun _ => yields_ok ?_
    unfold packEffect
    split
    · exact .inl rfl
    · exact .inr rfl
  | unpack77 useHt =>
    refine yields_bind fun _ => yields_bind fun _ => yields_bind fun _ => yields_ok ?_
    unfold unpackEffect
    split
    · exact .inl rfl
    · split <;> exact .inr rfl
  | hashSave =>
    refine yields_bind fun _ => yields_bind fun _ => yields_bind fun _ => yields_ok ?_
    unfold saveEffect
    split
    · exact .inl rfl
    · exact .inr rfl
  | hashLookup width =>
    show Yields (hashLookupRule width s) _
    unfold hashLookupRule
    split
    · exact yields_error _
    · refine yields_bind fun _ => yields_bind fun _ => yields_bind fun _ => yields_ok ?_
      unfold lookupEffect
      split
      · exact .inl rfl
      · exact .inr rfl
  | nop | fft | ifft | ldpcEncode | crc14Gen | mixDown | symbolTones | syncCount | softBits | hashCompute | hashClear
  | hashSize => exact nomatch hi

theorem flagged_of_ne {i : Instr} (h1 : ∀ maskEn, i ≠ .ldpcDecode maskEn) (h2 : i ≠ .crc14Check) (h3 : i ≠ .pack77)
    (h4 : ∀ useHt, i ≠ .unpack77 useHt) (h5 : i ≠ .hashSave) (h6 : ∀ width, i ≠ .hashLookup width) :
    flagged i = false := by
  cases i with
  | ldpcDecode maskEn => exact absurd rfl (h1 maskEn)
  | crc14Check => exact absurd rfl h2
  | pack77 => exact absurd rfl h3
  | unpack77 useHt => exact absurd rfl (h4 useHt)
  | hashSave => exact absurd rfl h5
  | hashLookup width => exact absurd rfl (h6 width)
  | _ => rfl

/-- Settles O24: a completion writes the rule's results, and OK is bit 0 of the first. -/
theorem successFlag : Obligations.SuccessFlag := by
  intro i s t h hnone
  obtain ⟨eff, hr, he⟩ | ⟨e, hne, -, he⟩ | ⟨-, he⟩ := exec_cases i s
  · obtain rfl := Host.Outcome.next.inj (he.symm.trans h)
    refine ⟨rfl, ?_, fun h1 h2 h3 h4 h5 h6 => ?_⟩
    · cases hi : flagged i with
      | true => exact ruleOf_flagged hi s eff hr
      | false => exact .inr (ruleOf_unflagged hi s eff hr)
    · have hone : eff.res[0] = 1 := ruleOf_unflagged (flagged_of_ne h1 h2 h3 h4 h5 h6) s eff hr
      exact ⟨hone, congrArg (·.getLsbD 0) hone⟩
  · obtain rfl := Host.Outcome.next.inj (he.symm.trans h)
    exact absurd hnone hne
  · exact nomatch he.symm.trans h

/-! ## How a step runs a command -/

theorem engineStep_busy {s : State} {w : Word32} {args : Regs8} (h : s.phase = .busy w args) :
    engineStep s = completeCommand w s := by
  simp only [engineStep, State.fetchCommand, h]

theorem completeCommand_ok {w : Word32} {i : Instr} (h : decode w = .ok i) (s : State) :
    completeCommand w s = exec i s := by
  simp only [completeCommand, h]

theorem completeCommand_error {w : Word32} {e : DecodeError} (h : decode w = .error e) (s : State) :
    completeCommand w s = .next (s.raiseError (ErrCode.ofDecode e)) := by
  simp only [completeCommand, h]

theorem step_quiet {s : State} (h : s.bus = []) : step s = engineStep s := by
  simp only [step, h]

theorem step_engine {s : State} {rest : List BusEvent} (h : s.bus = .engine :: rest) :
    step s = engineStep { s with bus := rest } := by
  simp only [step, h, eventStep]

/-- Settles O20, from what every rule can stop with. -/
theorem commandsCompleteOrRaise : Obligations.CommandsCompleteOrRaise := by
  refine ⟨fun i s => ?_, fun s w args e hp hb hd => ?_⟩
  · obtain ⟨eff, -, h⟩ | ⟨e, he, -, h⟩ | ⟨-, h⟩ := exec_cases i s
    · exact .inl ⟨_, _, h, completed_commit s eff⟩
    · exact .inr (.inl ⟨_, e, he, h, raised_raiseError s e⟩)
    · exact .inr (.inr h)
  · exact ⟨_, by rw [step_quiet hb, engineStep_busy hp, completeCommand_error hd], raised_raiseError s _⟩

/-- Settles O3: the engine's own step, the listed completion, and the step after a placement all end the started
word. -/
theorem stepRunsTheDecodedCommand : Obligations.StepRunsTheDecodedCommand := by
  intro s w args i hd
  refine ⟨fun hp hb => ?_, fun rest hp hb => ?_, ?_⟩
  · rw [step_quiet hb, engineStep_busy hp, completeCommand_ok hd]
  · rw [step_engine hb, engineStep_busy (s := { s with bus := rest }) hp, completeCommand_ok hd]
  · have hw : BitVec.ofNat 32 (w.toNat % 2 ^ 32) = w := by
      rw [Nat.mod_eq_of_lt w.isLt, BitVec.ofNat_toNat, BitVec.setWidth_eq]
    have hp : (s.withFetchWord 32 w.toNat).phase = .busy w s.args := by rw [State.withFetchWord, hw]; rfl
    rw [step_quiet rfl, engineStep_busy hp, completeCommand_ok hd]

end Sys2Proof.Machine
end

section
/-! PROOFS. The host's accesses to the register file (R31 to R40, R53, R75, R330, R360) and the command line (R100). -/

namespace Sys2Proof.Machine

/-! ## What a read gives -/

theorem bankReg_mul (r : Regs8) (i : Fin 8) : bankReg r (4 * i.val) = r[i] := by
  rw [bankReg, Nat.mul_div_cancel_left _ (by decide), List.getD_eq_getElem _ _ (by simp)]
  simp

theorem readRegister_arg (s : State) (i : Fin 8) : s.readRegister (0x020 + 4 * i.val) = s.args[i] := by
  have hi := i.isLt
  rw [State.readRegister, if_neg (by omega), if_neg (by omega), if_neg (by omega), if_neg (by omega),
    if_neg (by omega), if_pos (by omega), Nat.add_sub_cancel_left, bankReg_mul]

theorem readRegister_res (s : State) (i : Fin 8) : s.readRegister (0x040 + 4 * i.val) = s.res[i] := by
  have hi := i.isLt
  rw [State.readRegister, if_neg (by omega), if_neg (by omega), if_neg (by omega), if_neg (by omega),
    if_neg (by omega), if_neg (by omega), if_pos (by omega), Nat.add_sub_cancel_left, bankReg_mul]

theorem readRegister_unnamed (s : State) {off : Nat} (h : 0x010 < off)
    (hn : off < 0x020 ∨ 0x03C < off ∧ off < 0x040 ∨ 0x05C < off) : s.readRegister off = 0 := by
  rw [State.readRegister, if_neg (by omega), if_neg (by omega), if_neg (by omega), if_neg (by omega),
    if_neg (by omega), if_neg (by omega), if_neg (by omega)]

theorem ctrlWord_bits (s : State) : s.ctrlWord.getLsbD 0 = s.ie ∧ s.ctrlWord.extractLsb' 1 31 = 0 := by
  unfold State.ctrlWord
  cases s.ie <;> decide

/-- The fields of STATUS, from bit 0 up (R34). -/
theorem statusWord_bits (s : State) :
    s.statusWord.getLsbD 0 = s.busy ∧ s.statusWord.getLsbD 1 = s.status.done ∧
      s.statusWord.getLsbD 2 = s.status.err ∧ s.statusWord.getLsbD 3 = s.status.ok ∧
      s.statusWord.getLsbD 4 = s.status.ovr ∧ s.statusWord.extractLsb' 5 3 = 0 ∧
      s.statusWord.extractLsb' 8 8 = s.status.errCode.code ∧ s.statusWord.extractLsb' 16 8 = s.status.lastOp ∧
      s.statusWord.extractLsb' 24 8 = 0 := by
  unfold State.statusWord
  refine ⟨?_, ?_, ?_, ?_, ?_, ?_, ?_, ?_, ?_⟩
  case refine_6 | refine_7 | refine_8 | refine_9 =>
    refine BitVec.eq_of_getLsbD_eq fun j hj => ?_
    simp only [BitVec.getLsbD_extractLsb', BitVec.getLsbD_append]
    interval_cases j <;> simp
  all_goals
    simp only [BitVec.getLsbD_append]
    simp

/-- Settles O8, register by register. -/
theorem registerReads : Obligations.RegisterReads := by
  intro s off rest ha ho hb
  refine ⟨_, step_readRegister ho ha hb, ?_, ?_, ?_, ?_, ?_, readRegister_unnamed s⟩
  · rintro rfl
    exact ctrlWord_bits s
  · rintro rfl
    exact statusWord_bits s
  · rintro rfl
    rfl
  · rintro i rfl
    exact readRegister_arg s i
  · rintro i rfl
    exact readRegister_res s i

/-! ## What a write does -/

theorem writeRegister_ctrl (v : Word32) (s : State) : s.writeRegister 0x008 v = s.writeCtrl v := rfl

theorem writeRegister_status (v : Word32) (s : State) : s.writeRegister 0x00C v = s.writeStatus v := rfl

theorem writeRegister_cmd (v : Word32) (s : State) : s.writeRegister 0x010 v = s.writeCmd v := rfl

theorem writeRegister_arg {k : Nat} (hk : k < 8) (v : Word32) (s : State) :
    s.writeRegister (0x020 + 4 * k) v = s.writeArg k v := by
  rw [State.writeRegister, if_neg (by omega), if_neg (by omega), if_neg (by omega), if_pos (by omega),
    Nat.add_sub_cancel_left, Nat.mul_div_cancel_left _ (by decide)]

theorem writeRegister_ignored {off : Nat} (h : off < 0x008 ∨ 0x010 < off ∧ (off < 0x020 ∨ 0x03C < off)) (v : Word32)
    (s : State) : s.writeRegister off v = s := by
  rw [State.writeRegister, if_neg (by omega), if_neg (by omega), if_neg (by omega), if_neg (by omega)]

theorem writeCtrl_mask {v : Word32} (h : v.getLsbD 1 = false) (s : State) :
    s.writeCtrl v = { s with ie := v.getLsbD 0 } := by
  rw [State.writeCtrl, h, if_neg Bool.false_ne_true]

theorem writeCtrl_reset {v : Word32} (h : v.getLsbD 1 = true) (s : State) : s.writeCtrl v = s.softReset := by
  rw [State.writeCtrl, if_pos h]

theorem writeCmd_idle {s : State} (h : s.busy = false) (v : Word32) : s.writeCmd v = s.startCommand v := by
  rw [State.writeCmd, h, if_neg Bool.false_ne_true]

theorem writeCmd_busy {s : State} (h : s.busy = true) (v : Word32) :
    s.writeCmd v = { s with status := { s.status with ovr := true } } := by
  rw [State.writeCmd, if_pos h]

theorem writeArg_fin (i : Fin 8) (v : Word32) (s : State) : s.writeArg i.val v = { s with args := s.args.set i v } := by
  have h : s.args.setIfInBounds i.val v = s.args.set i v := by
    ext j hj
    rw [Vector.getElem_setIfInBounds, Vector.getElem_set]
  rw [State.writeArg, h]

theorem step_writeArg {s : State} {k : Nat} (hk : k < 8) {v : Word32} {rest : List BusEvent}
    (hb : s.bus = st32 (regAddr (0x020 + 4 * k)) v :: rest) :
    step s = .next { s.writeArg k v with bus := rest, response := .written } := by
  rw [step_writeRegister (by omega) (by omega) hb, writeRegister_arg hk]
  rfl

theorem step_writeIgnored {s : State} {off : Nat} {v : Word32} {rest : List BusEvent} (ho : off < 0x100000)
    (ha : off % 4 = 0) (h : off < 0x008 ∨ 0x010 < off ∧ (off < 0x020 ∨ 0x03C < off))
    (hb : s.bus = st32 (regAddr off) v :: rest) :
    step s = .next { s with bus := rest, response := .written } := by
  rw [step_writeRegister ho ha hb, writeRegister_ignored h]

theorem step_writeStatus {s : State} {v : Word32} {rest : List BusEvent}
    (hb : s.bus = st32 (regAddr 0x00C) v :: rest) :
    step s = .next { s.writeStatus v with bus := rest, response := .written } := by
  rw [step_writeRegister (by decide) (by decide) hb, writeRegister_status]
  rfl

theorem step_writeCtrl_mask {s : State} {v : Word32} {rest : List BusEvent} (h : v.getLsbD 1 = false)
    (hb : s.bus = st32 (regAddr 0x008) v :: rest) :
    step s = .next { s with ie := v.getLsbD 0, bus := rest, response := .written } := by
  rw [step_writeRegister (by decide) (by decide) hb, writeRegister_ctrl, writeCtrl_mask h]

theorem step_writeCtrl_reset {s : State} {v : Word32} {rest : List BusEvent} (h : v.getLsbD 1 = true)
    (hb : s.bus = st32 (regAddr 0x008) v :: rest) :
    step s = .next { State.softReset { s with bus := rest } with response := .written } := by
  rw [step_writeRegister (by decide) (by decide) hb, writeRegister_ctrl, writeCtrl_reset h]

/-- Settles O9, register by register. -/
theorem registerWrites : Obligations.RegisterWrites := by
  intro s v off rest ha ho hb
  refine ⟨?_, ?_, ?_, fun h hn => step_writeIgnored ho ha (.inr ⟨h, hn⟩) hb⟩
  · rintro rfl hv
    exact step_writeCtrl_mask hv hb
  · rintro rfl
    exact step_writeStatus hb
  · rintro i rfl
    rw [step_writeArg i.isLt hb, writeArg_fin]

/-- Settles O7: the two offsets read constants, and a write there is ignored as at an unnamed offset. -/
theorem hardwiredIdentity : Obligations.HardwiredIdentity := fun _ _ _ =>
  ⟨step_readRegister (by decide) (by decide), step_readRegister (by decide) (by decide),
    step_writeIgnored (by decide) (by decide) (.inl (by decide)),
    step_writeIgnored (by decide) (by decide) (.inl (by decide))⟩

/-- Settles O5: the write reaches CMD, and an idle engine starts. -/
theorem commandStart : Obligations.CommandStart := by
  intro s w rest hidle hb
  rw [step_writeRegister (by decide) (by decide) hb, writeRegister_cmd,
    writeCmd_idle (s := { s with bus := rest }) hidle]
  rfl

/-- Settles O6: the write reaches CMD, and a busy engine drops it. -/
theorem commandDropped : Obligations.CommandDropped := by
  intro s w rest hbusy hb
  rw [step_writeRegister (by decide) (by decide) hb, writeRegister_cmd,
    writeCmd_busy (s := { s with bus := rest }) hbusy]

/-! ## The interrupt line -/

/-- Every completion sets DONE and leaves IE. -/
theorem irq_of_exec {i : Instr} {s t : State} (h : exec i s = .next t) : t.irq = s.ie ∧ t.status.done = true := by
  rw [exec_eq_runCommand] at h
  obtain ⟨eff, -, rfl⟩ | ⟨e, -, rfl⟩ := runCommand_next h
  · exact ⟨Bool.and_true _, rfl⟩
  · exact ⟨Bool.and_true _, rfl⟩

/-- Settles O10: a completion by its two forms, and the writes of CTRL and STATUS by the step each one makes. -/
theorem interruptLine : Obligations.InterruptLine := by
  refine ⟨fun i s t h => irq_of_exec h, fun s t v rest => ⟨fun hb hv h => ?_, fun hb hv h => ?_, fun hb hv h => ?_⟩⟩
  · obtain rfl := Host.Outcome.next.inj ((step_writeCtrl_mask hv hb).symm.trans h)
    exact ⟨rfl, rfl⟩
  · obtain rfl := Host.Outcome.next.inj ((step_writeCtrl_reset hv hb).symm.trans h)
    rfl
  · obtain rfl := Host.Outcome.next.inj ((step_writeStatus hb).symm.trans h)
    simp [State.irq, hv]

/-! ## The command line -/

theorem run_of_step {s t : State} (h : step s = .next t) (n : Nat) : core.run (n + 1) s = core.run n t := by
  have hcore : core.step s = .next t := h
  simp only [Host.Core.run, hcore]

/-- The three fields of every command's encoding (R90, R102). -/
theorem encode_fields (i : Instr) : Laws.EncodeFields.Statement i := by
  cases i with
  | nop => exact Laws.EncodeFields.nop
  | fft => exact Laws.EncodeFields.fft
  | ifft => exact Laws.EncodeFields.ifft
  | ldpcEncode => exact Laws.EncodeFields.ldpcEncode
  | ldpcDecode maskEn => exact Laws.EncodeFields.ldpcDecode maskEn
  | crc14Gen => exact Laws.EncodeFields.crc14Gen
  | crc14Check => exact Laws.EncodeFields.crc14Check
  | mixDown => exact Laws.EncodeFields.mixDown
  | symbolTones mode => exact Laws.EncodeFields.symbolTones mode
  | syncCount mode => exact Laws.EncodeFields.syncCount mode
  | softBits mode => exact Laws.EncodeFields.softBits mode
  | pack77 => exact Laws.EncodeFields.pack77
  | unpack77 useHt => exact Laws.EncodeFields.unpack77 useHt
  | hashCompute => exact Laws.EncodeFields.hashCompute
  | hashSave => exact Laws.EncodeFields.hashSave
  | hashLookup width => exact Laws.EncodeFields.hashLookup width
  | hashClear => exact Laws.EncodeFields.hashClear
  | hashSize => exact Laws.EncodeFields.hashSize

/-- A command's own row of the opcode map gives the command back from its flags, and defines them all (R92, R95). -/
theorem opcodeRow_opcode (i : Instr) :
    ∃ defined command, opcodeRow i.opcode = some (defined, command) ∧ i.flags &&& ~~~defined = 0 ∧
      command i.flags = i := by
  cases i with
  | ldpcDecode b | unpack77 b => cases b <;> exact ⟨_, _, rfl, by decide, by decide⟩
  | symbolTones mode | syncCount mode | softBits mode => cases mode <;> exact ⟨_, _, rfl, by decide, by decide⟩
  | hashLookup width =>
    refine ⟨_, _, rfl, ?_, ?_⟩ <;>
      · revert width
        decide
  | _ => exact ⟨_, _, rfl, by decide, rfl⟩

/-- The word of a command without a reserved field value decodes to it. -/
theorem decode_encode {i : Instr} (h : i.wellFormed = true) : decode (encode i) = .ok i := by
  obtain ⟨hop, hfl, hrsv⟩ := encode_fields i
  obtain ⟨defined, command, hrow, hdef, hcmd⟩ := opcodeRow_opcode i
  rw [decode, hop, hrow]
  simp only [hrsv, hfl, hdef, hcmd, h, ne_eq, not_true_eq_false, if_false, if_true]

/-- What the writes of arguments to ARG k, ARG k+1, ... leave: those arguments, and all else but the host's own
fields as it was. -/
structure ArgsWritten (k : Nat) (vs : List Word32) (s t : State) : Prop where
  args : ∀ j : Fin 8, t.args[j] = if k ≤ j.val then vs.getD (j.val - k) s.args[j] else s.args[j]
  phase : t.phase = s.phase
  dmem : t.dmem = s.dmem
  ht : t.ht = s.ht
  res : t.res = s.res
  ie : t.ie = s.ie

theorem argsWritten_nil (k : Nat) (s : State) : ArgsWritten k [] s s :=
  ⟨fun j => by simp, rfl, rfl, rfl, rfl, rfl⟩

theorem argsWritten_cons {k : Nat} {v : Word32} {vs : List Word32} {s s' t : State}
    (h : ArgsWritten (k + 1) vs s' t) (hargs : s'.args = (s.writeArg k v).args) (hphase : s'.phase = s.phase)
    (hdmem : s'.dmem = s.dmem) (hht : s'.ht = s.ht) (hres : s'.res = s.res) (hie : s'.ie = s.ie) :
    ArgsWritten k (v :: vs) s t := by
  refine ⟨fun j => ?_, h.phase.trans hphase, h.dmem.trans hdmem, h.ht.trans hht, h.res.trans hres, h.ie.trans hie⟩
  have hset : s'.args[j] = if k = j.val then v else s.args[j] := by
    rw [hargs, State.writeArg_args]
    exact Vector.getElem_setIfInBounds ..
  rw [h.args j, hset]
  rcases Nat.lt_trichotomy k j.val with hlt | rfl | hgt
  · rw [if_pos (show k + 1 ≤ j.val from hlt), if_pos hlt.le, if_neg hlt.ne,
      show j.val - k = j.val - (k + 1) + 1 by omega, List.getD_cons_succ]
  · simp
  · rw [if_neg (by omega), if_neg (by omega), if_neg (by omega)]

/-- The steps of a run of argument writes. -/
theorem run_argWrites {vs : List Word32} {k : Nat} {s : State} {rest : List BusEvent} (hk : k + vs.length ≤ 8)
    (hb : s.bus = argWrites k vs ++ rest) :
    ∃ t, (∀ n, core.run (vs.length + n) s = core.run n t) ∧ t.bus = rest ∧ ArgsWritten k vs s t := by
  induction vs generalizing k s with
  | nil => exact ⟨s, fun n => by rw [List.length_nil, Nat.zero_add], hb, argsWritten_nil k s⟩
  | cons v vs ih =>
    rw [List.length_cons] at hk
    have hfirst : s.bus = st32 (regAddr (0x020 + 4 * k)) v :: (argWrites (k + 1) vs ++ rest) := by
      rw [hb, argWrites, regAddr, Nat.add_assoc]; rfl
    have hstep := step_writeArg (by omega) hfirst
    obtain ⟨t, hrun, hbus, hw⟩ := ih (k := k + 1) (by omega) (s := { s.writeArg k v with
      bus := argWrites (k + 1) vs ++ rest, response := .written }) rfl
    refine ⟨t, fun n => ?_, hbus, argsWritten_cons hw rfl rfl rfl rfl rfl rfl⟩
    rw [List.length_cons, Nat.add_right_comm, run_of_step hstep, hrun]

/-- Settles O27: the argument writes, then the start, then the completion of the started word. -/
theorem commandLineRuns : Obligations.CommandLineRuns := by
  intro i args s rest hi hlen hidle hb
  have hb' : s.bus = argWrites 0 args ++ st32 (regAddr 0x010) (encode i) :: .engine :: rest := by
    rw [hb, commandLine, List.append_assoc]; rfl
  obtain ⟨t, hrun, hbus, hw⟩ := run_argWrites (by omega) hb'
  have hbusy : t.busy = false := by simp only [State.busy, hw.phase, hidle]
  refine ⟨_, (hrun 1).trans (run_of_step (commandStart t (encode i) _ hbusy hbus) 0), rfl, rfl, fun k => ?_, hw.dmem,
    hw.ht, hw.res, hw.ie, ?_⟩
  · simpa using hw.args k
  · rw [step_engine rfl, engineStep_busy rfl, completeCommand_ok (decode_encode hi)]

end Sys2Proof.Machine
end

section
/-! PROOFS. The invariant of the machine (R34, R35, R42, R45, R48, R291, R292): one lemma for each thing a step can
do, and the step itself by the event it takes. -/

namespace Sys2Proof.Machine

/-! ## Updates of the state -/

/-- The invariant speaks of the memory, the table, RES, CMD, the phase and three fields of STATUS alone. -/
theorem State.Inv.congr {s t : State} (h : s.Inv) (hmem : t.dmem = s.dmem) (htab : t.ht = s.ht) (hres : t.res = s.res)
    (hcmd : t.cmd = s.cmd) (hphase : t.phase = s.phase) (hop : t.status.lastOp = s.status.lastOp)
    (hok : t.status.ok = s.status.ok) (herr : t.status.errCode = s.status.errCode) : t.Inv := by
  obtain ⟨memory, bounds, table, lastOp, ok, failed, running⟩ := h
  refine ⟨hmem ▸ memory, hmem ▸ bounds, htab ▸ table, ?_, ?_, ?_, ?_⟩
  · rw [hop, hcmd, lastOp]
  · rw [hok, ok]
    simp only [hres]
  · rw [herr, hres]
    exact failed
  · rw [hphase, hcmd]
    exact running

theorem State.Inv.withBus {s : State} (h : s.Inv) (rest : List BusEvent) : State.Inv { s with bus := rest } :=
  h.congr rfl rfl rfl rfl rfl rfl rfl rfl

theorem State.Inv.withMemory {s : State} (h : s.Inv) {m : Memory} (hwf : m.wf = true) (hin : m.inRange = true) :
    State.Inv { s with dmem := m } :=
  ⟨hwf, hin, h.table, h.registers.lastOp, h.registers.ok, h.registers.failed, h.registers.running⟩

theorem State.Inv.startCommand {s : State} (h : s.Inv) (w : Word32) : (s.startCommand w).Inv :=
  ⟨h.memory, h.bounds, h.table, rfl, h.registers.ok, h.registers.failed, fun _ _ hp => (Phase.busy.inj hp).1⟩

theorem zero_flag : Regs8.zero[0].getLsbD 0 = false := by decide

theorem State.Inv.raiseError {s : State} (h : s.Inv) (e : ErrCode) : (s.raiseError e).Inv :=
  ⟨h.memory, h.bounds, h.table, h.registers.lastOp, zero_flag.symm, fun _ => rfl, nofun⟩

theorem GoodEffect.table_wf {i : Instr} {s : State} {eff : Effect} (h : GoodEffect i s eff) (hs : s.ht.wf = true) :
    eff.ht.wf = true := by
  obtain ht | ⟨x, hx, ht⟩ | ht := h.table
  · rw [ht, hs]
  · rw [ht, wf_save hs hx]
  · rw [ht, wf_empty]

theorem State.Inv.commit {s : State} (h : s.Inv) {i : Instr} {eff : Effect} (good : GoodEffect i s eff) :
    (s.commit eff).Inv :=
  ⟨wf_writeRuns h.memory eff.writes, good.inRange h.bounds, good.table_wf h.table, h.registers.lastOp, rfl,
    fun hne => absurd rfl hne, nofun⟩

/-! ## Soft reset -/

theorem wf_abandonWords {m : Memory} (h : m.wf = true) (k : Nat) (as : List Nat) :
    (abandonWords k m as).wf = true := by
  induction as generalizing k m with
  | nil => exact h
  | cons a as ih =>
    refine ih ?_ (k + 1)
    unfold abandonWord
    split
    · exact h
    · exact wf_writeWords h a _

theorem inRange_abandonWords {m : Memory} (h : m.inRange = true) (k : Nat) {as : List Nat}
    (has : ∀ a ∈ as, a < Config.dmemWords) : (abandonWords k m as).inRange = true := by
  induction as generalizing k m with
  | nil => exact h
  | cons a as ih =>
    refine ih ?_ (k + 1) fun b hb => has b (List.mem_cons_of_mem a hb)
    unfold abandonWord
    split
    · exact h
    · exact inRange_writeWords h (has a List.mem_cons_self)

theorem Range.words_lt {r : Range} {a : Nat} (h : a ∈ r.words) : a < Config.dmemWords := by
  obtain ⟨k, hk, rfl⟩ := List.mem_map.mp h
  have hlt : k < min r.len (Config.dmemWords - r.base) := List.mem_range.mp hk
  omega

theorem abandonedWords_lt {s : State} {a : Nat} (h : a ∈ s.abandonedWords) : a < Config.dmemWords := by
  obtain ⟨r, -, ha⟩ := List.mem_flatMap.mp h
  exact Range.words_lt ha

theorem State.Inv.softReset {s : State} (h : s.Inv) : s.softReset.Inv :=
  ⟨wf_abandonWords h.memory _ _, inRange_abandonWords h.bounds _ fun _ => abandonedWords_lt, wf_empty, rfl,
    zero_flag.symm, fun _ => rfl, nofun⟩

/-! ## The host's accesses -/

theorem State.Inv.writeCtrl {s : State} (h : s.Inv) (v : Word32) : (s.writeCtrl v).Inv := by
  unfold State.writeCtrl
  split
  · exact h.softReset
  · exact h.congr rfl rfl rfl rfl rfl rfl rfl rfl

theorem State.Inv.writeCmd {s : State} (h : s.Inv) (v : Word32) : (s.writeCmd v).Inv := by
  unfold State.writeCmd
  split
  · exact h.congr rfl rfl rfl rfl rfl rfl rfl rfl
  · exact h.startCommand v

theorem State.Inv.writeRegister {s : State} (h : s.Inv) (off : Nat) (v : Word32) : (s.writeRegister off v).Inv := by
  unfold State.writeRegister
  split
  · exact h.writeCtrl v
  split
  · exact h.congr rfl rfl rfl rfl rfl rfl rfl rfl
  split
  · exact h.writeCmd v
  split
  · exact h.congr rfl rfl rfl rfl rfl rfl rfl rfl
  · exact h

/-- An aligned window access stays inside the data memory (R71, R74). -/
theorem windowAccess_fits {off bytes : Nat} (h : windowAccess off bytes = true) (ho : off < 8 * Config.dmemWords) :
    off + bytes ≤ 8 * Config.dmemWords := by
  simp only [windowAccess, decide_eq_true_eq] at h
  simp only [Config.dmemWords] at ho ⊢
  obtain ⟨rfl | rfl, ha⟩ := h <;> omega

theorem targetOf_window_lt {addr off : Nat} (h : targetOf addr = .window off) : off < 8 * Config.dmemWords := by
  unfold targetOf targetOfOffset at h
  split at h
  · exact nomatch h
  split at h
  · exact nomatch h
  split at h
  · obtain rfl := Target.window.inj h
    omega
  split at h <;> exact nomatch h

theorem State.Inv.writeWindow {s t : State} (h : s.Inv) {off bytes : Nat} {v : Word64}
    (hfit : off + bytes ≤ 8 * Config.dmemWords) (ht : s.writeWindow off bytes v = .next t) : t.Inv := by
  unfold State.writeWindow at ht
  split at ht
  · exact nomatch ht
  · obtain rfl := Host.Outcome.next.inj ht
    exact (h.withMemory (wf_writeSpan h.memory off _)
      (inRange_writeSpan h.bounds (by rwa [length_leBytes]))).congr rfl rfl rfl rfl rfl rfl rfl rfl

theorem State.Inv.busWrite {s t : State} (h : s.Inv) {addr bytes : Nat} {v : Word64}
    (ht : busWrite addr bytes v s = .next t) : t.Inv := by
  unfold Machine.busWrite at ht
  cases htarget : targetOf addr with
  | register off =>
    simp only [htarget, writeTarget] at ht
    split at ht
    · obtain rfl := Host.Outcome.next.inj ht
      exact (h.writeRegister off _).congr rfl rfl rfl rfl rfl rfl rfl rfl
    · exact nomatch ht
  | window off =>
    simp only [htarget, writeTarget] at ht
    split at ht
    · rename_i haccess
      exact h.writeWindow (windowAccess_fits haccess (targetOf_window_lt htarget)) ht
    · exact nomatch ht
  | unmapped off =>
    simp only [htarget, writeTarget] at ht
    split at ht
    · obtain rfl := Host.Outcome.next.inj ht
      exact h.congr rfl rfl rfl rfl rfl rfl rfl rfl
    · exact nomatch ht
  | outside =>
    simp only [htarget, writeTarget] at ht
    obtain rfl := Host.Outcome.next.inj ht
    exact h

/-- A host read answers, and may draw a free value; nothing else changes (R75). -/
theorem busRead_next {s t : State} {addr bytes : Nat} (ht : busRead addr bytes s = .next t) :
    ∃ response draws, t = { s with response := response, draws := draws } := by
  unfold busRead readTarget at ht
  split at ht
  case h_4 =>
    obtain rfl := Host.Outcome.next.inj ht
    exact ⟨_, _, rfl⟩
  all_goals
    split at ht
    · obtain rfl := Host.Outcome.next.inj ht
      exact ⟨_, _, rfl⟩
    · exact nomatch ht

theorem State.Inv.busRead {s t : State} (h : s.Inv) {addr bytes : Nat} (ht : busRead addr bytes s = .next t) :
    t.Inv := by
  obtain ⟨response, draws, rfl⟩ := busRead_next ht
  exact h.congr rfl rfl rfl rfl rfl rfl rfl rfl

/-! ## The engine -/

theorem State.Inv.exec {s t : State} (h : s.Inv) {i : Instr} (ht : exec i s = .next t) : t.Inv := by
  rw [exec_eq_runCommand] at ht
  obtain ⟨eff, hr, rfl⟩ | ⟨e, -, rfl⟩ := runCommand_next ht
  · exact h.commit (goodEffect_ruleOf h.table hr)
  · exact h.raiseError e

theorem State.Inv.completeCommand {s t : State} (h : s.Inv) {w : Word32} (ht : completeCommand w s = .next t) :
    t.Inv := by
  unfold Machine.completeCommand at ht
  split at ht
  · exact h.exec ht
  · obtain rfl := Host.Outcome.next.inj ht
    exact h.raiseError _

theorem State.Inv.engineStep {s t : State} (h : s.Inv) (ht : engineStep s = .next t) : t.Inv := by
  unfold Machine.engineStep at ht
  split at ht
  · obtain rfl := Host.Outcome.next.inj ht
    exact h
  · exact h.completeCommand ht

theorem State.Inv.eventStep {s t : State} (h : s.Inv) {ev : BusEvent} (ht : eventStep ev s = .next t) : t.Inv := by
  cases ev with
  | engine => exact h.engineStep ht
  | read addr bytes => exact h.busRead ht
  | write addr bytes data => exact h.busWrite ht

/-- Settles O25, by the event the step takes. -/
theorem stepKeepsInvariant : Obligations.StepKeepsInvariant := by
  intro s t h ht
  unfold step at ht
  split at ht
  · exact h.engineStep ht
  · exact (h.withBus _).eventStep ht

end Sys2Proof.Machine
end

section
/-! PROOFS. The host's accesses to the data-memory window (R71, R73 to R76, R80, R327): the bytes of a store and of a
word, the step of each access of the window, and the accesses that are refused. -/

namespace Sys2Proof.Machine

/-! ## The bytes of a store -/

theorem getElem?_leBytes {n k : Nat} (hk : k < n) (v : Nat) :
    (leBytes n v)[k]? = some (BitVec.ofNat 8 (v / 256 ^ k)) := by
  induction n generalizing k v with
  | zero => exact absurd hk (Nat.not_lt_zero k)
  | succ n ih =>
    cases k with
    | zero => simp [leBytes]
    | succ k =>
      rw [leBytes, List.getElem?_cons_succ, ih (Nat.lt_of_succ_lt_succ hk), Nat.div_div_eq_div_mul, Nat.pow_succ']

/-- The window's byte order (R73): byte k of a value is its bits from 8k on. -/
theorem getElem?_leBytes_toNat {w n k : Nat} (hk : k < n) (v : BitVec w) :
    (leBytes n v.toNat)[k]? = some (v.extractLsb' (8 * k) 8) := by
  rw [getElem?_leBytes hk, BitVec.extractLsb', Nat.shiftRight_eq_div_pow, Nat.pow_mul]

theorem readByte_writeSpan_leBytes {w n k : Nat} (hk : k < n) (m : Memory) (a : Nat) (v : BitVec w) :
    readByte (writeSpan m a (leBytes n v.toNat)) (a + k) = some (v.extractLsb' (8 * k) 8) := by
  rw [readByte_writeSpan, length_leBytes, if_pos (by omega), Nat.add_sub_cancel_left, getElem?_leBytes_toNat hk]

/-- A store of eight bytes at a word's place is the store of a word. -/
theorem writeSpan_eq_writeWords (m : Memory) (a : Nat) (v : Word64) :
    writeSpan m (8 * a) (leBytes 8 v.toNat) = writeWords m a [v] := by
  rw [writeWords, wordBytes, List.flatMap_singleton]

/-! ## The value of a word -/

theorem readBytes_none_iff {m : Memory} {a n : Nat} :
    readBytes m a n = none ↔ ∃ k < n, readByte m (a + k) = none := by
  induction n generalizing a with
  | zero => simp [readBytes]
  | succ n ih =>
    have later : (∃ k < n, readByte m (a + (k + 1)) = none) ↔ readBytes m (a + 1) n = none := by
      simp only [ih, Nat.add_assoc, Nat.add_comm 1]
    rw [Nat.exists_lt_succ_left, Nat.add_zero, later, readBytes]
    cases readByte m a <;> cases readBytes m (a + 1) n <;> simp

/-- A word has no value exactly when one of its bytes has none (R76). -/
theorem readWord_none_iff {m : Memory} {a : Nat} : readWord m a = none ↔ ∃ k < 8, readByte m (8 * a + k) = none := by
  rw [readWord, Option.map_eq_none_iff, readBytes_none_iff]

theorem readWord_of_bytes {m : Memory} {a : Nat} {w : Word64}
    (h : ∀ k < 8, readByte m (8 * a + k) = some (w.extractLsb' (8 * k) 8)) : readWord m a = some w := by
  have hbytes : readBytes m (8 * a) (leBytes 8 w.toNat).length = some (leBytes 8 w.toNat) :=
    readBytes_eq fun k hk => by
      rw [length_leBytes] at hk
      rw [h k hk, getElem?_leBytes_toNat hk]
  rw [length_leBytes] at hbytes
  rw [readWord, hbytes, Option.map_some, ofNat_leNat_leBytes]

/-- A word is its two halves, the low one first (R73). -/
theorem readWord_of_halves {m : Memory} {a : Nat} {lo hi : Word32}
    (hlo : ∀ k < 4, readByte m (8 * a + k) = some (lo.extractLsb' (8 * k) 8))
    (hhi : ∀ k < 4, readByte m (8 * a + 4 + k) = some (hi.extractLsb' (8 * k) 8)) :
    readWord m a = some (hi ++ lo) := by
  refine readWord_of_bytes fun k hk => ?_
  by_cases hlow : k < 4
  · rw [hlo k hlow, BitVec.extractLsb'_append_eq_of_add_le (by omega)]
  · have hbyte := hhi (k - 4) (by omega)
    rw [show 8 * a + 4 + (k - 4) = 8 * a + k by omega, show 8 * (k - 4) = 8 * k - 32 by omega] at hbyte
    rw [hbyte, BitVec.extractLsb'_append_eq_of_le (by omega)]

/-- Settles O14: after both stores each byte is the later store's or, outside it, the earlier one's; after one store
a byte of the other half is as before. -/
theorem halfWords : Obligations.HalfWords := by
  intro m a lo hi
  refine ⟨readWord_none_iff, readWord_of_halves (fun k hk => ?_) fun k hk => ?_,
    readWord_of_halves (fun k hk => ?_) fun k hk => ?_, fun ⟨k, hk, hnone⟩ => ?_, fun ⟨k, hk, hnone⟩ => ?_⟩
  · rw [readByte_writeSpan_outside (.inl (by omega)), readByte_writeSpan_leBytes hk]
  · exact readByte_writeSpan_leBytes hk _ _ _
  · exact readByte_writeSpan_leBytes hk _ _ _
  · rw [readByte_writeSpan_outside (.inr (by rw [length_leBytes]; omega)), readByte_writeSpan_leBytes hk]
  · exact readWord_none_iff.mpr ⟨4 + k, by omega, by
      rw [readByte_writeSpan_outside (.inr (by rw [length_leBytes]; omega)), ← Nat.add_assoc, hnone]⟩
  · exact readWord_none_iff.mpr ⟨k, by omega, by rw [readByte_writeSpan_outside (.inl (by omega)), hnone]⟩

/-! ## The step of a window access -/

theorem windowAccess_double (a : Nat) : windowAccess (8 * a) 8 = true := by
  simp [windowAccess]

theorem windowAccess_half (a half : Nat) : windowAccess (8 * a + 4 * half) 4 = true :=
  decide_eq_true ⟨.inl rfl, by omega⟩

theorem step_stw {s : State} {a : Nat} {v : Word64} {rest : List BusEvent} (ha : a < 524288)
    (hb : s.bus = stw a v :: rest) : step s = State.writeWindow (8 * a) 8 v { s with bus := rest } :=
  step_writeWindow (by omega) (windowAccess_double a) hb

theorem step_st32 {s : State} {a half : Nat} {v : Word32} {rest : List BusEvent} (ha : a < 524288) (hh : half < 2)
    (hb : s.bus = st32 (windowAddr a + 4 * half) v :: rest) :
    step s = State.writeWindow (8 * a + 4 * half) 4 (v.setWidth 64) { s with bus := rest } :=
  step_writeWindow (by omega) (windowAccess_half a half) (by rw [hb, st32, windowAddr, Nat.add_assoc])

theorem step_ldw {s : State} {a : Nat} {rest : List BusEvent} (ha : a < 524288) (hb : s.bus = ldw a :: rest) :
    step s = .next (State.readWindow (8 * a) 8 { s with bus := rest }) :=
  step_readWindow (by omega) (windowAccess_double a) hb

theorem step_ld32 {s : State} {a half : Nat} {rest : List BusEvent} (ha : a < 524288) (hh : half < 2)
    (hb : s.bus = ld32 (windowAddr a + 4 * half) :: rest) :
    step s = .next (State.readWindow (8 * a + 4 * half) 4 { s with bus := rest }) :=
  step_readWindow (by omega) (windowAccess_half a half) (by rw [hb, ld32, windowAddr, Nat.add_assoc])

theorem wordOffset_div (a : Nat) : 8 * a / 8 = a := Nat.mul_div_cancel_left a (by decide)

theorem halfOffset_div {a half : Nat} (hh : half < 2) : (8 * a + 4 * half) / 8 = a := by omega

/-! ## Writes -/

/-- Settles O12, from the bytes of the one store. -/
theorem windowWrites : Obligations.WindowWrites := by
  intro s a rest ha hfree
  refine ⟨fun v hb => ⟨writeWords s.dmem a [v], ?_, readWord_writeWords s.dmem a [v] 0 Nat.one_pos, fun k hk => ?_,
    fun b hout => ?_⟩, fun v half hh hb =>
      ⟨writeSpan s.dmem (8 * a + 4 * half) (leBytes 4 (v.setWidth 64).toNat), ?_, fun k hk => ?_, fun b hout => ?_⟩⟩
  · rw [step_stw ha hb, writeWindow_free (by rwa [wordOffset_div]), writeSpan_eq_writeWords]
  · rw [← writeSpan_eq_writeWords, readByte_writeSpan_leBytes hk]
  · have hword : Range.mem ⟨a, 1⟩ (b / 8) = false := hout _ List.mem_cons_self
    have hne : ¬ (a ≤ b / 8 ∧ b / 8 < a + 1) := of_decide_eq_false hword
    exact readByte_writeWords_outside (by rw [List.length_singleton]; omega)
  · rw [step_st32 ha hh hb, writeWindow_free (by rwa [halfOffset_div hh])]
  · rw [readByte_writeSpan_leBytes hk, BitVec.extractLsb'_setWidth_of_le (by omega)]
  · exact readByte_writeSpan_outside (by rwa [length_leBytes])

theorem footprint_running {s : State} {w : Word32} {args : Regs8} {i : Instr} (hp : s.phase = .busy w args)
    (hd : decode w = .ok i) : s.footprint = inputRanges i args ++ outputRanges i args := by
  have hrun : s.running = some (i, args) := by simp only [State.running, hp, hd, Except.toOption, Option.map_some]
  rw [State.footprint, hrun]

/-- Settles O15: the written word lies in the footprint, by either width. -/
theorem hostRace : Obligations.HostRace := by
  intro s w args i a rest hp hd ha ⟨r, hr, hin⟩
  have hrace : ∃ r ∈ s.footprint, r.mem a = true := ⟨r, footprint_running hp hd ▸ hr, decide_eq_true hin⟩
  refine ⟨fun v hb => ?_, fun v half hh hb => ?_⟩
  · rw [step_stw ha hb, writeWindow_race (by rwa [wordOffset_div])]
  · rw [step_st32 ha hh hb, writeWindow_race (by rwa [halfOffset_div hh])]

/-! ## Reads -/

/-- A read of a word with a value that does not race changes only the answer. -/
theorem readWindow_value {s : State} {off a bytes : Nat} {w : Word64} (ho : off / 8 = a)
    (hr : ∀ r ∈ s.runningOutputs, r.mem a = false) (hw : readWord s.dmem a = some w) :
    s.readWindow off bytes = { s with response := windowData w off bytes } := by
  obtain ⟨hword, hdraws⟩ := hostWord_value hr hw
  rw [State.readWindow, ho, hword, hdraws, if_neg Bool.false_ne_true]

/-- A read that races draws the next free word. -/
theorem readWindow_race {s : State} {off a bytes : Nat} (ho : off / 8 = a)
    (hr : ∃ r ∈ s.runningOutputs, r.mem a = true) :
    s.readWindow off bytes
      = { s with response := windowData (Config.freeWord s.draws) off bytes, draws := s.draws + 1 } := by
  have hraced : s.raced a = true := List.any_eq_true.mpr hr
  rw [State.readWindow, ho, State.hostWord, State.drawsOn, hraced, if_pos rfl, Bool.true_or, if_pos rfl]

theorem windowData_double (w : Word64) (off : Nat) : windowData w off 8 = .data64 w := rfl

theorem windowData_low (w : Word64) (a : Nat) : windowData w (8 * a + 4 * 0) 4 = .data32 (w.extractLsb' 0 32) := by
  rw [windowData, if_neg (by decide), if_pos (by omega)]

theorem windowData_high (w : Word64) (a : Nat) : windowData w (8 * a + 4 * 1) 4 = .data32 (w.extractLsb' 32 32) := by
  rw [windowData, if_neg (by decide), if_neg (by omega)]

/-- A 32-bit read of a word with a value that does not race answers its half. -/
theorem step_ld32_value {s : State} {a half : Nat} {w : Word64} {rest : List BusEvent} (ha : a < 524288)
    (hh : half < 2) (hr : ∀ r ∈ s.runningOutputs, r.mem a = false) (hw : readWord s.dmem a = some w)
    (hb : s.bus = ld32 (windowAddr a + 4 * half) :: rest) :
    step s = .next { s with bus := rest, response := windowData w (8 * a + 4 * half) 4 } := by
  rw [step_ld32 ha hh hb, readWindow_value (s := { s with bus := rest }) (halfOffset_div hh) hr hw]

/-- Settles O13: the word the host sees, and its part by the width and the offset. -/
theorem windowReads : Obligations.WindowReads := by
  intro s a w rest ha
  refine ⟨fun hr hw => ⟨fun hb => ?_, fun hb => ?_, fun hb => ?_⟩, fun hr hb => ?_⟩
  · rw [step_ldw ha hb, readWindow_value (s := { s with bus := rest }) (wordOffset_div a) hr hw, windowData_double]
  · rw [step_ld32_value (half := 0) ha (by decide) hr hw (by rwa [Nat.mul_zero, Nat.add_zero]), windowData_low]
  · rw [step_ld32_value (half := 1) ha (by decide) hr hw hb, windowData_high]
  · rw [step_ldw ha hb, readWindow_race (s := { s with bus := rest }) (wordOffset_div a) hr, windowData_double]

/-! ## Refused accesses -/

/-- A part of the block that answers accesses of this width, a read and a write alike, with a bus error. -/
def Target.Refuses (t : Target) (bytes : Nat) : Prop :=
  ∀ (s : State) (v : Word64),
    readTarget t bytes s = .refused .busError ∧ writeTarget t bytes v s = .refused .busError

theorem register_refuses {off bytes : Nat} (h : registerAccess off bytes = false) :
    (Target.register off).Refuses bytes := fun s v => by
  simp only [readTarget, writeTarget, h, Bool.false_eq_true, if_false, and_self]

theorem window_refuses {off bytes : Nat} (h : windowAccess off bytes = false) :
    (Target.window off).Refuses bytes := fun s v => by
  simp only [readTarget, writeTarget, h, Bool.false_eq_true, if_false, and_self]

theorem step_refused {s : State} {addr bytes : Nat} {v : Word64} {rest : List BusEvent}
    (hb : s.bus = .read addr bytes :: rest ∨ s.bus = .write addr bytes v :: rest)
    (h : (targetOf addr).Refuses bytes) : step s = .refused .busError := by
  obtain ⟨hread, hwrite⟩ := h { s with bus := rest } v
  rcases hb with hb | hb
  · simp only [step, hb, eventStep, busRead, hread]
  · simp only [step, hb, eventStep, busWrite, hwrite]

/-- BASE is a multiple of 8 (log entry 6), so an address and its offset are aligned alike. -/
theorem registerAccess_illegal {off bytes : Nat} (h : bytes ≠ 4 ∨ (Config.base + off) % 4 ≠ 0) :
    registerAccess off bytes = false := by
  have hbase := base_mod
  exact decide_eq_false (by omega)

theorem windowAccess_illegal {off bytes : Nat}
    (h : (bytes ≠ 4 ∧ bytes ≠ 8) ∨ (Config.base + (0x100000 + off)) % bytes ≠ 0) :
    windowAccess off bytes = false := by
  have hbase := base_mod
  refine decide_eq_false ?_
  rintro ⟨rfl | rfl, haligned⟩ <;> omega

/-- Settles O11: each part of the address space by its own check. -/
theorem illegalAccesses : Obligations.IllegalAccesses := by
  intro s off bytes v rest hb
  refine ⟨fun ho h => step_refused hb ?_, fun hlow hhigh h => step_refused hb ?_⟩
  · rw [targetOf_register ho]
    exact register_refuses (registerAccess_illegal h)
  · obtain ⟨k, rfl⟩ := Nat.exists_eq_add_of_le hlow
    rw [← Nat.add_assoc, targetOf_window (by omega)]
    exact window_refuses (windowAccess_illegal h)

end Sys2Proof.Machine
end

section
/-! PROOFS. The argument checks of every command, in order (R72, R78, R122, R303, R325): each rule brought to one
form, a length check and then the range checks. -/

namespace Sys2Proof.Machine

/-! ## The form of a rule -/

theorem require_require (a b : Bool) (e : ErrCode) (f : Check Effect) :
    (require a e >>= fun _ => require b e >>= fun _ => f) = require (a && b) e >>= fun _ => f := by
  cases a <;> rfl

/-- A rule in the order of R325: its length check, its range checks, and what it does after them. -/
def ChecksInOrder (i : Instr) (args : Regs8) (c : Check Effect) : Prop :=
  ∃ (lengths : Bool) (rest : Check Effect), (lengths = true ↔ LengthsLegal i args) ∧
    c = require lengths .len >>= fun _ =>
      checkRanges (guardedInputs i args) (outputRanges i args) >>= fun _ => rest

/-- A rule without a length check. -/
theorem ChecksInOrder.of_ranges {i : Instr} {args : Regs8} (hl : LengthsLegal i args) (rest : Check Effect) :
    ChecksInOrder i args (checkRanges (guardedInputs i args) (outputRanges i args) >>= fun _ => rest) :=
  ⟨true, rest, iff_of_true rfl hl, rfl⟩

/-- A rule with one length check. -/
theorem ChecksInOrder.of_length {i : Instr} {args : Regs8} {p : Prop} [Decidable p] (hl : p ↔ LengthsLegal i args)
    (rest : Check Effect) :
    ChecksInOrder i args (require (decide p) .len >>= fun _ =>
      checkRanges (guardedInputs i args) (outputRanges i args) >>= fun _ => rest) :=
  ⟨decide p, rest, decide_eq_true_iff.trans hl, rfl⟩

/-- A rule with two length checks. -/
theorem ChecksInOrder.of_lengths {i : Instr} {args : Regs8} {p q : Prop} [Decidable p] [Decidable q]
    (hl : p ∧ q ↔ LengthsLegal i args) (rest : Check Effect) :
    ChecksInOrder i args (require (decide p) .len >>= fun _ => require (decide q) .len >>= fun _ =>
      checkRanges (guardedInputs i args) (outputRanges i args) >>= fun _ => rest) :=
  ⟨decide p && decide q, rest, by simpa using hl, require_require _ _ _ _⟩

theorem checksInOrder_transform {i : Instr} (hi : i = .fft ∨ i = .ifft) (f : Nat → List Cplx → List Cplx) (s : State) :
    ChecksInOrder i s.snapshot (transformCommand f s) := by
  rcases hi with rfl | rfl
  · exact .of_lengths (and_congr_left' Nat.one_le_iff_ne_zero.symm) _
  · exact .of_lengths (and_congr_left' Nat.one_le_iff_ne_zero.symm) _

theorem checksInOrder_ruleOf {i : Instr} {s : State} (hw : i.wellFormed = true) (hh : HashLegal i s.snapshot) :
    ChecksInOrder i s.snapshot (ruleOf i s) := by
  cases i with
  | nop => exact .of_ranges (i := .nop) trivial (nopRule s)
  | fft => exact checksInOrder_transform (.inl rfl) _ s
  | ifft => exact checksInOrder_transform (.inr rfl) _ s
  | ldpcEncode => exact .of_ranges (i := .ldpcEncode) trivial _
  | ldpcDecode maskEn => exact .of_ranges (i := .ldpcDecode maskEn) trivial _
  | crc14Gen => exact .of_ranges (i := .crc14Gen) trivial _
  | crc14Check => exact .of_ranges (i := .crc14Check) trivial _
  | mixDown => exact .of_lengths (by simp only [LengthsLegal, Config.nmaxFft]; omega) _
  | symbolTones mode => exact .of_lengths (by simp only [LengthsLegal, Config.nmaxFft]; omega) _
  | syncCount mode => exact .of_ranges (i := .syncCount mode) trivial _
  | softBits mode => exact .of_ranges (i := .softBits mode) trivial _
  | pack77 => exact .of_length (p := _ ≤ _) Iff.rfl _
  | unpack77 useHt => exact .of_length (p := _ ≤ _) Iff.rfl _
  | hashCompute => exact .of_length (and_congr_left' Nat.one_le_iff_ne_zero.symm) _
  | hashSave => exact .of_length (p := _ ≤ _) Iff.rfl _
  | hashLookup width =>
    obtain ⟨w, hdef⟩ := widthBits_defined (bne_iff_ne.mp hw)
    simp only [ruleOf, hashLookupRule, hdef]
    rw [require_pass (hh width w rfl hdef), ok_bind]
    exact .of_length (p := _ ≤ _) Iff.rfl _
  | hashClear => exact .of_ranges (i := .hashClear) trivial (hashClearRule s)
  | hashSize => exact .of_ranges (i := .hashSize) trivial (hashSizeRule s)

/-- Guarding only some of the inputs leaves out no range of the fit check: the transforms' inputs are their outputs
(R122). -/
theorem rangesFit_iff (i : Instr) (args : Regs8) :
    RangesFit i args ↔ ∀ r ∈ guardedInputs i args ++ outputRanges i args, r.base + r.len ≤ Config.dmemWords := by
  have inPlace : ∀ rs : List Range, (∀ r ∈ rs ++ rs, r.base + r.len ≤ Config.dmemWords) ↔
      ∀ r ∈ rs, r.base + r.len ≤ Config.dmemWords := fun rs => by simp only [List.mem_append, or_self]
  cases i with
  | fft => exact inPlace (outputRanges .fft args)
  | ifft => exact inPlace (outputRanges .ifft args)
  | _ => exact Iff.rfl

/-! ## The first check that fails -/

theorem ruleOf_reserved {i : Instr} (h : i.wellFormed = false) (s : State) : ruleOf i s = .error (.error .arg) := by
  cases i with
  | hashLookup width =>
    obtain rfl : width = 3 := by simpa [Instr.wellFormed] using h
    rfl
  | _ => exact nomatch h

theorem ruleOf_hash {i : Instr} {s : State} (h : ¬ HashLegal i s.snapshot) : ruleOf i s = .error (.error .arg) := by
  simp only [HashLegal, not_forall] at h
  obtain ⟨width, w, rfl, hdef, hbig⟩ := h
  simp only [ruleOf, hashLookupRule, hdef]
  rw [decide_eq_false hbig, require_false, error_bind]

section
variable {i : Instr} {args : Regs8} {c : Check Effect}

theorem ChecksInOrder.len (h : ChecksInOrder i args c) (hl : ¬ LengthsLegal i args) : c = .error (.error .len) := by
  obtain ⟨lengths, rest, hiff, rfl⟩ := h
  rw [Bool.eq_false_iff.mpr (mt hiff.mp hl), require_false, error_bind]

theorem ChecksInOrder.addr (h : ChecksInOrder i args c) (hl : LengthsLegal i args) (hf : ¬ RangesFit i args) :
    c = .error (.error .addr) := by
  obtain ⟨lengths, rest, hiff, rfl⟩ := h
  simp only [rangesFit_iff, not_forall] at hf
  obtain ⟨r, hr, hlong⟩ := hf
  rw [hiff.mpr hl, require_true, ok_bind, checkRanges_addr hr (Nat.lt_of_not_le hlong), error_bind]

theorem ChecksInOrder.overlap (h : ChecksInOrder i args c) (hl : LengthsLegal i args) (hf : RangesFit i args)
    (ho : ¬ NoOverlap i args) : c = .error (.error .overlap) := by
  obtain ⟨lengths, rest, hiff, rfl⟩ := h
  have hmeet : overlaps (guardedInputs i args) (outputRanges i args) = true :=
    Bool.eq_true_of_not_eq_false (mt (overlaps_false_iff _ _).mp ho)
  rw [hiff.mpr hl, require_true, ok_bind, checkRanges_overlap ((rangesFit_iff i args).mp hf) hmeet, error_bind]

end

/-- Settles O28, from the one form of every rule. -/
theorem argumentErrors : Obligations.ArgumentErrors := fun i s =>
  ⟨fun hw => exec_raises (ruleOf_reserved hw s), fun hh => exec_raises (ruleOf_hash hh), fun hw hh =>
    have hc : ChecksInOrder i s.snapshot (ruleOf i s) := checksInOrder_ruleOf hw hh
    ⟨fun hl => exec_raises (hc.len hl), fun hl hf => exec_raises (hc.addr hl hf),
      fun hl hf ho => exec_raises (hc.overlap hl hf ho)⟩⟩

end Sys2Proof.Machine
end

section
/-! PROOFS. Decoding and encoding of command words (R90, R91, R92, R95, R102): the fields of a word, the rows of the
opcode map, the checks of the decoder in their order, and the words of the commands. -/

namespace Sys2Proof.Machine

/-! ## The fields of a word -/

/-- The three fields of R90 make up the whole word. -/
theorem fields_append (w : Word32) : rsvField w ++ flField w ++ opField w = w := by
  have hhigh : rsvField w ++ flField w = w.extractLsb' 8 24 := BitVec.extractLsb'_append_extractLsb'_eq_extractLsb' rfl
  have hall : w.extractLsb' 8 24 ++ opField w = w.extractLsb' 0 32 :=
    BitVec.extractLsb'_append_extractLsb'_eq_extractLsb' rfl
  rw [hhigh, hall, BitVec.extractLsb'_eq_self]

theorem encode_eq_of_fields {i : Instr} {w : Word32} (hop : opField w = i.opcode) (hfl : flField w = i.flags)
    (hrsv : rsvField w = 0) : encode i = w := by
  rw [← fields_append w, hop, hfl, hrsv]
  rfl

/-! ## The rows of the opcode map -/

/-- What a row of the decoder's map is: a row of R95, whose commands carry the row's opcode and the flags they were
selected by, where those are all defined. -/
theorem opcodeRow_some {op : BitVec 8} {defined : BitVec 4} {command : BitVec 4 → Instr}
    (h : opcodeRow op = some (defined, command)) :
    (op, defined) ∈ opcodeMap ∧
      ∀ fl, fl &&& ~~~defined = 0 → (command fl).opcode = op ∧ (command fl).flags = fl := by
  unfold opcodeRow at h
  split at h
  case h_19 => exact nomatch h
  all_goals
    next hop =>
      obtain ⟨rfl, rfl⟩ := Prod.mk.inj (Option.some.inj h)
      obtain ⟨-, rfl⟩ := BitVec.toNat_eq_nat.mp hop
      decide

theorem opcodeRow_of_mem {op : BitVec 8} {fl : BitVec 4} (h : (op, fl) ∈ opcodeMap) :
    ∃ command, opcodeRow op = some (fl, command) := by
  have hrows : ∀ row ∈ opcodeMap, (opcodeRow row.1).map Prod.fst = some row.2 := by simp [opcodeMap, opcodeRow]
  obtain ⟨⟨_, command⟩, hrow, rfl⟩ := Option.map_eq_some_iff.mp (hrows _ h)
  exact ⟨command, hrow⟩

theorem opcodeRow_none {op : BitVec 8} (h : ∀ fl, (op, fl) ∉ opcodeMap) : opcodeRow op = none :=
  Option.eq_none_iff_forall_ne_some.mpr fun _ hrow => h _ (opcodeRow_some hrow).1

/-- The one reserved field value of the map is WIDTH = 3 of HASH_LOOKUP (R92). -/
theorem wellFormed_iff_not_reserved (i : Instr) : i.wellFormed = true ↔ ¬(i.opcode = 0x3A ∧ i.flags = 3) := by
  cases i with
  | hashLookup width =>
    revert width
    decide
  | _ => exact iff_of_true rfl fun h => absurd h.1 (by simp [Instr.opcode])

/-! ## The checks of the decoder -/

theorem decode_noRow {w : Word32} (h : opcodeRow (opField w) = none) : decode w = .error .opcode := by
  rw [decode, h]

section
variable {w : Word32} {defined : BitVec 4} {command : BitVec 4 → Instr}

theorem decode_reserved (hrow : opcodeRow (opField w) = some (defined, command)) (hrsv : rsvField w ≠ 0) :
    decode w = .error .reserved := by
  simp only [decode, hrow, if_pos hrsv]

theorem decode_undefinedFlag (hrow : opcodeRow (opField w) = some (defined, command)) (hrsv : rsvField w = 0)
    (hfl : flField w &&& ~~~defined ≠ 0) : decode w = .error .reserved := by
  simp only [decode, hrow, if_neg (not_not.mpr hrsv), if_pos hfl]

/-- Past the first three checks only the reserved field value is left to refuse. -/
theorem decode_defined (hrow : opcodeRow (opField w) = some (defined, command)) (hrsv : rsvField w = 0)
    (hfl : flField w &&& ~~~defined = 0) :
    decode w = if opField w = 0x3A ∧ flField w = 3 then .error .arg else .ok (command (flField w)) := by
  obtain ⟨hop, hflags⟩ := (opcodeRow_some hrow).2 _ hfl
  have hwf := wellFormed_iff_not_reserved (command (flField w))
  rw [hop, hflags] at hwf
  simp only [decode, hrow, if_neg (not_not.mpr hrsv), if_neg (not_not.mpr hfl), hwf, ite_not]

end

/-- A word that decodes encodes its command: it passed every check, so its fields are the command's. -/
theorem encode_of_decode {w : Word32} {i : Instr} (h : decode w = .ok i) : i.wellFormed = true ∧ encode i = w := by
  rcases hrow : opcodeRow (opField w) with _ | ⟨defined, command⟩
  · exact nomatch (decode_noRow hrow).symm.trans h
  by_cases hrsv : rsvField w = 0
  case neg => exact nomatch (decode_reserved hrow hrsv).symm.trans h
  by_cases hfl : flField w &&& ~~~defined = 0
  case neg => exact nomatch (decode_undefinedFlag hrow hrsv hfl).symm.trans h
  rw [decode_defined hrow hrsv hfl] at h
  split at h
  case isTrue => exact nomatch h
  case isFalse hlegal =>
    obtain rfl := Except.ok.inj h
    obtain ⟨hop, hflags⟩ := (opcodeRow_some hrow).2 _ hfl
    exact ⟨(wellFormed_iff_not_reserved _).mpr (by rwa [hop, hflags]),
      encode_eq_of_fields hop.symm hflags.symm hrsv⟩

/-- Settles O1: a word that decodes has its command's fields, and a command's own row gives it back. -/
theorem decodeInvertsEncode : Obligations.DecodeInvertsEncode := by
  refine fun w i => ⟨encode_of_decode, ?_⟩
  rintro ⟨hwf, rfl⟩
  exact decode_encode hwf

/-- Settles O2: the first check that fails names the error the step raises, and a word that passes them all runs. -/
theorem decodingOrder : Obligations.DecodingOrder := by
  intro s w args hp hb
  have raises : ∀ {e}, decode w = .error e → ∃ t, step s = .next t ∧ Raised s t (ErrCode.ofDecode e) :=
    fun hd => commandsCompleteOrRaise.2 s w args _ hp hb hd
  refine ⟨fun h => raises (decode_noRow (opcodeRow_none h)), fun fl hmem => ?_⟩
  obtain ⟨command, hrow⟩ := opcodeRow_of_mem hmem
  refine ⟨fun hrsv => raises (decode_reserved hrow hrsv),
    fun hrsv hfl => raises (decode_undefinedFlag hrow hrsv hfl), fun hrsv hop hwidth => ?_, fun hrsv hfl hlegal => ?_⟩
  · have hfl : flField w &&& ~~~fl = 0 := by
      rw [hop] at hrow
      obtain ⟨rfl, -⟩ := Prod.mk.inj (Option.some.inj hrow)
      rw [hwidth]
      decide
    exact raises (by rw [decode_defined hrow hrsv hfl, if_pos ⟨hop, hwidth⟩])
  · have hd : decode w = .ok (command (flField w)) := by rw [decode_defined hrow hrsv hfl, if_neg hlegal]
    obtain ⟨hwf, hw⟩ := encode_of_decode hd
    exact ⟨_, hwf, hw, (stepRunsTheDecodedCommand s w args _ hd).1 hp hb⟩

/-! ## The words of the commands -/

/-- The encoding as a number (R102). -/
theorem encode_toNat (i : Instr) : (encode i).toNat = i.opcode.toNat ||| (i.flags.toNat <<< 8) := by
  simp only [encode, BitVec.toNat_append, BitVec.toNat_ofNat, Nat.zero_mod, Nat.zero_shiftLeft,
    Nat.zero_or, Nat.or_comm]

theorem decode_iff_eq_word {i : Instr} {v : Word32} (hwf : i.wellFormed = true) (hv : encode i = v) (w : Word32) :
    decode w = .ok i ↔ w = v := by
  rw [decodeInvertsEncode w i, hv, and_iff_right hwf, eq_comm]

/-- Settles O4: the formula, and the word of each row by computing its encoding. -/
theorem commandWords : Obligations.CommandWords := by
  refine ⟨encode_toNat, fun w => ?_⟩
  have word {i : Instr} {v : Word32} (hwf : i.wellFormed = true) (hv : encode i = v) : decode w = .ok i ↔ w = v :=
    decode_iff_eq_word hwf hv w
  exact ⟨word rfl rfl, word rfl rfl, word rfl rfl, word rfl rfl, word rfl rfl, word rfl rfl, word rfl rfl,
    word rfl rfl, word rfl rfl, word rfl rfl, word rfl rfl, word rfl rfl, word rfl rfl, word rfl rfl, word rfl rfl,
    word rfl rfl, word rfl rfl, word rfl rfl, word rfl rfl, word rfl rfl, word rfl rfl, word rfl rfl, word rfl rfl,
    word rfl rfl, word rfl rfl⟩

end Sys2Proof.Machine
end

section
/-! PROOFS. The transforms (R120 to R130): the bit reversal, one radix-2 round, the two paths of a transform, and the
commands FFT and IFFT. -/

namespace Sys2Proof.Machine

/-! ## The bit reversal -/

theorem bitRev_lt (p j : Nat) : bitRev p j < 2 ^ p := by
  induction p generalizing j with
  | zero => exact Nat.one_pos
  | succ p ih =>
    have low : bitRev p (j / 2) < 2 ^ p := ih (j / 2)
    have high : j % 2 * 2 ^ p ≤ 1 * 2 ^ p := Nat.mul_le_mul_right _ (by omega)
    rw [bitRev, Nat.pow_succ]
    omega

/-- Bit k of the reversal is bit p - 1 - k of the index: the top bit is the index's lowest, the others come from its
half. -/
theorem testBit_bitRev {p k : Nat} (hk : k < p) (j : Nat) : (bitRev p j).testBit k = j.testBit (p - 1 - k) := by
  induction p generalizing j with
  | zero => exact absurd hk (Nat.not_lt_zero k)
  | succ p ih =>
    rw [bitRev, Nat.mul_comm, Nat.testBit_two_pow_mul_add _ (bitRev_lt p _)]
    split
    case isTrue hlow => rw [ih hlow, ← Nat.testBit_succ, show (p - 1 - k).succ = p + 1 - 1 - k by omega]
    case isFalse htop =>
      obtain rfl : k = p := by omega
      simp [Nat.testBit_zero]

theorem bitRev_bitRev {p j : Nat} (hj : j < 2 ^ p) : bitRev p (bitRev p j) = j := by
  refine Nat.eq_of_testBit_eq fun k => ?_
  by_cases hk : k < p
  · rw [testBit_bitRev hk, testBit_bitRev (by omega), show p - 1 - (p - 1 - k) = k by omega]
  · have hpow : 2 ^ p ≤ 2 ^ k := Nat.pow_le_pow_right (by decide) (Nat.le_of_not_lt hk)
    rw [Nat.testBit_lt_two_pow (Nat.lt_of_lt_of_le (bitRev_lt p _) hpow),
      Nat.testBit_lt_two_pow (Nat.lt_of_lt_of_le hj hpow)]

theorem elemAt_bitRevPermute {p j : Nat} (hj : j < 2 ^ p) (x : List Cplx) :
    elemAt (bitRevPermute p x) j = elemAt x (bitRev p j) := by
  rw [bitRevPermute, elemAt_map_range _ hj, celem_toArray]

/-- Settles O48, from the bits of the reversal. -/
theorem bitReversal : Obligations.BitReversal := fun p j hj =>
  ⟨bitRev_lt p j, bitRev_bitRev hj, fun _ hk => testBit_bitRev hk j,
    fun x _ => ⟨length_bitRevPermute p x, elemAt_bitRevPermute hj x⟩⟩

/-! ## One round -/

section
variable (T : Config.Trig) (inverse : Bool)

theorem twiddle_eq_unitAt (L k : Nat) :
    twiddle T inverse L k = unitAt T inverse (fdiv (fmul (fmul twoF64 piF64) (fofNat k)) (fofNat L)) := rfl

theorem chirp_eq_unitAt (N n : Nat) :
    chirp T inverse N n = unitAt T inverse (fdiv (fmul piF64 (fofNat (n * n % (2 * N)))) (fofNat N)) := rfl

theorem elemAt_r2Stage {L k : Nat} (hk : k < L) (half : Nat) (x : List Cplx) :
    elemAt (r2Stage T inverse L half x) k = r2Element T inverse L half x.toArray k :=
  elemAt_map_range _ hk

section
variable {half i j : Nat} (L : Nat) (x : List Cplx) (hi : 2 * half ∣ i) (hj : j < half)
include hi hj

/-- The upper output of a pair: the element is in the first half of its block. -/
theorem r2Element_upper :
    r2Element T inverse L half x.toArray (i + j) =
      cadd (elemAt x (i + j)) (cmul (twiddle T inverse L (j * (L / (2 * half)))) (elemAt x (i + j + half))) := by
  have hmod : (i + j) % (2 * half) = j := by
    rw [Nat.add_mod, Nat.mod_eq_zero_of_dvd hi, Nat.zero_add, Nat.mod_mod, Nat.mod_eq_of_lt (by omega)]
  simp only [r2Element, hmod, if_pos hj, Nat.mod_eq_of_lt hj, celem_toArray, cadd, cmul]

/-- The lower output of a pair: the element is in the second half of its block, `half` above its partner. -/
theorem r2Element_lower :
    r2Element T inverse L half x.toArray (i + j + half) =
      csub (elemAt x (i + j)) (cmul (twiddle T inverse L (j * (L / (2 * half)))) (elemAt x (i + j + half))) := by
  have hmod : (i + j + half) % (2 * half) = j + half := by
    rw [Nat.add_assoc, Nat.add_mod, Nat.mod_eq_zero_of_dvd hi, Nat.zero_add, Nat.mod_mod, Nat.mod_eq_of_lt (by omega)]
  have hlow : ¬ j + half < half := by omega
  simp only [r2Element, hmod, if_neg hlow, Nat.add_mod_right, Nat.mod_eq_of_lt hj, Nat.add_sub_cancel, celem_toArray,
    csub, cmul]

end

theorem round_r2Stage (L half : Nat) (x : List Cplx) : Round T inverse L half x (r2Stage T inverse L half x) where
  length := length_r2Stage T inverse L half x
  butterfly := by
    rintro i j hi hfit hj wr wi _ _ hw rfl rfl
    rw [← twiddle_eq_unitAt] at hw
    rw [elemAt_r2Stage T inverse (by omega), elemAt_r2Stage T inverse (by omega), r2Element_upper T inverse L x hi hj,
      r2Element_lower T inverse L x hi hj, ← hw]
    exact ⟨rfl, rfl⟩

end

/-- Settles O49: the round of R126 as the statements write it, with its twiddle. -/
theorem butterflyRound : Obligations.ButterflyRound :=
  fun T inverse L half i j x wr wi tr ti _ _ hj hi hfit hw htr hti =>
    (round_r2Stage T inverse L half x).butterfly i j hi hfit hj wr wi tr ti hw.symm htr hti

/-! ## The radix-2 transform -/

section
variable (T : Config.Trig) (inverse : Bool)

/-- The array of R126 after the permutation and the first q rounds. -/
def r2After (p : Nat) (x : List Cplx) (q : Nat) : List Cplx :=
  (List.range q).foldl (fun y q => r2Stage T inverse (2 ^ p) (2 ^ q) y) (bitRevPermute p x)

theorem r2_eq_r2After (p : Nat) (x : List Cplx) : r2 T inverse p x = r2After T inverse p x p := rfl

theorem r2After_succ (p : Nat) (x : List Cplx) (q : Nat) :
    r2After T inverse p x (q + 1) = r2Stage T inverse (2 ^ p) (2 ^ q) (r2After T inverse p x q) :=
  foldl_range_succ _ _ q

theorem radix2_r2 (p : Nat) (x : List Cplx) : Radix2 T inverse p x (r2 T inverse p x) := by
  refine ⟨r2After T inverse p x, length_bitRevPermute p x, fun j hj => elemAt_bitRevPermute hj x, fun q _ => ?_, rfl⟩
  rw [r2After_succ]
  exact round_r2Stage T inverse _ _ _

/-! ## The chirp transform -/

/-- The chirp w of R127. -/
def chirpWave (N : Nat) : List Cplx := (List.range N).map (chirp T inverse N)

/-- The padded product a of R127. -/
def chirpProduct (N : Nat) (x : List Cplx) : List Cplx :=
  (List.range (2 ^ chirpLog N)).map fun n =>
    if n < N then cmul (elemAt x n) (elemAt (chirpWave T inverse N) n) else (0, 0)

/-- The padded kernel b of R127. -/
def chirpKernel (N : Nat) : List Cplx :=
  (List.range (2 ^ chirpLog N)).map fun n =>
    if n < N then conj (elemAt (chirpWave T inverse N) n)
    else if 2 ^ chirpLog N - n < N then conj (elemAt (chirpWave T inverse N) (2 ^ chirpLog N - n)) else (0, 0)

/-- The product c of the transforms of a and b (R127). -/
def chirpSpectrum (N : Nat) (x : List Cplx) : List Cplx :=
  List.zipWith cmul (r2 T false (chirpLog N) (chirpProduct T inverse N x))
    (r2 T false (chirpLog N) (chirpKernel T inverse N))

theorem chirpTransform_eq (N : Nat) (x : List Cplx) :
    chirpTransform T inverse N x = (List.range N).map fun k =>
      cmul (elemAt (chirpWave T inverse N) k)
        (elemAt ((r2 T true (chirpLog N) (chirpSpectrum T inverse N x)).map fun z =>
          (fdiv z.1 (fofNat (2 ^ chirpLog N)), fdiv z.2 (fofNat (2 ^ chirpLog N)))) k) := by
  simp only [chirpTransform, celem_toArray, chirpWave, chirpProduct, chirpKernel, chirpSpectrum]

theorem elemAt_chirpWave {N n : Nat} (hn : n < N) : elemAt (chirpWave T inverse N) n = chirp T inverse N n :=
  elemAt_map_range _ hn

theorem length_chirpProduct (N : Nat) (x : List Cplx) : (chirpProduct T inverse N x).length = 2 ^ chirpLog N := by
  simp [chirpProduct]

theorem length_chirpKernel (N : Nat) : (chirpKernel T inverse N).length = 2 ^ chirpLog N := by
  simp [chirpKernel]

theorem length_chirpSpectrum (N : Nat) (x : List Cplx) : (chirpSpectrum T inverse N x).length = 2 ^ chirpLog N := by
  simp [chirpSpectrum, length_r2]

theorem elemAt_chirpSpectrum {N k : Nat} (hk : k < 2 ^ chirpLog N) (x : List Cplx) :
    elemAt (chirpSpectrum T inverse N x) k =
      cmul (elemAt (r2 T false (chirpLog N) (chirpProduct T inverse N x)) k)
        (elemAt (r2 T false (chirpLog N) (chirpKernel T inverse N)) k) :=
  elemAt_zipWith cmul (by rwa [length_r2]) (by rwa [length_r2])

/-- The chirp length holds the signal twice over, so the two copies of the chirp in the kernel do not meet. -/
theorem two_mul_sub_one_le_pow_chirpLog (N : Nat) : 2 * N - 1 ≤ 2 ^ chirpLog N := (ceilLog2_spec (2 * N - 1)).1

section
variable {N n : Nat}

theorem elemAt_chirpProduct (hn : n < N) (x : List Cplx) :
    elemAt (chirpProduct T inverse N x) n = cmul (elemAt x n) (elemAt (chirpWave T inverse N) n) := by
  have hlen := two_mul_sub_one_le_pow_chirpLog N
  rw [chirpProduct, elemAt_map_range _ (by omega), if_pos hn]

theorem elemAt_chirpProduct_padding (hn : N ≤ n) (hlt : n < 2 ^ chirpLog N) (x : List Cplx) :
    elemAt (chirpProduct T inverse N x) n = (0, 0) := by
  rw [chirpProduct, elemAt_map_range _ hlt, if_neg (Nat.not_lt_of_le hn)]

theorem elemAt_chirpKernel (hn : n < N) :
    elemAt (chirpKernel T inverse N) n = conj (elemAt (chirpWave T inverse N) n) := by
  have hlen := two_mul_sub_one_le_pow_chirpLog N
  rw [chirpKernel, elemAt_map_range _ (by omega), if_pos hn]

theorem elemAt_chirpKernel_mirror (h1 : 1 ≤ n) (hn : n < N) :
    elemAt (chirpKernel T inverse N) (2 ^ chirpLog N - n) = conj (elemAt (chirpWave T inverse N) n) := by
  have hlen := two_mul_sub_one_le_pow_chirpLog N
  have hback : 2 ^ chirpLog N - (2 ^ chirpLog N - n) = n := by omega
  rw [chirpKernel, elemAt_map_range _ (by omega), if_neg (by omega), hback, if_pos hn]

theorem elemAt_chirpKernel_padding (hN : 0 < N) (hn : N ≤ n) (hle : n ≤ 2 ^ chirpLog N - N) :
    elemAt (chirpKernel T inverse N) n = (0, 0) := by
  have hlen := two_mul_sub_one_le_pow_chirpLog N
  rw [chirpKernel, elemAt_map_range _ (by omega), if_neg (by omega), if_neg (by omega)]

end

/-- R127 line by line. -/
theorem chirp_chirpTransform {N : Nat} (hN : 0 < N) (x : List Cplx) :
    Chirp T inverse N x (chirpTransform T inverse N x) := by
  refine ⟨chirpLog N, 2 ^ chirpLog N, chirpWave T inverse N, chirpProduct T inverse N x, chirpKernel T inverse N, _, _,
    chirpSpectrum T inverse N x, _, rfl, two_mul_sub_one_le_pow_chirpLog N, (ceilLog2_spec (2 * N - 1)).2,
    fun n hn => elemAt_chirpWave T inverse hn,
    length_chirpProduct T inverse N x, fun n hn => elemAt_chirpProduct T inverse hn x,
    fun n hn hlt => elemAt_chirpProduct_padding T inverse hn hlt x,
    length_chirpKernel T inverse N, elemAt_chirpKernel T inverse hN,
    fun n h1 hn => ⟨elemAt_chirpKernel T inverse hn, elemAt_chirpKernel_mirror T inverse h1 hn⟩,
    fun n hn hle => elemAt_chirpKernel_padding T inverse hN hn hle,
    radix2_r2 T false _ _, radix2_r2 T false _ _,
    length_chirpSpectrum T inverse N x, fun k hk => elemAt_chirpSpectrum T inverse hk x,
    radix2_r2 T true _ _, by simp [chirpTransform_eq], fun k hk => ?_⟩
  have hlen := two_mul_sub_one_le_pow_chirpLog N
  rw [chirpTransform_eq, elemAt_map_range _ hk, elemAt_map _ (by rw [length_r2]; omega)]

/-! ## The transform of R121 -/

theorem transform_pow (p : Nat) (x : List Cplx) : transform T inverse (2 ^ p) x = r2 T inverse p x := by
  rw [transform, if_pos ((isPow2_iff _).mpr ⟨p, rfl⟩), Nat.log2_two_pow]

theorem transform_not_pow {N : Nat} (h : ¬ ∃ p, N = 2 ^ p) (x : List Cplx) :
    transform T inverse N x = chirpTransform T inverse N x := by
  rw [transform, if_neg (mt (isPow2_iff N).mp h)]

theorem transformed_transform {N : Nat} (hN : 0 < N) (x : List Cplx) :
    Transformed T inverse N x (transform T inverse N x) := by
  constructor
  · rintro p rfl
    rw [transform_pow]
    exact radix2_r2 T inverse p x
  · intro h
    rw [transform_not_pow T inverse h]
    exact chirp_chirpTransform T inverse hN x

theorem forwardResult {N : Nat} (hN : 0 < N) (x : List Cplx) : ForwardResult T N x (forwardTransform T N x) :=
  transformed_transform T false hN x

theorem inverseResult {N : Nat} (hN : 0 < N) (x : List Cplx) : InverseResult T N x (inverseTransform T N x) :=
  ⟨transform T true N x, transformed_transform T true hN x, rfl⟩

theorem forwardTransform_one (z : Cplx) : forwardTransform T 1 [z] = [z] := transform_pow T false 0 [z]

end

/-! ## Memory after writing what was there -/

theorem leBytes_leNat (bs : List Byte) : leBytes bs.length (leNat bs) = bs := by
  induction bs with
  | nil => rfl
  | cons b bs ih =>
    have hb : b.toNat < 256 := b.isLt
    have hlow : BitVec.ofNat 8 (b.toNat + 256 * leNat bs) = b :=
      BitVec.eq_of_toNat_eq (by rw [BitVec.toNat_ofNat]; omega)
    have hrest : (b.toNat + 256 * leNat bs) / 256 = leNat bs := by omega
    rw [List.length_cons, leNat, leBytes, hlow, hrest, ih]

theorem readBytes_some {m : Memory} {n a : Nat} {bs : List Byte} (h : readBytes m a n = some bs) :
    bs.length = n ∧ ∀ k < n, readByte m (a + k) = bs[k]? := by
  induction n generalizing a bs with
  | zero =>
    obtain rfl := Option.some.inj h
    exact ⟨rfl, fun k hk => absurd hk (Nat.not_lt_zero k)⟩
  | succ n ih =>
    rw [readBytes] at h
    split at h
    case h_1 b rest hb hrest =>
      obtain rfl := Option.some.inj h
      obtain ⟨hlen, hbytes⟩ := ih hrest
      refine ⟨by rw [List.length_cons, hlen], fun k hk => ?_⟩
      cases k with
      | zero => exact hb
      | succ k =>
        rw [List.getElem?_cons_succ, ← hbytes k (by omega), Nat.add_assoc, Nat.add_comm 1]
    case h_2 => exact nomatch h

/-- A byte of a word that has a value (R73). -/
theorem readByte_of_readWord {m : Memory} {b : Nat} {w : Word64} (h : readWord m (b / 8) = some w) :
    readByte m b = (leBytes 8 w.toNat)[b % 8]? := by
  obtain ⟨bs, hbs, hw⟩ := Option.map_eq_some_iff.mp h
  obtain ⟨hlen, hbytes⟩ := readBytes_some hbs
  have hval : leNat bs < 2 ^ 64 := by
    rw [← leBytes_leNat bs, leNat_leBytes, hlen]
    exact Nat.mod_lt _ (by decide)
  have hword : leBytes 8 w.toNat = bs := by
    rw [← hw, BitVec.toNat_ofNat, Nat.mod_eq_of_lt hval, ← hlen, leBytes_leNat]
  rw [hword, ← hbytes _ (Nat.mod_lt b (by decide)), Nat.div_add_mod]

/-- A command that writes words where they already stand changes no byte. -/
theorem Wrote.sameMemory {s t : State} {runs : List (Nat × List Word64)} (h : Wrote s t runs)
    (held : ∀ run ∈ runs, HoldsWords s.dmem run.1 run.2) : SameMemory s.dmem t.dmem := by
  intro b
  by_cases hin : ∃ run ∈ runs, run.1 ≤ b / 8 ∧ b / 8 < run.1 + run.2.length
  · obtain ⟨run, hrun, hlow, hhigh⟩ := hin
    obtain ⟨k, hk⟩ := Nat.exists_eq_add_of_le hlow
    have hlt : k < run.2.length := by omega
    have before : readWord s.dmem (b / 8) = some run.2[k] := hk ▸ held run hrun k hlt
    have after : readWord t.dmem (b / 8) = some run.2[k] := hk ▸ h.holds run hrun k hlt
    rw [readByte_of_readWord before, readByte_of_readWord after]
  · refine h.frame b fun r hr => ?_
    obtain ⟨run, hrun, rfl⟩ := List.mem_map.mp hr
    exact decide_eq_false fun hmem => hin ⟨run, hrun, hmem⟩

/-! ## The commands -/

/-- FFT and IFFT on legal operands, whatever transform of their length they apply. -/
theorem transformCommand_completes {f : Nat → List Cplx → List Cplx} (hlen : ∀ N x, (f N x).length = N) {s : State}
    {N : Nat} {xr xi : List F64} (hargs : LengthsLegal .fft s.snapshot) (hfit : RangesFit .fft s.snapshot)
    (hapart : NoOverlap .fft s.snapshot) (hN : argNat s.snapshot 2 = N) (hxr : xr.length = N) (hxi : xi.length = N)
    (hr : HoldsWords s.dmem (argNat s.snapshot 0) xr) (hi : HoldsWords s.dmem (argNat s.snapshot 1) xi) :
    ∃ t, runCommand (transformCommand f s) s = .next t ∧
      Completed s t (results [1, transformPath N, transformLength N]) ∧
      Wrote s t [(argNat s.snapshot 0, (f N (xr.zip xi)).map Prod.fst),
        (argNat s.snapshot 1, (f N (xr.zip xi)).map Prod.snd)] ∧ t.ht = s.ht := by
  subst hN
  have houts := hapart.2
  simp only [outputRanges, List.pairwise_pair] at houts
  refine ⟨_, runCommand_ok (transformCommand_ok hargs hfit hapart hxr hxi hr hi), completed_commit _ _,
    wrote_two rfl ?_, rfl⟩
  simpa only [List.length_map, hlen] using apart_of_not_meets houts

/-- Settles O32: the transforms by R126 and R127, and the commands by the one rule they share. -/
theorem transformsComplete : Obligations.TransformsComplete := by
  refine ⟨fun T N x hN _ => ⟨forwardResult T hN x, inverseResult T hN x⟩, fun s N xr xi hN hxr hxi hr hi => ?_⟩
  have pos (hlengths : LengthsLegal .fft s.snapshot) : 0 < N := hN ▸ hlengths.1
  constructor
  · intro hlegal
    obtain ⟨t, hexec, hdone, hwrote, hht⟩ := transformCommand_completes (length_forwardTransform Config.trig)
      hlegal.lengths hlegal.fit hlegal.apart hN hxr hxi hr hi
    refine ⟨t, _, _, _, (exec_eq_runCommand .fft s).trans hexec, hdone, transformPath_spec N, rfl,
      forwardResult _ (pos hlegal.lengths) _, hwrote, hht, fun hone => hwrote.sameMemory ?_⟩
    obtain ⟨re, rfl⟩ := List.length_eq_one_iff.mp (hxr.trans hone)
    obtain ⟨im, rfl⟩ := List.length_eq_one_iff.mp (hxi.trans hone)
    rw [hone, List.zip_cons_cons, List.zip_nil_left, forwardTransform_one]
    simpa using ⟨hr, hi⟩
  · intro hlegal
    obtain ⟨t, hexec, hdone, hwrote, hht⟩ := transformCommand_completes (length_inverseTransform Config.trig)
      hlegal.lengths hlegal.fit hlegal.apart hN hxr hxi hr hi
    exact ⟨t, _, _, _, (exec_eq_runCommand .ifft s).trans hexec, hdone, transformPath_spec N, rfl,
      inverseResult _ (pos hlegal.lengths) _, hwrote, hht⟩

end Sys2Proof.Machine
end

section
/-! PROOFS. The code (R150 to R154): a word's checks as sums over the field of two elements, and every codeword as the
sum of the codewords of its message's bits. -/

namespace Sys2Proof.Machine

/-! ## Bits in a ring where 1 + 1 = 0 -/

/-- A bit as 0 or 1 of a ring. -/
def bitIn (R : Type) [CommRing R] (b : Bool) : R := if b then 1 else 0

section
variable (R : Type) [CommRing R]

@[simp] theorem bitIn_true : bitIn R true = 1 := rfl

@[simp] theorem bitIn_false : bitIn R false = 0 := rfl

theorem bitIn_mul (b : Bool) (x : R) : bitIn R b * x = if b = true then x else 0 := boole_mul _ _

theorem bitIn_and (a b : Bool) : bitIn R (a && b) = bitIn R a * bitIn R b := by cases a <;> simp

theorem bitIn_xor [CharP R 2] (a b : Bool) : bitIn R (a ^^ b) = bitIn R a + bitIn R b := by
  cases a <;> cases b <;> simp [CharTwo.add_self_eq_zero]

theorem bitIn_foldl_xor [CharP R 2] (a : Bool) (bs : List Bool) :
    bitIn R (bs.foldl xor a) = bitIn R a + (bs.map (bitIn R)).sum := by
  induction bs generalizing a with
  | nil => simp
  | cons b bs ih => rw [List.foldl_cons, ih, bitIn_xor, List.map_cons, List.sum_cons, add_assoc]

theorem bitIn_xorAll [CharP R 2] (bs : List Bool) : bitIn R (xorAll bs) = (bs.map (bitIn R)).sum := by
  rw [xorAll, bitIn_foldl_xor, bitIn_false, zero_add]

theorem bitIn_eq_zero_iff [Nontrivial R] (b : Bool) : bitIn R b = 0 ↔ b = false := by cases b <;> simp

end

/-! ## Words and their checks -/

theorem bitAt_append_left {a : List Bool} (b : List Bool) {n : Nat} (h : n < a.length) :
    bitAt (a ++ b) n = bitAt a n := List.getD_append _ _ _ _ h

theorem bitAt_append_right {a : List Bool} (b : List Bool) {n : Nat} (h : a.length ≤ n) :
    bitAt (a ++ b) n = bitAt b (n - a.length) := List.getD_append_right _ _ _ _ h

theorem bitAt_map_range {f : Nat → Bool} {n k : Nat} (h : k < n) : bitAt ((List.range n).map f) k = f k := by
  simp [bitAt, List.getD_eq_getElem?_getD, h]

theorem bitAt_of_length_le {bs : List Bool} {n : Nat} (h : bs.length ≤ n) : bitAt bs n = false :=
  List.getD_eq_default _ _ h

/-- A word is a codeword exactly when none of its checks fails (R153). -/
theorem parityFail_eq_zero_iff (C : Config.LdpcTables) (c : List Bool) :
    parityFail C c = 0 ↔ ∀ m < 83, checkFails C c m = false := by
  simp [parityFail]

/-- A check is the sum of its bits. -/
theorem bitIn_checkFails (C : Config.LdpcTables) (c : List Bool) (m : Nat) :
    bitIn (ZMod 2) (checkFails C c m) = ((checkBits C m).map fun n => bitIn (ZMod 2) (bitAt c n)).sum := by
  rw [checkFails, bitIn_xorAll, List.map_map]
  rfl

/-! ## The encoder is linear -/

section
variable (C : Config.LdpcTables) (u : List Bool)

theorem sum_map_range {M : Type} [AddCommMonoid M] (f : Nat → M) (n : Nat) :
    ((List.range n).map f).sum = ∑ k ∈ Finset.range n, f k := rfl

theorem bitIn_parityBit (q : Nat) :
    bitIn (ZMod 2) (parityBit C u q) =
      ∑ k ∈ Finset.range 91, bitIn (ZMod 2) (bitAt u k) * bitIn (ZMod 2) (genBit C q k) := by
  rw [parityBit, bitIn_xorAll, List.map_map, ← sum_map_range]
  simp only [Function.comp_def, bitIn_and, mul_comm]

theorem length_unitMessage (k : Nat) : (unitMessage k).length = 91 := by simp [unitMessage]

theorem bitIn_unitMessage (k : Nat) {n : Nat} (hn : n < 91) :
    bitIn (ZMod 2) (bitAt (unitMessage k) n) = if n = k then 1 else 0 := by
  rw [unitMessage, bitAt_map_range hn]
  by_cases h : n = k <;> simp [h]

/-- The parity bits of a unit message are a column of the generator. -/
theorem bitIn_parityBit_unitMessage {k : Nat} (hk : k < 91) (q : Nat) :
    bitIn (ZMod 2) (parityBit C (unitMessage k) q) = bitIn (ZMod 2) (genBit C q k) := by
  rw [bitIn_parityBit, Finset.sum_eq_single_of_mem k (Finset.mem_range.mpr hk)]
  · rw [bitIn_unitMessage k hk, if_pos rfl, one_mul]
  · intro j hj hne
    rw [bitIn_unitMessage k (Finset.mem_range.mp hj), if_neg hne, zero_mul]

theorem bitAt_codeword_message {n : Nat} (hn : n < u.length) : bitAt (codeword C u) n = bitAt u n :=
  bitAt_append_left _ hn

theorem bitAt_codeword_parity {q : Nat} (hq : q < 83) :
    bitAt (codeword C u) (u.length + q) = parityBit C u q := by
  rw [codeword, bitAt_append_right _ (Nat.le_add_right _ _), Nat.add_sub_cancel_left, bitAt_map_range hq]

/-- A codeword is the sum of the codewords of the unit messages that its message is made of. -/
theorem bitIn_codeword (hu : u.length = 91) (n : Nat) :
    bitIn (ZMod 2) (bitAt (codeword C u) n) =
      ∑ k ∈ Finset.range 91,
        bitIn (ZMod 2) (bitAt u k) * bitIn (ZMod 2) (bitAt (codeword C (unitMessage k)) n) := by
  rcases Nat.lt_or_ge n 91 with hn | hn
  case inl =>
    rw [bitAt_codeword_message C u (hu ▸ hn), Finset.sum_eq_single_of_mem n (Finset.mem_range.mpr hn)]
    · rw [bitAt_codeword_message C _ (length_unitMessage n ▸ hn), bitIn_unitMessage n hn, if_pos rfl, mul_one]
    · intro k _ hne
      rw [bitAt_codeword_message C _ (length_unitMessage k ▸ hn), bitIn_unitMessage k hn, if_neg hne.symm, mul_zero]
  obtain ⟨q, rfl⟩ := Nat.exists_eq_add_of_le hn
  rcases Nat.lt_or_ge q 83 with hq | hq
  case inl =>
    rw [← hu, bitAt_codeword_parity C u hq, bitIn_parityBit, hu]
    refine Finset.sum_congr rfl fun k hk => ?_
    rw [← length_unitMessage k, bitAt_codeword_parity C _ hq, bitIn_parityBit_unitMessage C (Finset.mem_range.mp hk)]
  · have beyond (v : List Bool) (hv : v.length = 91) : bitAt (codeword C v) (91 + q) = false :=
      bitAt_of_length_le (by rw [length_codeword, hv]; omega)
    rw [beyond u hu, bitIn_false, Finset.sum_eq_zero fun k _ => ?_]
    rw [beyond _ (length_unitMessage k), bitIn_false, mul_zero]

/-- The sum over a list of sums is the sum of the sums over the list. -/
theorem sum_map_finsetSum {M : Type} [AddCommMonoid M] (l : List Nat) (s : Finset Nat) (f : Nat → Nat → M) :
    (l.map fun n => ∑ k ∈ s, f n k).sum = ∑ k ∈ s, (l.map fun n => f n k).sum :=
  Multiset.sum_map_sum_map (l : Multiset Nat) s.1

/-- A check of a codeword is the sum of the checks of those unit codewords. -/
theorem bitIn_checkFails_codeword (hu : u.length = 91) (m : Nat) :
    bitIn (ZMod 2) (checkFails C (codeword C u) m) =
      ∑ k ∈ Finset.range 91,
        bitIn (ZMod 2) (bitAt u k) * bitIn (ZMod 2) (checkFails C (codeword C (unitMessage k)) m) := by
  simp only [bitIn_checkFails, bitIn_codeword C u hu, sum_map_finsetSum, List.sum_map_mul_left]

/-- Tables whose unit codewords pass every check pass every check on every codeword. -/
theorem parityFail_codeword (hunit : ∀ k < 91, parityFail C (codeword C (unitMessage k)) = 0) (hu : u.length = 91) :
    parityFail C (codeword C u) = 0 := by
  refine (parityFail_eq_zero_iff C _).mpr fun m hm => ?_
  rw [← bitIn_eq_zero_iff (ZMod 2), bitIn_checkFails_codeword C u hu, Finset.sum_eq_zero fun k hk => ?_]
  have pass := (parityFail_eq_zero_iff C _).mp (hunit k (Finset.mem_range.mp hk)) m hm
  rw [pass, bitIn_false, mul_zero]

/-- The message of zeros has the codeword of zeros (R157). -/
theorem codeword_zeros : codeword C (List.replicate 91 false) = List.replicate 174 false := by
  have parity (q : Nat) : parityBit C (List.replicate 91 false) q = false := by
    rw [← bitIn_eq_zero_iff (ZMod 2), bitIn_parityBit, Finset.sum_eq_zero fun k hk => ?_]
    rw [bitAt, List.getD_replicate _ (Finset.mem_range.mp hk), bitIn_false, zero_mul]
  rw [codeword, List.map_congr_left fun q _ => parity q, List.map_const', List.length_range,
    List.replicate_append_replicate]

end

/-! ## The block's tables -/

theorem unitCodewords_of_validTables {C : Config.LdpcTables} (h : validTables C = true) :
    ∀ k < 91, parityFail C (codeword C (unitMessage k)) = 0 := by
  rw [validTables, Bool.and_eq_true, List.all_eq_true] at h
  exact fun k hk => of_decide_eq_true (h.2 k (List.mem_range.mpr hk))

theorem checkBits_emptyTables (m : Nat) : checkBits emptyTables m = [] :=
  List.getD_eq_getElem?_getD.trans (List.getElem?_getD_replicate_default_eq _ 83 m)

theorem parityFail_emptyTables (c : List Bool) : parityFail emptyTables c = 0 :=
  (parityFail_eq_zero_iff _ _).mpr fun m _ => by rw [checkFails, checkBits_emptyTables]; rfl

/-- The tables of the model meet R154 on the unit messages: valid ones by the check, the empty ones having no checks
(log entry 4). -/
theorem unitCodewords_ldpcCode : ∀ k < 91, parityFail ldpcCode (codeword ldpcCode (unitMessage k)) = 0 := by
  unfold ldpcCode
  split
  case isTrue h => exact unitCodewords_of_validTables h
  case isFalse => exact fun k _ => parityFail_emptyTables _

/-- Settles O50: a failing check would fail on some unit message. -/
theorem codewordsPassParity : Obligations.CodewordsPassParity := fun u hu =>
  ⟨by rw [length_codeword, hu], by rw [codeword, ← hu, List.take_left],
    parityFail_codeword ldpcCode u unitCodewords_ldpcCode hu⟩

end Sys2Proof.Machine
end

section
/-! PROOFS. The CRC (R155, R156): the register as a polynomial over the field of two elements, the step as a
multiplication by x modulo P, and the word that a payload makes with its CRC. -/

namespace Sys2Proof.Machine

/-! ## The register's bits -/

section
variable (r : BitVec 14) (b : Bool)

theorem getLsbD_crcStep_zero : (crcStep r b).getLsbD 0 = (b ^^ r.getLsbD 13) := by
  unfold crcStep
  cases b <;> cases h : r.getLsbD 13 <;> simp

theorem getLsbD_crcStep_succ {j : Nat} (hj : j < 13) :
    (crcStep r b).getLsbD (j + 1) = (r.getLsbD j ^^ (r.getLsbD 13 && (0x2757#14).getLsbD (j + 1))) := by
  have hin : j + 1 < 14 := by omega
  unfold crcStep
  cases b <;> cases h : r.getLsbD 13 <;> simp [hin, BitVec.getLsbD_eq_getElem (show j < 14 by omega)]

end

/-! ## The remainder -/

section
variable {R : Type} [CommRing R] (x : R)

/-- The polynomial of a register at x: bit j is the coefficient of x^j (R155). -/
def registerPoly (r : BitVec 14) : R := ∑ j ∈ Finset.range 14, bitIn R (r.getLsbD j) * x ^ j

/-- P(x) of R155. -/
def crcPoly : R := x ^ 14 + registerPoly x 0x2757#14

/-- The polynomial of a bit string at x: its last bit is the constant coefficient (R155). -/
def stringPoly (bs : List Bool) : R :=
  ∑ i ∈ Finset.range bs.length, bitIn R (bitAt bs i) * x ^ (bs.length - 1 - i)

theorem stringPoly_append_singleton (bs : List Bool) (b : Bool) :
    stringPoly x (bs ++ [b]) = x * stringPoly x bs + bitIn R b := by
  have last : bitAt (bs ++ [b]) bs.length = b := by simp [bitAt]
  rw [stringPoly, List.length_append, List.length_singleton, Finset.sum_range_succ, Nat.add_sub_cancel, last,
    Nat.sub_self, pow_zero, mul_one, stringPoly, Finset.mul_sum]
  congr 1
  refine Finset.sum_congr rfl fun i hi => ?_
  have hlt : i < bs.length := Finset.mem_range.mp hi
  rw [bitAt_append_left _ hlt, show bs.length - i = bs.length - 1 - i + 1 by omega, pow_succ]
  ring

theorem registerPoly_zero : registerPoly x 0 = 0 :=
  Finset.sum_eq_zero fun j _ => by simp

/-- The bits of a register above the lowest, and the lowest. -/
theorem registerPoly_low (r : BitVec 14) :
    registerPoly x r =
      ∑ j ∈ Finset.range 13, bitIn R (r.getLsbD (j + 1)) * x ^ (j + 1) + bitIn R (r.getLsbD 0) := by
  rw [registerPoly, Finset.sum_range_succ', pow_zero, mul_one]

/-- The bits of a register below the highest, shifted, and the highest. -/
theorem mul_registerPoly (r : BitVec 14) :
    x * registerPoly x r =
      ∑ j ∈ Finset.range 13, bitIn R (r.getLsbD j) * x ^ (j + 1) + bitIn R (r.getLsbD 13) * x ^ 14 := by
  rw [registerPoly, Finset.sum_range_succ, mul_add, Finset.mul_sum]
  congr 1
  · exact Finset.sum_congr rfl fun j _ => by ring
  · ring

variable [CharP R 2]

/-- A step of the register is a multiplication by x and the next bit, and P added where the top bit leaves (R155). -/
theorem registerPoly_crcStep (r : BitVec 14) (b : Bool) :
    registerPoly x (crcStep r b) = x * registerPoly x r + bitIn R b + bitIn R (r.getLsbD 13) * crcPoly x := by
  have upper : ∑ j ∈ Finset.range 13, bitIn R ((crcStep r b).getLsbD (j + 1)) * x ^ (j + 1)
      = ∑ j ∈ Finset.range 13, bitIn R (r.getLsbD j) * x ^ (j + 1)
        + bitIn R (r.getLsbD 13) * ∑ j ∈ Finset.range 13, bitIn R ((0x2757#14).getLsbD (j + 1)) * x ^ (j + 1) := by
    rw [Finset.mul_sum, ← Finset.sum_add_distrib]
    refine Finset.sum_congr rfl fun j hj => ?_
    rw [getLsbD_crcStep_succ r b (Finset.mem_range.mp hj), bitIn_xor, bitIn_and]
    ring
  have low : bitIn R ((0x2757#14).getLsbD 0) = 1 := rfl
  have twice : bitIn R (r.getLsbD 13) * x ^ 14 + bitIn R (r.getLsbD 13) * x ^ 14 = 0 := CharTwo.add_self_eq_zero _
  rw [mul_registerPoly, crcPoly, registerPoly_low x 0x2757#14, registerPoly_low x (crcStep r b), upper,
    getLsbD_crcStep_zero, bitIn_xor, low]
  linear_combination -twice

/-- The register after a string is the remainder of the string's polynomial. -/
theorem exists_quotient_stringPoly (bs : List Bool) :
    ∃ q, stringPoly x bs = q * crcPoly x + registerPoly x (bs.foldl crcStep 0) := by
  induction bs using List.reverseRecOn with
  | nil => exact ⟨0, by rw [List.foldl_nil, registerPoly_zero]; simp [stringPoly]⟩
  | append_singleton bs b ih =>
    obtain ⟨q, hq⟩ := ih
    refine ⟨x * q - bitIn R ((bs.foldl crcStep 0).getLsbD 13), ?_⟩
    rw [stringPoly_append_singleton, hq, List.foldl_append, List.foldl_cons, List.foldl_nil, registerPoly_crcStep]
    ring

end

/-- Settles O53: the padded payload is a string of 96 bits. -/
theorem crcIsTheRemainder : Obligations.CrcIsTheRemainder := by
  intro m hm
  obtain ⟨q, hq⟩ := exists_quotient_stringPoly (Polynomial.X : Polynomial (ZMod 2)) (m ++ List.replicate 19 false)
  simp only [stringPoly, crcPoly, registerPoly, bitIn_mul, List.length_append, hm, List.length_replicate] at hq
  exact ⟨q, hq⟩

/-! ## The CRC's bits -/

theorem natBits_eq_map_testBit (n v : Nat) : natBits n v = (List.range n).map fun j => v.testBit (n - 1 - j) := by
  induction n generalizing v with
  | zero => rfl
  | succ n ih =>
    rw [natBits, ih, List.range_succ, List.map_append, List.map_singleton, Nat.add_sub_cancel, Nat.sub_self,
      Nat.testBit_zero]
    congr 1
    refine List.map_congr_left fun j hj => ?_
    have hlt : j < n := List.mem_range.mp hj
    rw [← Nat.testBit_succ]
    congr 1
    omega

/-- The CRC's bits, bit 13 first (R158). -/
theorem crcBits_eq_map (r : BitVec 14) : crcBits r = (List.range 14).map fun j => r.getLsbD (13 - j) :=
  natBits_eq_map_testBit 14 r.toNat

theorem natBits_bitsNat (bs : List Bool) : natBits bs.length (bitsNat bs) = bs := by
  induction bs using List.reverseRecOn with
  | nil => rfl
  | append_singleton bs b ih =>
    have value : bitsNat (bs ++ [b]) = 2 * bitsNat bs + b.toNat := by simp [bitsNat]
    have half : (2 * bitsNat bs + b.toNat) / 2 = bitsNat bs := by have := b.toNat_lt; omega
    have low : decide ((2 * bitsNat bs + b.toNat) % 2 = 1) = b := by cases b <;> simp
    rw [List.length_append, List.length_singleton, natBits, value, half, low, ih]

theorem bitsNat_crcBits (r : BitVec 14) : bitsNat (crcBits r) = r.toNat := by
  rw [crcBits, bitsNat_natBits, Nat.mod_eq_of_lt r.isLt]

/-- The 14 bits of the register, as a number. -/
theorem eq_crcBits_iff {c : List Bool} (hc : c.length = 14) (r : BitVec 14) : c = crcBits r ↔ r.toNat = bitsNat c := by
  constructor
  · rintro rfl; rw [bitsNat_crcBits]
  · intro h; rw [crcBits, h, ← hc, natBits_bitsNat]

theorem crcBits_injective {r r' : BitVec 14} (h : crcBits r = crcBits r') : r = r' :=
  BitVec.eq_of_toNat_eq (by rw [← bitsNat_crcBits, h, bitsNat_crcBits])

/-! ## CRC14_OK -/

theorem bitField_crc {m c : List Bool} (hm : m.length = 77) (hc : c.length = 14) :
    bitField (m ++ c) 77 14 = bitsNat c := by
  simpa using bitField_middle (c := []) hm hc

/-- The check compares the bits after the payload with its CRC (R156). -/
theorem crcOk_append {m c : List Bool} (hm : m.length = 77) (hc : c.length = 14) :
    crcOk (m ++ c) = decide ((crc14 m).toNat = bitsNat c) := by
  rw [crcOk, bitField_crc hm hc, ← hm, List.take_left]

theorem crcOk_append_iff {m c : List Bool} (hm : m.length = 77) (hc : c.length = 14) :
    crcOk (m ++ c) = true ↔ c = crcBits (crc14 m) := by
  rw [crcOk_append hm hc, decide_eq_true_eq, eq_crcBits_iff hc]

/-- The check looks at the message only, not at the parity bits (R162). -/
theorem crcOk_message {u : List Bool} (hu : u.length = 91) (p : List Bool) : crcOk (u ++ p) = crcOk u := by
  rw [crcOk, crcOk, bitField, bitField, List.take_append_of_le_length (by omega),
    List.drop_append_of_le_length (by omega), List.take_append_of_le_length (by rw [List.length_drop]; omega)]

theorem foldl_crcStep_zeros (n : Nat) : (List.replicate n false).foldl crcStep 0 = 0 := by
  have fixed : crcStep 0 false = 0 := by decide
  induction n with
  | zero => rfl
  | succ n ih => rw [List.replicate_succ, List.foldl_cons, fixed, ih]

/-- The word of zeros carries its CRC, which is 0 (R155). -/
theorem crcOk_zeros : crcOk (List.replicate 91 false) = true := by
  have parts : List.replicate 91 false = List.replicate 77 false ++ List.replicate 14 false := rfl
  rw [parts, crcOk_append_iff List.length_replicate List.length_replicate, crc14, List.replicate_append_replicate,
    foldl_crcStep_zeros]
  rfl

/-! ## One bit flipped -/

/-- The register before a step is known from the register after it: P has the constant coefficient 1. -/
theorem crcStep_injective {r r' : BitVec 14} {b : Bool} (h : crcStep r b = crcStep r' b) : r = r' := by
  have top : r.getLsbD 13 = r'.getLsbD 13 := by
    have := congrArg (·.getLsbD 0) h
    simpa only [getLsbD_crcStep_zero, Bool.xor_right_inj] using this
  refine BitVec.eq_of_getLsbD_eq fun j hj => ?_
  rcases Nat.lt_or_ge j 13 with hlt | hge
  · have := congrArg (·.getLsbD (j + 1)) h
    simpa only [getLsbD_crcStep_succ _ _ hlt, top, Bool.xor_left_inj] using this
  · obtain rfl : j = 13 := by omega
    exact top

theorem crcStep_bit_ne (r : BitVec 14) (b : Bool) : crcStep r (!b) ≠ crcStep r b := by
  intro h
  have := congrArg (·.getLsbD 0) h
  simp only [getLsbD_crcStep_zero, Bool.xor_left_inj] at this
  exact Bool.not_ne_self b this

theorem foldl_crcStep_injective {bs : List Bool} {r r' : BitVec 14} (h : bs.foldl crcStep r = bs.foldl crcStep r') :
    r = r' := by
  induction bs generalizing r r' with
  | nil => exact h
  | cons b bs ih => exact crcStep_injective (ih h)

/-- A list is its part before a bit, the bit, and its part after it; flipping the bit flips that part. -/
theorem split_at_bit {m : List Bool} {k : Nat} (hk : k < m.length) :
    ∃ a b c, m = a ++ b :: c ∧ m.set k (!bitAt m k) = a ++ (!b) :: c := by
  refine ⟨m.take k, m[k], m.drop (k + 1), by simp, ?_⟩
  rw [List.set_eq_take_append_cons_drop, if_pos hk, bitAt, List.getD_eq_getElem _ _ hk]

/-- Two payloads that differ in one bit have different CRCs. -/
theorem crc14_flip_ne {m : List Bool} {k : Nat} (hk : k < m.length) : crc14 (m.set k (!bitAt m k)) ≠ crc14 m := by
  obtain ⟨a, b, c, hm, hflip⟩ := split_at_bit hk
  intro h
  rw [hflip, hm, crc14, crc14, List.foldl_append, List.foldl_append, List.foldl_append, List.foldl_append] at h
  exact crcStep_bit_ne _ _ (foldl_crcStep_injective (foldl_crcStep_injective h))

theorem set_flip_ne {c : List Bool} {k : Nat} (hk : k < c.length) : c.set k (!bitAt c k) ≠ c := by
  intro h
  have flipped : bitAt (c.set k (!bitAt c k)) k = !bitAt c k := by simp [bitAt, hk]
  rw [h] at flipped
  exact Bool.not_ne_self _ flipped.symm

/-- Settles O54: a flipped payload bit changes the computed CRC, a flipped CRC bit the received one. -/
theorem crcAcceptsAndDetects : Obligations.CrcAcceptsAndDetects := by
  intro m hm
  have hc := length_crcBits (crc14 m)
  refine ⟨(crcOk_append_iff hm hc).mpr rfl, fun k hk => Bool.eq_false_iff.mpr fun hok => ?_⟩
  rcases Nat.lt_or_ge k 77 with hlt | hge
  · rw [bitAt_append_left _ (by omega), List.set_append_left _ _ (by omega),
      crcOk_append_iff (by rw [List.length_set, hm]) hc] at hok
    exact crc14_flip_ne (hm ▸ hlt) (crcBits_injective hok).symm
  · rw [bitAt_append_right _ (by omega), List.set_append_right _ _ (by omega),
      crcOk_append_iff hm (by rw [List.length_set, hc])] at hok
    exact set_flip_ne (by omega) hok

end Sys2Proof.Machine
end

section
/-! PROOFS. The decoder (R159 to R180) and the commands LDPC_ENCODE, LDPC_DECODE, CRC14_GEN and CRC14_CHECK. -/

namespace Sys2Proof.Machine

/-! ## What belief propagation and ordered statistics answer -/

/-- A word that belief propagation returns passed the gate of R162. -/
theorem bpLoop_accepts {T : Config.Trig} {C : Config.LdpcTables} {llr : List F64} {ap : List Bool}
    {fuel iter ncnt nclast : Nat} {tov : List (List F64)} {cw : List Bool}
    (h : (bpLoop T C llr ap fuel iter ncnt nclast tov).cw = some cw) : parityFail C cw = 0 ∧ crcOk cw = true := by
  induction fuel generalizing iter ncnt nclast tov with
  | zero => exact nomatch h
  | succ fuel ih =>
    rw [bpLoop] at h
    split at h
    case isTrue hgate =>
      obtain rfl := Option.some.inj h
      exact hgate
    case isFalse =>
      split at h
      case isTrue => exact nomatch h
      case isFalse => exact ih h

/-- Iterations are numbered 0 to 30 (R166). -/
theorem bpLoop_info_le (T : Config.Trig) (C : Config.LdpcTables) (llr : List F64) (ap : List Bool)
    {fuel iter : Nat} (hle : iter + fuel ≤ 31) (ncnt nclast : Nat) (tov : List (List F64)) :
    (bpLoop T C llr ap fuel iter ncnt nclast tov).info ≤ 30 := by
  induction fuel generalizing iter ncnt nclast tov with
  | zero => exact le_rfl
  | succ fuel ih =>
    have hiter : iter ≤ 30 := by omega
    rw [bpLoop]
    split
    case isTrue => exact hiter
    case isFalse =>
      split
      case isTrue => exact hiter
      case isFalse => exact ih (by omega) _ _ _

/-- How ordered statistics ends: with a word that passes the CRC and status 1, or without one and status 2 or 3
(R173, R178). -/
theorem orderedStatistics_cases (C : Config.LdpcTables) (llr : List F64) (ap : List Bool) (d : Int) :
    (∃ cw, orderedStatistics C llr ap d = ⟨some cw, 1⟩ ∧ crcOk cw = true) ∨
      orderedStatistics C llr ap d = ⟨none, 2⟩ ∨ orderedStatistics C llr ap d = ⟨none, 3⟩ := by
  unfold orderedStatistics
  dsimp only
  generalize eliminate _ = x
  cases x with
  | none => exact .inr (.inl rfl)
  | some e =>
    dsimp only
    generalize unpermute e.perm _ = cw
    cases hcrc : crcOk cw with
    | true => exact .inl ⟨cw, rfl, hcrc⟩
    | false => exact .inr (.inr rfl)

/-! ## The sign of a metric -/

theorem fval_sign (x : F64) : fval x = .nan ∨ fval x = .inf x.msb ∨ ∃ m e, fval x = .fin x.msb m e := by
  unfold fval
  dsimp only
  split
  · split
    · exact .inr (.inl rfl)
    · exact .inl rfl
  · split
    · exact .inr (.inr ⟨_, _, rfl⟩)
    · exact .inr (.inr ⟨_, _, rfl⟩)

/-- Only a pattern with the sign bit clear decides 1 (R151). -/
theorem msb_of_hard {x : F64} (h : hard x = true) : x.msb = false := by
  obtain hx | hx | ⟨m, e, hx⟩ := fval_sign x
  · exact nomatch (hard_nan hx).symm.trans h
  · simpa using (hard_inf hx).symm.trans h
  · have := (hard_fin hx).symm.trans h
    rw [Bool.and_eq_true] at this
    simpa using this.1

/-- The negation of a number above 0.0 decides 0. -/
theorem hard_fneg {a : F64} (h : hard a = true) : hard (fneg a) = false := by
  unfold fneg
  cases isNaN a with
  | true => exact hard_nan fval_qNaN
  | false =>
    refine Bool.eq_false_iff.mpr fun hneg => ?_
    have flipped := msb_of_hard hneg
    rw [if_neg Bool.false_ne_true, BitVec.msb_xor, msb_of_hard h] at flipped
    exact absurd flipped (by decide)

/-- Noiseless metrics decide for their word (R182). -/
theorem map_hard_noiseless {a : F64} (ha : flt 0 a = true) (cw : List Bool) :
    (cw.map fun b => if b then a else fneg a).map hard = cw := by
  rw [List.map_map]
  refine (List.map_congr_left fun b _ => ?_).trans cw.map_id
  cases b with
  | true => exact ha
  | false => exact hard_fneg ha

/-! ## The first iteration -/

/-- The messages of iteration 0 are all 0.0 (R160). -/
theorem foldl_fadd_zero_hard (n : Nat) (x : F64) : hard ((List.replicate n 0).foldl fadd x) = hard x := by
  induction n generalizing x with
  | zero => rfl
  | succ n ih => rw [List.replicate_succ, List.foldl_cons, ih, hard_fadd_zero]

/-- The beliefs of iteration 0 decide as the metrics do, whatever the mask (R160, R161). -/
theorem hard_beliefs_tovInit (C : Config.LdpcTables) {llr : List F64} (hl : llr.length = 174) (ap : List Bool) :
    (beliefs llr ap (tovInit C)).map hard = llr.map hard := by
  refine List.ext_getElem (by rw [List.length_map, List.length_map, length_beliefs, hl]) fun n hn _ => ?_
  rw [List.length_map, length_beliefs] at hn
  have metric : fAt llr n = llr[n] := List.getD_eq_getElem _ _ (hl ▸ hn)
  have messages : (tovInit C).getD n [] = List.replicate (bitChecks C n).length 0 := by
    simp [tovInit, List.getD_eq_getElem?_getD, hn]
  simp only [beliefs, List.getElem_map, List.getElem_range, messages, metric]
  split
  · rfl
  · exact foldl_fadd_zero_hard _ _

/-- Metrics that decide for a word which passes the gate decode at iteration 0 (R162, R182). -/
theorem beliefPropagation_of_hard (T : Config.Trig) (C : Config.LdpcTables) {llr : List F64} (hl : llr.length = 174)
    (ap : List Bool) (hp : parityFail C (llr.map hard) = 0) (hc : crcOk (llr.map hard) = true) :
    beliefPropagation T C llr ap = ⟨some (llr.map hard), 0⟩ := by
  rw [beliefPropagation, bpLoop]
  simp only [hard_beliefs_tovInit C hl ap, hp, hc, and_self, if_true]

/-- The hard decisions of metrics agree with the metrics everywhere (R152). -/
theorem disagreements_hard (llr : List F64) : ((llr.map hard).zip llr).filter (fun p => p.1 != hard p.2) = [] := by
  induction llr with
  | nil => rfl
  | cons l llr ih => rw [List.map_cons, List.zip_cons_cons, List.filter_cons_of_neg (by simp), ih]

theorem hardErrors_hard (llr : List F64) : hardErrors (llr.map hard) llr = 0 := by
  rw [hardErrors, disagreements_hard]; rfl

theorem distance_hard (llr : List F64) : distance (llr.map hard) llr = 0 := by
  rw [distance, disagreements_hard]; rfl

theorem hardErrors_le (cw : List Bool) (llr : List F64) : hardErrors cw llr ≤ cw.length :=
  (List.length_filter_le _ _).trans (by rw [List.length_zip]; exact Nat.min_le_left _ _)

/-! ## How a decode ends -/

section
variable {T : Config.Trig} {C : Config.LdpcTables} {llr : List F64} {ap : List Bool} {d : Int} {cw : List Bool}
  {it : Nat}

theorem decodeMetrics_bp (h : beliefPropagation T C llr ap = ⟨some cw, it⟩) :
    decodeMetrics T C llr ap d = ⟨some cw, 1, it, 0⟩ := by simp only [decodeMetrics, h]

theorem decodeMetrics_bpOnly (h : beliefPropagation T C llr ap = ⟨none, it⟩) (hd : d < 0) :
    decodeMetrics T C llr ap d = ⟨none, 0, it, 0⟩ := by simp only [decodeMetrics, h, if_neg (Int.not_le.mpr hd)]

theorem decodeMetrics_osd (h : beliefPropagation T C llr ap = ⟨none, it⟩) (hd : 0 ≤ d) :
    decodeMetrics T C llr ap d = ⟨(orderedStatistics C llr ap d).cw,
      if (orderedStatistics C llr ap d).cw.isSome then 2 else 0, it, (orderedStatistics C llr ap d).info⟩ := by
  simp only [decodeMetrics, h, if_pos hd]

end

/-- All that a decode can report: a word that passed its decoder's gate, or none, with the status that says why (R159,
R162, R166, R173, R178). -/
theorem decodeMetrics_cases (T : Config.Trig) (C : Config.LdpcTables) (llr : List F64) (ap : List Bool) (d : Int) :
    ∃ variant it osd, it ≤ 30 ∧
      ((∃ cw, decodeMetrics T C llr ap d = ⟨some cw, variant, it, osd⟩ ∧ crcOk cw = true ∧
          (variant = 1 ∧ osd = 0 ∧ parityFail C cw = 0 ∨ variant = 2 ∧ osd = 1 ∧ 0 ≤ d)) ∨
        decodeMetrics T C llr ap d = ⟨none, variant, it, osd⟩ ∧
          (osd = 0 ∧ d < 0 ∨ (osd = 2 ∨ osd = 3) ∧ 0 ≤ d)) := by
  have bound : (beliefPropagation T C llr ap).info ≤ 30 := bpLoop_info_le T C llr ap le_rfl _ _ _
  rcases h : beliefPropagation T C llr ap with ⟨_ | cw, it⟩
  all_goals rw [h] at bound
  case some =>
    obtain ⟨hparity, hcrc⟩ := bpLoop_accepts (congrArg Decoded.cw h)
    exact ⟨1, it, 0, bound, .inl ⟨cw, decodeMetrics_bp h, hcrc, .inl ⟨rfl, rfl, hparity⟩⟩⟩
  case none =>
    rcases lt_or_ge d 0 with hd | hd
    · exact ⟨0, it, 0, bound, .inr ⟨decodeMetrics_bpOnly h hd, .inl ⟨rfl, hd⟩⟩⟩
    · have report := decodeMetrics_osd h hd
      obtain ⟨cw, ho, hcrc⟩ | ho | ho := orderedStatistics_cases C llr ap d
      all_goals rw [ho] at report
      · exact ⟨2, it, 1, bound, .inl ⟨cw, report, hcrc, .inr ⟨rfl, rfl, hd⟩⟩⟩
      · exact ⟨0, it, 2, bound, .inr ⟨report, .inr ⟨.inl rfl, hd⟩⟩⟩
      · exact ⟨0, it, 3, bound, .inr ⟨report, .inr ⟨.inr rfl, hd⟩⟩⟩

/-! ## The commands that read one array of bits -/

/-- A command whose rule answers an effect makes that effect. -/
theorem exec_of_rule {i : Instr} {s : State} {eff : Effect} (h : ruleOf i s = .ok eff) :
    exec i s = .next (s.commit eff) := (exec_eq_runCommand i s).trans (runCommand_ok h)

/-- Settles O33, from what the rule reads and the bits of the codeword. -/
theorem ldpcEncodeCompletes : Obligations.LdpcEncodeCompletes := by
  intro s u hlegal hu hwords
  have rule : ruleOf .ldpcEncode s = .ok
      { writes := [(argNat s.snapshot 1, (codeword ldpcCode u).map bitWord)], ht := s.ht, res := results [1] } := by
    rw [ruleOf, ldpcEncodeRule, checkRanges_legal hlegal rfl, ok_bind, readBits_ok hu hwords, ok_bind]
  exact ⟨_, (List.range 83).map (parityBit ldpcCode u), exec_of_rule rule, completed_commit _ _,
    by rw [List.length_map, List.length_range], fun q hq => bitAt_map_range hq, wrote_one rfl, rfl⟩

/-- Settles O35, from what the rule reads and the bits of the CRC. -/
theorem crc14GenCompletes : Obligations.Crc14GenCompletes := by
  intro s m hlegal hm hwords
  have rule : ruleOf .crc14Gen s = .ok
      { writes := [(argNat s.snapshot 1, (crcBits (crc14 m)).map bitWord)]
        ht := s.ht
        res := results [1, (crc14 m).toNat] } := by
    rw [ruleOf, crc14GenRule, checkRanges_legal hlegal rfl, ok_bind, readBits_ok hm hwords, ok_bind]
  refine ⟨_, exec_of_rule rule, completed_commit _ _, wrote_one ?_, rfl⟩
  rw [crcBits_eq_map, List.map_map]
  rfl

/-- Settles O36: the word is the payload and the received CRC. -/
theorem crc14CheckCompletes : Obligations.Crc14CheckCompletes := by
  intro s m c hlegal hm hc hwords
  have hword : (m ++ c).length = 91 := by rw [List.length_append, hm, hc]
  have flag : (crcOk (m ++ c)).toNat = if (crc14 m).toNat = bitsNat c then 1 else 0 := by
    by_cases h : (crc14 m).toNat = bitsNat c <;> simp [crcOk_append hm hc, h]
  have rule : ruleOf .crc14Check s = .ok
      { writes := []
        ht := s.ht
        res := results [if (crc14 m).toNat = bitsNat c then 1 else 0, (crc14 m).toNat, bitsNat c] } := by
    rw [ruleOf, crc14CheckRule, checkRanges_legal hlegal rfl, ok_bind, readBits_ok hword hwords, ok_bind, flag,
      bitField_crc hm hc, ← hm, List.take_left]
  exact ⟨_, exec_of_rule rule, completed_commit _ _, wrote_none rfl, rfl⟩

/-! ## LDPC_DECODE -/

section
variable {maskEn : Bool} {s : State} {llr : List F64} {ap : List Bool}
  (hlegal : ArgsLegal (.ldpcDecode maskEn) s.snapshot) (hops : DecodeOperands maskEn s llr ap)

include hops in
theorem readMask_ok : readMask maskEn s.dmem (argNat s.snapshot 1) = .ok ap := by
  cases maskEn with
  | true => exact readBits_ok hops.mask (hops.maskWords rfl)
  | false => rw [hops.noMask rfl]; rfl

include hlegal hops

theorem ruleOf_ldpcDecode : ruleOf (.ldpcDecode maskEn) s = .ok (decodeEffect s (argNat s.snapshot 2) llr
    (decodeMetrics Config.trig ldpcCode llr ap (argInt s.snapshot 3))) := by
  rw [ruleOf, ldpcDecodeRule, checkRanges_legal hlegal rfl, ok_bind, readMask_ok hops, ok_bind,
    readFs_ok hops.metrics hops.metricWords, ok_bind]

/-- LDPC_DECODE on metrics that decode (R180). -/
theorem ldpcDecode_succeeds {cw : List Bool} {variant it osd : Nat}
    (h : decodeMetrics Config.trig ldpcCode llr ap (argInt s.snapshot 3) = ⟨some cw, variant, it, osd⟩) :
    ∃ t, exec (.ldpcDecode maskEn) s = .next t ∧ t.ht = s.ht ∧
      Completed s t (results ([1, variant, hardErrors cw llr, it] ++ f64Halves (distance cw llr) ++ [osd])) ∧
      Wrote s t [(argNat s.snapshot 2, cw.map bitWord)] := by
  have rule := ruleOf_ldpcDecode hlegal hops
  rw [h] at rule
  exact ⟨_, exec_of_rule rule, rfl, completed_commit _ _, wrote_one rfl⟩

/-- LDPC_DECODE on metrics that do not decode (R180). -/
theorem ldpcDecode_fails {variant it osd : Nat}
    (h : decodeMetrics Config.trig ldpcCode llr ap (argInt s.snapshot 3) = ⟨none, variant, it, osd⟩) :
    ∃ t, exec (.ldpcDecode maskEn) s = .next t ∧ t.ht = s.ht ∧
      Completed s t (results [0, 0, 0, it, 0, 0, osd]) ∧ Wrote s t [] := by
  have rule := ruleOf_ldpcDecode hlegal hops
  rw [h] at rule
  exact ⟨_, exec_of_rule rule, rfl, completed_commit _ _, wrote_none rfl⟩

/-- Metrics that decide for the codeword of a message with a right CRC. -/
theorem ldpcDecode_of_hard {u : List Bool} (hu : u.length = 91) (hcrc : crcOk u = true)
    (hmetrics : llr.map hard = codeword ldpcCode u) :
    ∃ t, exec (.ldpcDecode maskEn) s = .next t ∧ Completed s t (results [1, 1, 0, 0, 0, 0, 0]) ∧
      Wrote s t [(argNat s.snapshot 2, (codeword ldpcCode u).map bitWord)] ∧ t.ht = s.ht := by
  have found : beliefPropagation Config.trig ldpcCode llr ap = ⟨some (llr.map hard), 0⟩ := by
    refine beliefPropagation_of_hard _ _ hops.metrics ap ?_ ?_
    · rw [hmetrics, parityFail_codeword ldpcCode u unitCodewords_ldpcCode hu]
    · rw [hmetrics, codeword, crcOk_message hu, hcrc]
  obtain ⟨t, hexec, hht, hdone, hwrote⟩ := ldpcDecode_succeeds hlegal hops (decodeMetrics_bp found)
  rw [hardErrors_hard, distance_hard] at hdone
  exact ⟨t, hexec, hdone, hmetrics ▸ hwrote, hht⟩

end

/-- Settles O34: the outcome of each decoder, in the order LDPC_DECODE tries them. -/
theorem ldpcDecodeCompletes : Obligations.LdpcDecodeCompletes := by
  intro maskEn s llr ap hlegal hops
  rcases hbp : beliefPropagation Config.trig ldpcCode llr ap with ⟨_ | cw, it⟩
  case some => exact ldpcDecode_succeeds hlegal hops (decodeMetrics_bp hbp)
  case none =>
    dsimp only
    rcases lt_or_ge (argInt s.snapshot 3) 0 with hd | hd
    · simp only [if_pos hd]
      exact ldpcDecode_fails hlegal hops (decodeMetrics_bpOnly hbp hd)
    · simp only [if_neg (Int.not_lt.mpr hd)]
      have report := decodeMetrics_osd hbp hd
      rcases hosd : orderedStatistics ldpcCode llr ap (argInt s.snapshot 3) with ⟨_ | cw, osd⟩
      all_goals rw [hosd] at report
      case none => exact ldpcDecode_fails hlegal hops report
      case some => exact ldpcDecode_succeeds hlegal hops report

/-- Settles O51: both kinds of metrics decide for a codeword, the second kind for that of the message of zeros. -/
theorem noiselessMetricsDecode : Obligations.NoiselessMetricsDecode := by
  intro maskEn s llr ap hlegal hops
  constructor
  · rintro u a hu hcrc ha hllr
    exact ldpcDecode_of_hard hlegal hops hu hcrc (by rw [hllr, map_hard_noiseless ha])
  · intro hzero
    have decided : llr.map hard = codeword ldpcCode (List.replicate 91 false) := by
      rw [codeword_zeros, List.map_congr_left hzero, List.map_const', hops.metrics]
    have zeros := ldpcDecode_of_hard hlegal hops List.length_replicate crcOk_zeros decided
    rwa [codeword_zeros, List.map_replicate] at zeros

/-- The registers after a decode (R180). -/
theorem Completed.decodeRegisters {s t : State} {ok variant errors it lo hi osd : Nat}
    (h : Completed s t (results [ok, variant, errors, it, lo, hi, osd])) :
    t.status.ok = (BitVec.ofNat 32 ok).getLsbD 0 ∧ t.res[1] = BitVec.ofNat 32 variant ∧
      t.res[2] = BitVec.ofNat 32 errors ∧ t.res[3] = BitVec.ofNat 32 it ∧ t.res[6] = BitVec.ofNat 32 osd := by
  refine ⟨h.ok, ?_⟩
  rw [h.res]
  exact ⟨rfl, rfl, rfl, rfl⟩

/-- Settles O52: the gate of each decoder, read off the results and the words written. -/
theorem decodeIsGated : Obligations.DecodeIsGated := by
  intro maskEn s llr ap hlegal hops
  have small {n : Nat} (h : n ≤ 174) : (BitVec.ofNat 32 n).toNat = n := Nat.mod_eq_of_lt (by omega)
  obtain ⟨variant, it, osd, hit, ⟨cw, report, hcrc, found⟩ | ⟨report, missed⟩⟩ :=
    decodeMetrics_cases Config.trig ldpcCode llr ap (argInt s.snapshot 3)
  case inl =>
    have hlen : cw.length = 174 := length_decodeMetrics (congrArg DecodeReport.cw report)
    obtain ⟨t, hexec, -, hdone, hwrote⟩ := ldpcDecode_succeeds hlegal hops report
    obtain ⟨hok, hvariant, herrors, hiters, hosd⟩ := hdone.decodeRegisters
    refine ⟨t, hexec, hdone.errCode, by rw [hiters, small (by omega)]; exact hit,
      fun _ => ⟨cw, hlen, hcrc, hwrote, by rw [herrors, small (hlen ▸ hardErrors_le cw llr)], ?_⟩,
      fun hno => nomatch hok.symm.trans hno⟩
    rw [hvariant, hosd]
    obtain ⟨rfl, rfl, hparity⟩ | ⟨rfl, rfl, hd⟩ := found
    · exact .inl ⟨rfl, rfl, hparity⟩
    · exact .inr ⟨rfl, rfl, hd⟩
  case inr =>
    obtain ⟨t, hexec, -, hdone, hwrote⟩ := ldpcDecode_fails hlegal hops report
    obtain ⟨hok, hvariant, herrors, hiters, hosd⟩ := Completed.decodeRegisters (variant := 0) hdone
    refine ⟨t, hexec, hdone.errCode, by rw [hiters, small (by omega)]; exact hit,
      fun hyes => (nomatch hok.symm.trans hyes), fun _ => ⟨fun b => hwrote.frame b nofun, hvariant, herrors, ?_⟩⟩
    rw [hosd]
    obtain ⟨rfl, hd⟩ | ⟨rfl | rfl, hd⟩ := missed
    · exact .inl ⟨rfl, hd⟩
    · exact .inr ⟨.inl rfl, hd⟩
    · exact .inr ⟨.inr rfl, hd⟩

end Sys2Proof.Machine
end

section
/-! PROOFS. The signal commands MIX_DOWN, SYMBOL_TONES, SYNC_COUNT and SOFTBITS (R205 to R225): what each rule answers
on words that are held, and what the last two make of a frame of zeros. -/

namespace Sys2Proof.Machine

/-! ## MIX_DOWN -/

/-- The path of a transform, by the length alone (R121). -/
theorem transformPath_cases (N : Nat) :
    transformPath N = 0 ∧ (∃ p, N = 2 ^ p) ∨ transformPath N = 1 ∧ ¬ ∃ p, N = 2 ^ p := by
  obtain ⟨hpow, hother⟩ := transformPath_spec N
  by_cases h : ∃ p, N = 2 ^ p
  · exact .inl ⟨(hpow h).1, h⟩
  · exact .inr ⟨(hother h).1, h⟩

theorem ruleOf_mixDown {s : State} {N M : Nat} {xr xi : List F64} (hN : argNat s.snapshot 2 = N)
    (hM : argNat s.snapshot 4 = M) (hlegal : ArgsLegal .mixDown s.snapshot) (hxr : xr.length = N) (hxi : xi.length = N)
    (hr : HoldsWords s.dmem (argNat s.snapshot 0) xr) (hi : HoldsWords s.dmem (argNat s.snapshot 1) xi) :
    ruleOf .mixDown s = .ok
      { writes :=
          [(argNat s.snapshot 5,
              (inverseTransform Config.trig M (tapered xr xi N M (argInt s.snapshot 3))).map Prod.fst),
            (argNat s.snapshot 6,
              (inverseTransform Config.trig M (tapered xr xi N M (argInt s.snapshot 3))).map Prod.snd)]
        ht := s.ht
        res := results [1, transformPath M] } := by
  subst hN hM
  obtain ⟨hN, hM, hMN, hmax⟩ : 1 ≤ argNat s.snapshot 2 ∧ 1 ≤ argNat s.snapshot 4 ∧
    argNat s.snapshot 4 ≤ argNat s.snapshot 2 ∧ argNat s.snapshot 4 ≤ Config.nmaxFft := hlegal.lengths
  rw [ruleOf, mixDownRule, require_pass ⟨Nat.one_le_iff_ne_zero.mp hN, Nat.one_le_iff_ne_zero.mp hM⟩, ok_bind,
    require_pass ⟨hMN, hmax⟩, ok_bind, checkRanges_legal hlegal rfl, ok_bind, mixBins_ok hN hr hi hxr hxi, ok_bind,
    tapered_eq]

/-- Settles O37: the two outputs are as long as the transform, so that neither writes over the other. -/
theorem mixDownCompletes : Obligations.MixDownCompletes := by
  intro s N M xr xi hN hM hlegal hxr hxi hr hi
  have apart := hlegal.apart.2
  simp only [outputRanges, rangeAt, hM, List.pairwise_pair] at apart
  refine ⟨_, _, exec_of_rule (ruleOf_mixDown hN hM hlegal hxr hxi hr hi), completed_commit _ _, transformPath_cases M,
    wrote_two rfl ?_, rfl⟩
  simpa only [List.length_map, length_inverseTransform] using apart_of_not_meets apart

/-! ## SYMBOL_TONES -/

theorem ruleOf_symbolTones {mode : Mode} {s : State} {L NS : Nat} {xr xi : List F64} (hL : argNat s.snapshot 3 = L)
    (hNS : argNat s.snapshot 5 = NS) (hlegal : ArgsLegal (.symbolTones mode) s.snapshot)
    (hxr : xr.length = argNat s.snapshot 2) (hxi : xi.length = argNat s.snapshot 2)
    (hr : HoldsWords s.dmem (argNat s.snapshot 0) xr) (hi : HoldsWords s.dmem (argNat s.snapshot 1) xi) :
    ruleOf (.symbolTones mode) s = .ok
      { writes := [(argNat s.snapshot 6, interleave ((List.range NS).flatMap fun k =>
          (forwardTransform Config.trig L (segment xr xi L (argInt s.snapshot 4) k)).take (tones mode)))]
        ht := s.ht
        res := results [1] } := by
  subst hL hNS
  obtain ⟨hLs, hL, hNS, hmax, ht⟩ : 1 ≤ argNat s.snapshot 2 ∧ 1 ≤ argNat s.snapshot 3 ∧ 1 ≤ argNat s.snapshot 5 ∧
    argNat s.snapshot 3 ≤ Config.nmaxFft ∧ tones mode ≤ argNat s.snapshot 3 := hlegal.lengths
  rw [ruleOf, symbolTonesRule, require_pass ⟨Nat.one_le_iff_ne_zero.mp hLs, Nat.one_le_iff_ne_zero.mp hL,
    Nat.one_le_iff_ne_zero.mp hNS⟩, ok_bind, require_pass ⟨hmax, ht⟩, ok_bind, checkRanges_legal hlegal rfl, ok_bind,
    ← hxr, symbolTones_ok (hxi.trans hxr.symm) hr hi, ok_bind]
  simp only [Nat.zero_add]

/-- Settles O38, from the samples of every symbol. -/
theorem symbolTonesCompletes : Obligations.SymbolTonesCompletes := by
  intro mode s L NS xr xi hL hNS hlegal hxr hxi hr hi
  exact ⟨_, exec_of_rule (ruleOf_symbolTones hL hNS hlegal hxr hxi hr hi), completed_commit _ _, wrote_one rfl, rfl⟩

/-! ## SYNC_COUNT -/

/-- Settles O39: every sync block lies within the frame, so its symbols are read from the frame's words. -/
theorem syncCountCompletes : Obligations.SyncCountCompletes := by
  intro mode s ws hlegal hws hwords
  have rule : ruleOf (.syncCount mode) s = .ok
      { writes := []
        ht := s.ht
        res := results (1 :: ((syncBlocks mode).map (syncMatches (tones mode) ws)).sum
          :: (syncBlocks mode).map (syncMatches (tones mode) ws)) } := by
    rw [ruleOf, syncCountRule, checkRanges_legal hlegal rfl, ok_bind,
      countBlocks_ok hwords _ (hws ▸ syncBlocks_fit mode), ok_bind]
  exact ⟨_, exec_of_rule rule, completed_commit _ _, wrote_none rfl, rfl⟩

/-! ## SOFTBITS -/

/-- Only FT8 has the fourth array (R222, R223). -/
theorem rawArrays_eq_ite (mode : Mode) (blocks : List (List (List Cplx))) :
    rawArrays mode blocks = (groupSizes mode).map (metricArray mode blocks) ++
      if mode = .ft8 then [fourthArray mode blocks] else [] := by
  cases mode <;> rfl

theorem length_frameBlocks (mode : Mode) (ws : List F64) :
    (frameBlocks mode ws).length = (dataBlocks mode).length ∧ ∀ b ∈ frameBlocks mode ws, b.length = 29 := by
  refine ⟨List.length_map _, fun b hb => ?_⟩
  obtain ⟨first, -, rfl⟩ := List.mem_map.mp hb
  rw [List.length_map, List.length_range]

theorem ruleOf_softBits {mode : Mode} {s : State} {ws : List F64} (hlegal : ArgsLegal (.softBits mode) s.snapshot)
    (hws : ws.length = toneWords mode) (hwords : HoldsWords s.dmem (argNat s.snapshot 0) ws) :
    ruleOf (.softBits mode) s = .ok
      { writes := [(argNat s.snapshot 1, (rawArrays mode (frameBlocks mode ws)).flatMap (normalize true))]
        ht := s.ht
        res := results [1, metricArrays mode] } := by
  rw [ruleOf, softBitsRule, checkRanges_legal hlegal rfl, ok_bind,
    readBlocks_ok hwords _ (hws ▸ dataBlocks_fit mode), ok_bind]
  rfl

/-- Settles O40: the data blocks of the frame's words, and the lengths of their metric arrays. -/
theorem softBitsCompletes : Obligations.SoftBitsCompletes := by
  intro mode s ws hlegal hws hwords
  obtain ⟨hblocks, hsymbols⟩ := length_frameBlocks mode ws
  obtain ⟨hcount, hlengths⟩ := length_rawArrays hblocks hsymbols
  exact ⟨_, _, exec_of_rule (ruleOf_softBits hlegal hws hwords), completed_commit _ _, rawArrays_eq_ite mode _, hcount,
    hlengths, wrote_one rfl, rfl⟩

/-! ## Arithmetic on zeros -/

theorem fadd_zero_zero : fadd 0 0 = 0 := by decide

theorem fsub_zero_zero : fsub 0 0 = 0 := by decide

theorem fmul_zero_zero : fmul 0 0 = 0 := by decide

theorem flt_zero_zero : flt 0 0 = false := by decide

theorem fmax_zero_zero : fmax 0 0 = 0 := by decide

theorem cabs_zero : cabs (0, 0) = 0 := by decide

theorem cadd_zero_zero : cadd (0, 0) (0, 0) = (0, 0) := by decide

theorem fdiv_zero_fofNat_174 : fdiv 0 (fofNat 174) = 0 := by decide

/-- Every element is the zero of its kind: 0.0 in a list of numbers, the complex 0 in a list of tones. -/
def AllZero {α : Type} [Zero α] (xs : List α) : Prop := ∀ x ∈ xs, x = 0

section
variable {α β : Type} [Zero α]

theorem allZero_map {f : β → α} {xs : List β} (h : ∀ x ∈ xs, f x = 0) : AllZero (xs.map f) :=
  List.forall_mem_map.mpr h

theorem AllZero.map [Zero β] {f : β → α} {xs : List β} (h : AllZero xs) (hf : f 0 = 0) : AllZero (xs.map f) :=
  allZero_map fun x hx => h x hx ▸ hf

theorem allZero_flatMap {f : β → List α} {xs : List β} (h : ∀ x ∈ xs, AllZero (f x)) :
    AllZero (xs.flatMap f) := fun y hy => by
  obtain ⟨x, hx, hy⟩ := List.mem_flatMap.mp hy
  exact h x hx y hy

theorem AllZero.getD_eq_zero {xs : List α} (h : AllZero xs) (k : Nat) : xs.getD k 0 = 0 := by
  rw [List.getD_eq_getElem?_getD]
  cases hk : xs[k]? with
  | none => rfl
  | some x => exact h x (List.mem_of_getElem? hk)

theorem AllZero.foldl_eq_zero {f : α → α → α} {xs : List α} (h : AllZero xs) (hf : f 0 0 = 0) : xs.foldl f 0 = 0 :=
  List.foldlRecOn xs f (motive := (· = 0)) rfl fun y hy x hx => by rw [hy, h x hx, hf]

theorem AllZero.eq_replicate {xs : List α} (h : AllZero xs) : xs = List.replicate xs.length 0 :=
  List.eq_replicate_of_mem h

theorem allZero_replicate (n : Nat) : AllZero (List.replicate n (0 : α)) := fun _ => List.eq_of_mem_replicate

end

theorem AllZero.fsum_eq_zero {xs : List F64} (h : AllZero xs) : fsum xs = 0 := h.foldl_eq_zero fadd_zero_zero

theorem AllZero.maxOf_eq_zero {xs : List F64} (h : AllZero xs) : maxOf xs = 0 := by
  cases xs with
  | nil => rfl
  | cons x xs =>
    obtain ⟨rfl, hxs⟩ := List.forall_mem_cons.mp h
    exact AllZero.foldl_eq_zero hxs fmax_zero_zero

theorem AllZero.csumFirst_eq_zero {zs : List Cplx} (h : AllZero zs) : csumFirst zs = (0, 0) := by
  cases zs with
  | nil => rfl
  | cons z zs =>
    obtain ⟨rfl, hzs⟩ := List.forall_mem_cons.mp h
    exact AllZero.foldl_eq_zero hzs cadd_zero_zero

/-- No zero is larger than another, so the first index stands (R18). -/
theorem AllZero.argmax_eq_zero {xs : List F64} (h : AllZero xs) : argmax xs = 0 :=
  List.foldlRecOn _ _ (motive := (· = 0)) rfl fun _ hbest _ _ => by
    rw [h.getD_eq_zero, h.getD_eq_zero, flt_zero_zero, hbest]; rfl

/-- Normalized zeros are zeros: their variance is not above 0.0 (R224). -/
theorem AllZero.allZero_normalize {xs : List F64} (h : AllZero xs) : AllZero (normalize true xs) := by
  have mean : fdiv (fsum xs) (fofNat 174) = 0 := by rw [h.fsum_eq_zero, fdiv_zero_fofNat_174]
  have diffs : AllZero (xs.map fun x => fsub x 0) := h.map fsub_zero_zero
  have var : fdiv (fsum ((xs.map fun x => fsub x 0).map fun x => fmul x x)) (fofNat 174) = 0 := by
    rw [(diffs.map (f := fun x => fmul x x) fmul_zero_zero).fsum_eq_zero, fdiv_zero_fofNat_174]
  simp only [normalize, mean, var, flt_zero_zero]
  exact diffs

/-! ## Metrics of zeros -/

/-- Every tone of every symbol is 0. -/
def SilentSymbols (group : List (List Cplx)) : Prop := ∀ symbol ∈ group, AllZero symbol

section
variable {mode : Mode} {group : List (List Cplx)} (h : SilentSymbols group)
include h

theorem groupMagnitude_silent (c : Nat) : groupMagnitude mode group c = 0 := by
  have picked : AllZero (group.mapIdx fun j zs =>
      zs.getD ((grayMap mode).getD (codeDigit (tones mode) group.length c j) 0) (0, 0)) := by
    intro z hz
    obtain ⟨j, hj, rfl⟩ := List.mem_mapIdx.mp hz
    exact (h _ (List.getElem_mem hj)).getD_eq_zero _
  rw [groupMagnitude, picked.csumFirst_eq_zero, cabs_zero]

theorem groupMagnitudes_silent : AllZero (groupMagnitudes mode group) :=
  allZero_map fun c _ => groupMagnitude_silent h c

theorem groupMetrics_silent : AllZero (groupMetrics mode group) := by
  have chosen (nb i : Nat) (b : Bool) : AllZero (selectBit nb i b (groupMagnitudes mode group)) := by
    intro x hx
    obtain ⟨p, hp, rfl⟩ := List.mem_map.mp hx
    exact groupMagnitudes_silent h _ (List.fst_mem_of_mem_zipIdx (List.mem_of_mem_filter hp))
  exact allZero_map fun i _ => by rw [(chosen _ i true).maxOf_eq_zero, (chosen _ i false).maxOf_eq_zero, fsub_zero_zero]

theorem groupsOf_silent (g : Nat) : ∀ part ∈ groupsOf g group, SilentSymbols part := by
  intro part hpart symbol hsymbol
  obtain ⟨k, -, rfl⟩ := List.mem_map.mp hpart
  exact h symbol (List.mem_of_mem_drop (List.mem_of_mem_take hsymbol))

end

/-- The largest magnitude of a silent symbol is 0.0, so its metrics are 0.0 without a division (R223). -/
theorem scaledMetrics_silent {mode : Mode} {symbol : List Cplx} (h : AllZero symbol) :
    AllZero (scaledMetrics mode symbol) := by
  have silent : SilentSymbols [symbol] := List.forall_mem_singleton.mpr h
  exact allZero_map fun x _ => if_pos (groupMagnitudes_silent silent).maxOf_eq_zero

/-- The metric arrays of silent data blocks (R221, R222, R223). -/
theorem rawArrays_silent {mode : Mode} {blocks : List (List (List Cplx))} (h : ∀ b ∈ blocks, SilentSymbols b) :
    ∀ a ∈ rawArrays mode blocks, AllZero a := by
  have grouped (g : Nat) : AllZero (metricArray mode blocks g) :=
    allZero_flatMap fun b hb => allZero_flatMap fun part hpart =>
      groupMetrics_silent (groupsOf_silent (h b hb) g part hpart)
  have fourth : AllZero (fourthArray mode blocks) :=
    allZero_flatMap fun b hb => allZero_flatMap fun symbol hsymbol => scaledMetrics_silent (h b hb symbol hsymbol)
  intro a ha
  rw [rawArrays_eq_ite, List.mem_append, List.mem_map, List.mem_ite_nil_right, List.mem_singleton] at ha
  obtain ⟨g, -, rfl⟩ | ⟨-, rfl⟩ := ha
  · exact grouped g
  · exact fourth

/-! ## The frame of zeros -/

theorem tonesOf_silent {ws : List F64} (h : AllZero ws) (T s : Nat) : AllZero (tonesOf T ws s) :=
  allZero_map fun _ _ => Prod.ext (h.getD_eq_zero _) (h.getD_eq_zero _)

theorem frameBlocks_silent {ws : List F64} (h : AllZero ws) (mode : Mode) :
    ∀ b ∈ frameBlocks mode ws, SilentSymbols b := by
  intro b hb symbol hsymbol
  obtain ⟨first, -, rfl⟩ := List.mem_map.mp hb
  obtain ⟨k, -, rfl⟩ := List.mem_map.mp hsymbol
  exact tonesOf_silent h _ _

/-- A silent sync block matches where tone 0 is expected (R214). -/
theorem syncMatches_silent {ws : List F64} (h : AllZero ws) (T : Nat) (block : Nat × List Nat) :
    syncMatches T ws block = ((List.range block.2.length).filter fun k => 0 == block.2.getD k 0).length := by
  have largest (k : Nat) : argmax ((tonesOf T ws (block.1 + k)).map cabs) = 0 :=
    ((tonesOf_silent h T _).map cabs_zero).argmax_eq_zero
  simp only [syncMatches, largest]

/-- Every sync block of either mode expects tone 0 once (R202, R203). -/
theorem syncCounts_silent {ws : List F64} (h : AllZero ws) (mode : Mode) :
    (syncBlocks mode).map (syncMatches (tones mode) ws) = if mode = .ft8 then [1, 1, 1] else [1, 1, 1, 1] := by
  rw [List.map_congr_left fun block _ => syncMatches_silent h (tones mode) block]
  cases mode <;> rfl

/-- Settles O55: both commands as on any frame, with the metrics and the matches of zeros. -/
theorem zeroFrame : Obligations.ZeroFrame := by
  intro mode s hwords
  have hlen : (List.replicate (toneWords mode) (0 : F64)).length = toneWords mode := List.length_replicate
  have silent := allZero_replicate (α := F64) (toneWords mode)
  constructor
  · intro hlegal
    obtain ⟨t, arrays, hexec, hdone, harrays, hcount, hlengths, hwrote, hht⟩ :=
      softBitsCompletes mode s _ hlegal hlen hwords
    rw [← rawArrays_eq_ite] at harrays
    have zeros : AllZero (arrays.flatMap (normalize true)) := allZero_flatMap fun a ha =>
      (rawArrays_silent (frameBlocks_silent silent mode) a (harrays ▸ ha)).allZero_normalize
    have length : (arrays.flatMap (normalize true)).length = 174 * metricArrays mode := by
      rw [length_flatMap_const fun a ha => (length_normalize true a).trans (hlengths a ha), hcount, Nat.mul_comm]
    rw [zeros.eq_replicate, length] at hwrote
    exact ⟨t, hexec, hdone, hwrote, hht⟩
  · intro hlegal
    obtain ⟨t, hexec, hdone, hwrote, hht⟩ := syncCountCompletes mode s _ hlegal hlen hwords
    rw [syncCounts_silent silent] at hdone
    refine ⟨t, hexec, hwrote, hht, ?_⟩
    cases mode <;> exact hdone

end Sys2Proof.Machine
end

section
/-! PROOFS. Texts (R17, R242, R252): the spaces around a text and what `trim` takes away, the text of a padded text's
number, and the words of a normalized text. -/

namespace Sys2Proof.Machine

/-! ## Spaces -/

/-- A text that `trim` leaves alone whatever spaces stand around it. -/
structure Trimmed (t : List Char) : Prop where
  nonempty : t ≠ []
  head : t.head? ≠ some ' '
  last : t.getLast? ≠ some ' '

theorem trimmed_of_no_space {t : List Char} (h : t ≠ []) (hs : ∀ c ∈ t, c ≠ ' ') : Trimmed t :=
  ⟨h, fun hc => hs _ (List.mem_of_mem_head? hc) rfl, fun hc => hs _ (List.mem_of_getLast? hc) rfl⟩

theorem Trimmed.reverse {t : List Char} (h : Trimmed t) : Trimmed t.reverse :=
  ⟨mt List.reverse_eq_nil_iff.mp h.nonempty, by rw [List.head?_reverse]; exact h.last,
    by rw [List.getLast?_reverse]; exact h.head⟩

theorem dropWhile_spaces {t : List Char} (h : Trimmed t) (n : Nat) (u : List Char) :
    (List.replicate n ' ' ++ t ++ u).dropWhile (· == ' ') = t ++ u := by
  obtain ⟨c, cs, rfl⟩ := List.exists_cons_of_ne_nil h.nonempty
  have hc : (c == ' ') = false := beq_eq_false_iff_ne.mpr fun hc => h.head (congrArg some hc)
  rw [List.append_assoc, List.dropWhile_append_of_pos fun a ha => by simp [List.eq_of_mem_replicate ha],
    List.cons_append, List.dropWhile_cons, hc, if_neg Bool.false_ne_true]

theorem trim_spaces {t : List Char} (h : Trimmed t) (m n : Nat) :
    trim (List.replicate m ' ' ++ t ++ List.replicate n ' ') = t := by
  have back := dropWhile_spaces h.reverse n []
  rw [List.append_nil, List.append_nil] at back
  rw [trim, dropWhile_spaces h, List.reverse_append, List.reverse_replicate, back, List.reverse_reverse]

theorem trim_padRight {t : List Char} (h : Trimmed t) (n : Nat) : trim (padRight n t) = t :=
  trim_spaces h 0 _

theorem trim_padLeft {t : List Char} (h : Trimmed t) (n : Nat) : trim (padLeft n t) = t := by
  have key := trim_spaces h (n - t.length) 0
  rwa [List.replicate_zero, List.append_nil] at key

theorem length_padRight {n : Nat} {t : List Char} (h : t.length ≤ n) : (padRight n t).length = n := by
  rw [padRight, List.length_append, List.length_replicate, Nat.add_sub_cancel' h]

theorem length_padLeft {n : Nat} {t : List Char} (h : t.length ≤ n) : (padLeft n t).length = n := by
  rw [padLeft, List.length_append, List.length_replicate, Nat.sub_add_cancel h]

theorem forall_mem_padRight {A t : List Char} (hs : ' ' ∈ A) (h : ∀ c ∈ t, c ∈ A) (n : Nat) :
    ∀ c ∈ padRight n t, c ∈ A := fun c hc =>
  (List.mem_append.mp hc).elim (h c) fun hc => List.eq_of_mem_replicate hc ▸ hs

theorem forall_mem_padLeft {A t : List Char} (hs : ' ' ∈ A) (h : ∀ c ∈ t, c ∈ A) (n : Nat) :
    ∀ c ∈ padLeft n t, c ∈ A := fun c hc =>
  (List.mem_append.mp hc).elim (fun hc => List.eq_of_mem_replicate hc ▸ hs) (h c)

/-! ## Texts over an alphabet -/

theorem alphaText_of_length {A t : List Char} {n : Nat} (hn : t.length = n) (h : ∀ c ∈ t, c ∈ A) :
    alphaText A n (alphaValue A t) = t := hn ▸ alphaText_alphaValue h

theorem alphaValue_lt_of_length {A t : List Char} {n : Nat} (hn : t.length = n) (h : ∀ c ∈ t, c ∈ A) :
    alphaValue A t < A.length ^ n := hn ▸ alphaValue_lt h

theorem alphaChar_mem {A : List Char} {k : Nat} (h : k < A.length) : alphaChar A k ∈ A := by
  rw [alphaChar, List.getD_eq_getElem _ _ h]
  exact List.getElem_mem h

theorem mem_of_mem_alphaText {A : List Char} (h0 : 0 < A.length) {n v : Nat} {c : Char} (h : c ∈ alphaText A n v) :
    c ∈ A := by
  induction n generalizing v with
  | zero => exact nomatch h
  | succ n ih =>
    rcases List.mem_append.mp h with h | h
    · exact ih h
    · exact List.mem_singleton.mp h ▸ alphaChar_mem (Nat.mod_lt _ h0)

theorem alphaChar_mem_take {A : List Char} {k n : Nat} (hk : k < n) (hn : n ≤ A.length) :
    alphaChar A k ∈ A.take n := by
  have hlen : k < (A.take n).length := by rw [List.length_take]; omega
  rw [alphaChar, List.getD_eq_getElem _ _ (by omega), ← List.getElem_take (h := hlen)]
  exact List.getElem_mem hlen

/-! ## Words -/

/-- A word: characters, none of them a space. -/
def IsWord (w : List Char) : Prop := w ≠ [] ∧ ∀ c ∈ w, c ≠ ' '

theorem IsWord.trimmed {w : List Char} (h : IsWord w) : Trimmed w := trimmed_of_no_space h.1 h.2

theorem isWord_singleton {c : Char} (h : c ≠ ' ') : IsWord [c] :=
  ⟨List.cons_ne_nil _ _, fun _ hd => List.mem_singleton.mp hd ▸ h⟩

theorem IsWord.cons {c : Char} {w : List Char} (h : c ≠ ' ') (hw : IsWord w) : IsWord (c :: w) :=
  ⟨List.cons_ne_nil _ _, List.forall_mem_cons.mpr ⟨h, hw.2⟩⟩

theorem isWord_of_mem_words {t w : List Char} (h : w ∈ words t) : IsWord w := by
  fun_induction words t generalizing w with
  | case1 => exact nomatch h
  | case2 cs ih => exact ih h
  | case3 c hc => exact List.mem_singleton.mp h ▸ isWord_singleton hc
  | case4 c hc cs ih =>
    rcases List.mem_cons.mp h with rfl | h
    · exact isWord_singleton hc
    · exact ih h
  | case5 c hc d cs hd hw ih =>
    simp only [hw] at h
    exact List.mem_singleton.mp h ▸ isWord_singleton hc
  | case6 c hc d cs hd v vs hw ih =>
    simp only [hw] at h ih
    rcases List.mem_cons.mp h with rfl | h
    · exact (ih List.mem_cons_self).cons hc
    · exact ih (List.mem_cons_of_mem _ h)

theorem unwords_cons {w : List Char} {ws : List (List Char)} (h : ws ≠ []) :
    unwords (w :: ws) = w ++ ' ' :: unwords ws := by
  obtain ⟨v, vs, rfl⟩ := List.exists_cons_of_ne_nil h
  rfl

theorem unwords_append {vs ws : List (List Char)} (hv : vs ≠ []) (hw : ws ≠ []) :
    unwords (vs ++ ws) = unwords vs ++ ' ' :: unwords ws := by
  induction vs with
  | nil => exact absurd rfl hv
  | cons v vs ih =>
    by_cases hvs : vs = []
    · subst hvs
      exact unwords_cons hw
    · rw [List.cons_append, unwords_cons (List.append_ne_nil_of_left_ne_nil hvs _), ih hvs, unwords_cons hvs,
        List.append_assoc, List.cons_append]

/-- Words joined by spaces have no space at either end. -/
theorem trimmed_unwords {ws : List (List Char)} (h : ws ≠ []) (hw : ∀ w ∈ ws, IsWord w) : Trimmed (unwords ws) := by
  induction ws with
  | nil => exact absurd rfl h
  | cons w ws ih =>
    obtain ⟨hfirst, hrest⟩ := List.forall_mem_cons.mp hw
    have first := hfirst.trimmed
    by_cases hws : ws = []
    · subst hws
      exact first
    · have rest := ih hws hrest
      rw [unwords_cons hws]
      refine ⟨List.append_ne_nil_of_left_ne_nil first.nonempty _, ?_, ?_⟩
      · rw [List.head?_append_of_ne_nil _ first.nonempty]
        exact first.head
      · rw [List.append_cons, List.getLast?_append_of_ne_nil _ rest.nonempty]
        exact rest.last

end Sys2Proof.Machine
end

section
/-! PROOFS. The fields of a packed message (R244, R249, R254): what unpacking reads is what packing put there. -/

namespace Sys2Proof.Machine

theorem bitField_cons_succ (x : Bool) (b : List Bool) (i n : Nat) : bitField (x :: b) (i + 1) n = bitField b i n := rfl

theorem bitField_append_right {a b : List Bool} {i n : Nat} (h : a.length ≤ i) :
    bitField (a ++ b) i n = bitField b (i - a.length) n := by
  rw [bitField, bitField, List.drop_append, List.drop_eq_nil_of_le h, List.nil_append]

/-- A field that stands last. -/
theorem bitField_natBits {n v : Nat} (h : v < 2 ^ n) : bitField (natBits n v) 0 n = v := by
  rw [bitField, List.drop_zero, List.take_of_length_le (length_natBits n v).le, bitsNat_natBits, Nat.mod_eq_of_lt h]

/-- A field with others after it. -/
theorem bitField_natBits_append {n v : Nat} (h : v < 2 ^ n) (b : List Bool) : bitField (natBits n v ++ b) 0 n = v := by
  rw [bitField, List.drop_zero, List.take_left' (length_natBits n v), bitsNat_natBits, Nat.mod_eq_of_lt h]

/-! ## A standard message -/

section
variable (a b : Call) (r1 : Bool) (g i3 : Nat)

theorem messageI3_standardBits (h : i3 < 2 ^ 3) : messageI3 (standardBits a b r1 g i3) = i3 := by
  simp [messageI3, standardBits, bitField_cons_succ, bitField_append_right, bitField_natBits h]

theorem firstToken_standardBits (h : a.c28 < 2 ^ 28) : bitField (standardBits a b r1 g i3) 0 28 = a.c28 := by
  simp [standardBits, bitField_natBits_append h]

theorem firstSuffix_standardBits : bitAt (standardBits a b r1 g i3) 28 = (a.suffix != .none) := by
  simp [standardBits, bitAt]

theorem secondToken_standardBits (h : b.c28 < 2 ^ 28) : bitField (standardBits a b r1 g i3) 29 28 = b.c28 := by
  simp [standardBits, bitField_cons_succ, bitField_append_right, bitField_natBits_append h]

theorem secondSuffix_standardBits : bitAt (standardBits a b r1 g i3) 57 = (b.suffix != .none) := by
  simp [standardBits, bitAt]

theorem r1_standardBits : bitAt (standardBits a b r1 g i3) 58 = r1 := by
  simp [standardBits, bitAt]

theorem g15_standardBits (h : g < 2 ^ 15) : bitField (standardBits a b r1 g i3) 59 15 = g := by
  simp [standardBits, bitField_cons_succ, bitField_append_right, bitField_natBits_append h]

end

/-! ## A message with one hashed call -/

section
variable (h12 : Nat) (call : List Char) (h1 : Bool) (r2 : Nat) (c1 : Bool)

theorem messageI3_hashedBits : messageI3 (hashedBits h12 call h1 r2 c1) = 4 := by
  simp [messageI3, hashedBits, bitField_cons_succ, bitField_append_right, bitField_natBits]

theorem hash_hashedBits (h : h12 < 2 ^ 12) : bitField (hashedBits h12 call h1 r2 c1) 0 12 = h12 := by
  simp [hashedBits, bitField_natBits_append h]

theorem callsign_hashedBits (h : callsignNumber call < 2 ^ 58) :
    bitField (hashedBits h12 call h1 r2 c1) 12 58 = callsignNumber call := by
  simp [hashedBits, bitField_append_right, bitField_natBits_append h]

theorem h1_hashedBits : bitAt (hashedBits h12 call h1 r2 c1) 70 = h1 := by
  simp [hashedBits, bitAt]

theorem r2_hashedBits (h : r2 < 2 ^ 2) : bitField (hashedBits h12 call h1 r2 c1) 71 2 = r2 := by
  simp [hashedBits, bitField_cons_succ, bitField_append_right, bitField_natBits_append h]

theorem c1_hashedBits : bitAt (hashedBits h12 call h1 r2 c1) 73 = c1 := by
  simp [hashedBits, bitAt]

end

/-! ## Free text -/

theorem messageI3_packFree (t : List Char) : messageI3 (packFree t).bits = 0 := by
  simp [messageI3, packFree, bitField_append_right, bitField_natBits]

theorem messageN3_packFree (t : List Char) : messageN3 (packFree t).bits = 0 := by
  rw [messageN3, if_pos (messageI3_packFree t)]
  simp [packFree, bitField_append_right, bitField_natBits_append]

theorem text_packFree {t : List Char} (h : alphaValue A42 (freeTextChars t) < 2 ^ 71) :
    bitField (packFree t).bits 0 71 = alphaValue A42 (freeTextChars t) := by
  simp [packFree, bitField_natBits_append h]

end Sys2Proof.Machine
end

section
/-! PROOFS. The commands PACK77 and UNPACK77 (R254 to R256, R270, R275): the three steps of PACK and what each packs,
and the effect of either command's rule. -/

namespace Sys2Proof.Machine

/-! ## The steps of PACK -/

/-- PACK takes the first of its three steps that matches (R254). -/
theorem pack_cases (w : List (List Char)) :
    packStandard w = some (pack w) ∨ packStandard w = none ∧ packHashed w = some (pack w) ∨
      packStandard w = none ∧ packHashed w = none ∧ pack w = packFree (unwords w) := by
  cases hs : packStandard w with
  | some p => exact .inl (by simp only [pack, hs])
  | none =>
    cases hh : packHashed w with
    | some p => exact .inr (.inl ⟨rfl, by simp only [pack, hs, hh]⟩)
    | none => exact .inr (.inr ⟨rfl, rfl, by simp only [pack, hs, hh]⟩)

theorem pack_of_standard {w : List (List Char)} {p : Packed} (h : packStandard w = some p) : pack w = p := by
  simp only [pack, h]

theorem pack_of_hashed {w : List (List Char)} {p : Packed} (hs : packStandard w = none) (h : packHashed w = some p) :
    pack w = p := by
  simp only [pack, hs, h]

theorem packTwoCalls_bits {x y : List Char} {rest : List (List Char)} {bits : List Bool}
    (h : packTwoCalls x y rest = some bits) : ∃ h12 call h1 r2, bits = hashedBits h12 call h1 r2 false := by
  simp only [packTwoCalls] at h
  split at h
  next => exact nomatch h
  next r _ =>
    split at h
    next k _ _ => exact ⟨hash12 k, y, false, r, (Option.some.inj (Option.ite_none_right_eq_some.mp h).2).symm⟩
    next k _ _ => exact ⟨hash12 k, x, true, r, (Option.some.inj (Option.ite_none_right_eq_some.mp h).2).symm⟩
    next => exact nomatch h

theorem packHashed_bits {w : List (List Char)} {p : Packed} (h : packHashed w = some p) :
    ∃ h12 call h1 r2 c1, p = { bits := hashedBits h12 call h1 r2 c1, i3 := 4, n3 := 0, form := 4 } := by
  unfold packHashed at h
  split at h
  next x y rest =>
    obtain ⟨bits, hb, rfl⟩ := Option.map_eq_some_iff.mp h
    split at hb
    next => exact ⟨0, y, false, 0, true, by rw [← Option.some.inj hb]⟩
    next =>
      obtain ⟨h12, call, h1, r2, rfl⟩ := packTwoCalls_bits hb
      exact ⟨h12, call, h1, r2, false, rfl⟩
  next => exact nomatch h

/-- The form of a packed message goes with its type (R270). -/
theorem form_pack (w : List (List Char)) :
    (pack w).form = 0 ∧ (pack w).i3 = 0 ∧ (pack w).n3 = 0 ∨ (pack w).form = 1 ∧ ((pack w).i3 = 1 ∨ (pack w).i3 = 2) ∨
      (pack w).form = 4 ∧ (pack w).i3 = 4 := by
  rcases pack_cases w with h | ⟨-, h⟩ | ⟨-, -, h⟩
  · obtain ⟨a, b, r1, g, hp, hi3⟩ := packStandard_bits h
    exact .inr (.inl ⟨by rw [hp], hi3⟩)
  · obtain ⟨h12, call, h1, r2, c1, hp⟩ := packHashed_bits h
    exact .inr (.inr ⟨by rw [hp], by rw [hp]⟩)
  · rw [h]
    exact .inl ⟨rfl, rfl, rfl⟩

/-- The type a packed message reports is the one in its bits (R240, R270). -/
theorem messageI3_pack (w : List (List Char)) : messageI3 (pack w).bits = (pack w).i3 := by
  rcases pack_cases w with h | ⟨-, h⟩ | ⟨-, -, h⟩
  · obtain ⟨a, b, r1, g, hp, hi3⟩ := packStandard_bits h
    rw [hp]
    exact messageI3_standardBits a b r1 g _ (by omega)
  · obtain ⟨h12, call, h1, r2, c1, hp⟩ := packHashed_bits h
    rw [hp]
    exact messageI3_hashedBits ..
  · rw [h]
    exact messageI3_packFree _

/-! ## PACK77 -/

theorem ruleOf_pack77 {s : State} {text : List Char} (hlegal : ArgsLegal .pack77 s.snapshot)
    (hlen : text.length = argNat s.snapshot 1) (hascii : ∀ c ∈ text, c.toNat < 128)
    (hwords : HoldsWords s.dmem (argNat s.snapshot 0) (text.map charWord)) :
    ruleOf .pack77 s = .ok (packEffect s (argNat s.snapshot 2) (words (upper text))) := by
  rw [ruleOf, pack77Rule, require_pass (show argNat s.snapshot 1 ≤ 256 from hlegal.lengths), ok_bind,
    checkRanges_legal hlegal rfl, ok_bind, readChars_ok hlen hascii hwords, ok_bind, normalizedWords]

/-- Settles O41: the effect of the rule, and the type and the form of what PACK packs. -/
theorem pack77Completes : Obligations.Pack77Completes := by
  intro s text hlegal hlen hascii hwords
  have hexec := exec_of_rule (ruleOf_pack77 hlegal hlen hascii hwords)
  by_cases hempty : words (upper text) = []
  · rw [packEffect, if_pos hempty] at hexec
    exact ⟨_, hexec, rfl, fun _ => ⟨completed_commit _ _, wrote_none rfl⟩, fun _ h => absurd hempty h⟩
  · rw [packEffect, if_neg hempty] at hexec
    refine ⟨_, hexec, rfl, fun h => absurd h hempty, ?_⟩
    rintro p - rfl
    exact ⟨completed_commit _ _, length_pack _, messageI3_pack _, form_pack _, wrote_one rfl⟩

/-! ## UNPACK77 -/

theorem ruleOf_unpack77 {useHt : Bool} {s : State} {m : List Bool} (hlegal : ArgsLegal (.unpack77 useHt) s.snapshot)
    (hm : m.length = 77) (hwords : HoldsWords s.dmem (argNat s.snapshot 0) (m.map bitWord)) :
    ruleOf (.unpack77 useHt) s = .ok (unpackEffect useHt s (argNat s.snapshot 1) m) := by
  rw [ruleOf, unpack77Rule, require_pass (show textMax ≤ _ from hlegal.lengths), ok_bind, checkRanges_legal hlegal rfl,
    ok_bind, readBits_ok hm hwords, ok_bind]

section
variable {useHt : Bool} {s : State} {out : Nat} {m : List Bool}

theorem unpackEffect_fails (h : unpackWith useHt s.ht m = none) :
    unpackEffect useHt s out m = { writes := [], ht := s.ht, res := results [0, 0, messageI3 m, messageN3 m] } := by
  simp only [unpackEffect, h]

theorem unpackEffect_learnsNothing {u : Unpacked} (h : unpackWith useHt s.ht m = some u)
    (hl : learning useHt u = none) :
    unpackEffect useHt s out m =
      { writes := [(out, u.text.map charWord)]
        ht := s.ht
        res := results [1, u.text.length, messageI3 m, messageN3 m, 0] } := by
  simp only [unpackEffect, h, hl]

theorem unpackEffect_learns {u : Unpacked} {x : Callsign} (h : unpackWith useHt s.ht m = some u)
    (hl : learning useHt u = some x) :
    unpackEffect useHt s out m =
      { writes := [(out, u.text.map charWord)]
        ht := s.ht.save x
        res := results [1, u.text.length, messageI3 m, messageN3 m, if s.ht.saveChanges x then 1 else 0] } := by
  simp only [unpackEffect, h, hl, Bool.toNat, Bool.cond_eq_ite]

end

theorem learning_eq_none_iff {useHt : Bool} {u : Unpacked} :
    learning useHt u = none ↔ useHt = false ∨ u.learn = none := by
  cases useHt <;> simp [learning]

theorem learning_eq_some_iff {useHt : Bool} {u : Unpacked} {x : Callsign} :
    learning useHt u = some x ↔ useHt = true ∧ u.learn = some x := by
  cases useHt <;> simp [learning]

/-- Settles O42: the effect of the rule, by whether the message unpacks and whether it teaches a callsign. -/
theorem unpack77Completes : Obligations.Unpack77Completes := by
  intro useHt s m hlegal hm hwords
  have hexec := exec_of_rule (ruleOf_unpack77 hlegal hm hwords)
  refine ⟨_, unpackWith useHt s.ht m, hexec, rfl, fun hfail => ?_, fun u hgood => ?_⟩
  · rw [unpackEffect_fails hfail]
    exact ⟨completed_commit _ _, wrote_none rfl, rfl⟩
  · cases hl : learning useHt u with
    | none =>
      rw [unpackEffect_learnsNothing hgood hl]
      refine ⟨wrote_one rfl, fun _ => ⟨completed_commit _ _, rfl⟩, fun x hx hlearn => ?_⟩
      exact nomatch hl.symm.trans (learning_eq_some_iff.mpr ⟨hx, hlearn⟩)
    | some x =>
      rw [unpackEffect_learns hgood hl]
      refine ⟨wrote_one rfl, fun hnone => ?_, fun y hx hlearn => ?_⟩
      · exact nomatch hl.symm.trans (learning_eq_none_iff.mpr hnone)
      · obtain rfl := Option.some.inj (hl.symm.trans (learning_eq_some_iff.mpr ⟨hx, hlearn⟩))
        exact ⟨completed_commit _ _, rfl⟩

end Sys2Proof.Machine
end

section
/-! PROOFS. Callsigns as tokens (R245, R246, R253): the number of a standard callsign and its text, and what the
packer's readers make of a standard call, of a hashed one and of the words before them. -/

namespace Sys2Proof.Machine

/-! ## The alphabets -/

theorem mem_A37_of_mem_A36 : ∀ c ∈ A36, c ∈ A37 := List.all_iff_forall_prop.mp (by decide)

theorem mem_A38_of_mem_A36 : ∀ c ∈ A36, c ∈ A38 := List.all_iff_forall_prop.mp (by decide)

theorem mem_A27_of_mem_letters : ∀ c ∈ letters, c ∈ A27 := List.all_iff_forall_prop.mp (by decide)

theorem ne_space_of_mem_A36 : ∀ c ∈ A36, c ≠ ' ' := List.all_iff_forall_prop.mp (by decide)

theorem ne_slash_of_mem_A36 : ∀ c ∈ A36, c ≠ '/' := List.all_iff_forall_prop.mp (by decide)

theorem ne_space_of_mem_letters : ∀ c ∈ letters, c ≠ ' ' := List.all_iff_forall_prop.mp (by decide)

theorem not_digit_of_mem_letters : ∀ c ∈ letters, c ∉ A10 := List.all_iff_forall_prop.mp (by decide)

theorem isDigit_iff {c : Char} : isDigit c = true ↔ c ∈ A10 := List.contains_iff_mem

theorem isLetter_iff {c : Char} : isLetter c = true ↔ c ∈ letters := List.contains_iff_mem

theorem validCallsign_iff {t : List Char} :
    validCallsign t = true ↔ (1 ≤ t.length ∧ t.length ≤ 11) ∧ ∀ c ∈ t, c ∈ A38 ∧ c ≠ ' ' := by
  simp only [validCallsign, callsignChar, Bool.and_eq_true, decide_eq_true_eq, List.all_eq_true, List.contains_iff_mem,
    bne_iff_ne]

/-! ## Standard callsigns -/

/-- What R246 asks of a standard callsign c: p is the place of its last digit, n its number. -/
structure StandardForm (c : List Char) (n p : Nat) : Prop where
  long : 3 ≤ c.length
  short : c.length ≤ 6
  chars : ∀ x ∈ c, x ∈ A36
  place : p = 2 ∨ p = 3
  digit : c.getD (p - 1) ' ' ∈ A10
  headLetter : ∃ l ∈ c.take (p - 1), l ∈ letters
  tail : ∀ l ∈ c.drop p, l ∈ letters
  tailShort : (c.drop p).length ≤ 3
  value : n = sixCharValue (padRight 6 (if p = 2 then ' ' :: c else c))

theorem standardForm_of_standardValue {c : List Char} {n : Nat} (h : standardValue c = some n) :
    ∃ p, StandardForm c n p := by
  unfold standardValue at h
  split at h
  next hc =>
    obtain ⟨hlong, hshort, hall⟩ := hc
    split at h
    next => exact nomatch h
    next p hp =>
      split at h
      next hform =>
        obtain ⟨hplace, hletter, htail, htailShort⟩ := hform
        exact ⟨p, {
          long := hlong
          short := hshort
          chars := fun x hx => List.contains_iff_mem.mp (List.all_eq_true.mp hall x hx)
          place := hplace
          digit := isDigit_iff.mp (List.find?_some (p := fun q => isDigit (c.getD (q - 1) ' ')) hp)
          headLetter := (List.any_eq_true.mp hletter).imp fun l hl => hl.imp_right isLetter_iff.mp
          tail := fun l hl => isLetter_iff.mp (List.all_eq_true.mp htail l hl)
          tailShort := htailShort
          value := (Option.some.inj h).symm }⟩
      next => exact nomatch h
  next => exact nomatch h

section
variable {c : List Char} {n p : Nat}

theorem StandardForm.nonempty (h : StandardForm c n p) : c ≠ [] :=
  List.ne_nil_of_length_pos (Nat.lt_of_lt_of_le (by decide) h.long)

theorem StandardForm.trimmed (h : StandardForm c n p) : Trimmed c :=
  trimmed_of_no_space h.nonempty fun x hx => ne_space_of_mem_A36 x (h.chars x hx)

theorem StandardForm.exists_letter (h : StandardForm c n p) : ∃ l ∈ c, l ∈ letters :=
  h.headLetter.imp fun _ hl => hl.imp_left List.mem_of_mem_take

theorem StandardForm.exists_digit (h : StandardForm c n p) : ∃ d ∈ c, d ∈ A10 := by
  have hp : p - 1 < c.length := by have := h.long; have := h.place; omega
  refine ⟨_, ?_, h.digit⟩
  rw [List.getD_eq_getElem _ _ hp]
  exact List.getElem_mem hp

theorem StandardForm.valid (h : StandardForm c n p) : validCallsign c = true :=
  validCallsign_iff.mpr ⟨⟨by have := h.long; omega, by have := h.short; omega⟩,
    fun x hx => ⟨mem_A38_of_mem_A36 x (h.chars x hx), ne_space_of_mem_A36 x (h.chars x hx)⟩⟩

end

/-- The six characters that R246 numbers, each in the alphabet of its position. -/
structure SixChars (x y d e f g : Char) : Prop where
  first : x ∈ A37
  second : y ∈ A36
  third : d ∈ A10
  fourth : e ∈ A27
  fifth : f ∈ A27
  sixth : g ∈ A27

theorem sixCharValue_lt {x y d e f g : Char} (h : SixChars x y d e f g) :
    sixCharValue [x, y, d, e, f, g] < 262177560 := by
  have hx : alphaIdx A37 x < 37 := alphaIdx_lt h.first
  have hy : alphaIdx A36 y < 36 := alphaIdx_lt h.second
  have hd : alphaIdx A10 d < 10 := alphaIdx_lt h.third
  have he : alphaIdx A27 e < 27 := alphaIdx_lt h.fourth
  have hf : alphaIdx A27 f < 27 := alphaIdx_lt h.fifth
  have hg : alphaIdx A27 g < 27 := alphaIdx_lt h.sixth
  simp only [sixCharValue, List.getD_cons_zero, List.getD_cons_succ]
  omega

theorem mul_add_div_of_lt {b r : Nat} (h : r < b) (q : Nat) : (q * b + r) / b = q := by
  rw [Nat.add_comm, Nat.add_mul_div_right _ _ (by omega), Nat.div_eq_of_lt h, Nat.zero_add]

/-- Dividing the number of six characters gives each character's digit back (R246). -/
theorem standardText_sixCharValue {x y d e f g : Char} (h : SixChars x y d e f g) :
    standardText (sixCharValue [x, y, d, e, f, g]) = trim [x, y, d, e, f, g] := by
  have hy : alphaIdx A36 y < 36 := alphaIdx_lt h.second
  have hd : alphaIdx A10 d < 10 := alphaIdx_lt h.third
  have he : alphaIdx A27 e < 27 := alphaIdx_lt h.fourth
  have hf : alphaIdx A27 f < 27 := alphaIdx_lt h.fifth
  have hg : alphaIdx A27 g < 27 := alphaIdx_lt h.sixth
  simp only [standardText, sixCharValue, List.getD_cons_zero, List.getD_cons_succ, mul_add_div_of_lt hg,
    mul_add_div_of_lt hf, mul_add_div_of_lt he, mul_add_div_of_lt hd, mul_add_div_of_lt hy, Nat.mul_add_mod_of_lt hg,
    Nat.mul_add_mod_of_lt hf, Nat.mul_add_mod_of_lt he, Nat.mul_add_mod_of_lt hd, Nat.mul_add_mod_of_lt hy,
    alphaChar_alphaIdx h.first, alphaChar_alphaIdx h.second, alphaChar_alphaIdx h.third, alphaChar_alphaIdx h.fourth,
    alphaChar_alphaIdx h.fifth, alphaChar_alphaIdx h.sixth]

theorem exists_three_of_length_le {t : List Char} (h : 3 ≤ t.length) : ∃ x y z u, t = x :: y :: z :: u := by
  rcases t with _ | ⟨x, _ | ⟨y, _ | ⟨z, u⟩⟩⟩
  all_goals simp at h
  exact ⟨x, y, z, u, rfl⟩

/-- Three characters and at most three letters, padded to six. -/
theorem padRight_sixChars {x y d : Char} {t : List Char} (hx : x ∈ A37) (hy : y ∈ A36) (hd : d ∈ A10)
    (ht : ∀ l ∈ t, l ∈ letters) (hlen : t.length ≤ 3) :
    ∃ e f g, SixChars x y d e f g ∧ padRight 6 (x :: y :: d :: t) = [x, y, d, e, f, g] := by
  obtain ⟨e, f, g, hefg⟩ := List.length_eq_three.mp (length_padRight hlen)
  have hpad : padRight 6 (x :: y :: d :: t) = x :: y :: d :: padRight 3 t := by
    simp only [padRight, List.length_cons, List.cons_append, Nat.reduceSubDiff]
  have mem : ∀ l ∈ padRight 3 t, l ∈ A27 :=
    forall_mem_padRight (by decide) (fun l hl => mem_A27_of_mem_letters l (ht l hl)) 3
  rw [hefg] at hpad mem
  exact ⟨e, f, g, ⟨hx, hy, hd, mem e (by simp), mem f (by simp), mem g (by simp)⟩, hpad⟩

/-- The six characters of a standard callsign are the callsign, with a space before it where its digit is the second
character, and spaces after it (R246). -/
theorem StandardForm.exists_sixChars {c : List Char} {n p : Nat} (h : StandardForm c n p) :
    ∃ x y d e f g k, SixChars x y d e f g ∧ n = sixCharValue [x, y, d, e, f, g] ∧
      [x, y, d, e, f, g] = padRight 6 (List.replicate k ' ' ++ c) := by
  obtain ⟨y, d, l, t, rfl⟩ := exists_three_of_length_le h.long
  have hy := h.chars y (by simp)
  rcases h.place with rfl | rfl
  case inl =>
    obtain ⟨e, f, g, hsix, hpad⟩ := padRight_sixChars (x := ' ') (d := d) (t := l :: t) (by decide) hy h.digit h.tail
      h.tailShort
    have hvalue := h.value
    rw [if_pos rfl, hpad] at hvalue
    exact ⟨' ', y, d, e, f, g, 1, hsix, hvalue, hpad.symm⟩
  case inr =>
    have hd := h.chars d (by simp)
    obtain ⟨e, f, g, hsix, hpad⟩ := padRight_sixChars (d := l) (t := t) (mem_A37_of_mem_A36 y hy) hd h.digit h.tail
      h.tailShort
    have hvalue := h.value
    rw [if_neg (by decide), hpad] at hvalue
    exact ⟨y, d, l, e, f, g, 0, hsix, hvalue, hpad.symm⟩

/-- The text of a standard callsign's number is the callsign (R246). -/
theorem standardText_standardValue {c : List Char} {n : Nat} (h : standardValue c = some n) : standardText n = c := by
  obtain ⟨p, hform⟩ := standardForm_of_standardValue h
  obtain ⟨x, y, d, e, f, g, k, hsix, rfl, hpad⟩ := hform.exists_sixChars
  rw [standardText_sixCharValue hsix, hpad, padRight, trim_spaces hform.trimmed]

theorem standardValue_lt {c : List Char} {n : Nat} (h : standardValue c = some n) : n < 262177560 := by
  obtain ⟨p, hform⟩ := standardForm_of_standardValue h
  obtain ⟨x, y, d, e, f, g, k, hsix, rfl, -⟩ := hform.exists_sixChars
  exact sixCharValue_lt hsix

/-! ## What the packer reads as a call -/

theorem splitSuffix_append {c : List Char} (h : ∀ x ∈ c, x ≠ '/') (sfx : Suffix) :
    splitSuffix (c ++ suffixText sfx) = (c, sfx) := by
  cases sfx with
  | none =>
    have slash : ∀ {x : Char} {u : List Char}, c.reverse ≠ x :: '/' :: u := fun hc =>
      h '/' (List.mem_reverse.mp (hc ▸ by simp)) rfl
    rw [suffixText, List.append_nil, splitSuffix]
    split
    next hc => exact absurd hc slash
    next hc => exact absurd hc slash
    next => rfl
  | slashR => simp [splitSuffix, suffixText]
  | slashP => simp [splitSuffix, suffixText]

theorem stdCall_standard {c : List Char} {n : Nat} (h : standardValue c = some n) (sfx : Suffix) :
    stdCall (c ++ suffixText sfx) = some { c28 := nTokens + max22 + n, suffix := sfx } := by
  obtain ⟨p, hform⟩ := standardForm_of_standardValue h
  rw [stdCall, splitSuffix_append fun x hx => ne_slash_of_mem_A36 x (hform.chars x hx), h, Option.map_some]

theorem stdCall_brackets (y : List Char) : stdCall ('<' :: y ++ ['>']) = none := by
  have hsplit : splitSuffix ('<' :: y ++ ['>']) = ('<' :: y ++ ['>'], .none) := by simp [splitSuffix]
  have hvalue : standardValue ('<' :: y ++ ['>']) = none := Option.eq_none_iff_forall_ne_some.mpr fun n h => by
    obtain ⟨p, hform⟩ := standardForm_of_standardValue h
    exact absurd (hform.chars '<' (by simp)) (by decide)
  rw [stdCall, hsplit, hvalue, Option.map_none]

theorem bracketed_brackets {y : List Char} (h : validCallsign y = true) : bracketed ('<' :: y ++ ['>']) = some y := by
  have last : ('<' :: y ++ ['>']).getLast? = some '>' := List.getLast?_concat
  simpa [bracketed, h] using last

theorem callTok_standard {c : List Char} {n : Nat} (h : standardValue c = some n) (sfx : Suffix) :
    callTok (c ++ suffixText sfx) = some { c28 := nTokens + max22 + n, suffix := sfx } := by
  rw [callTok, stdCall_standard h]

theorem callTok_brackets {y : List Char} (h : validCallsign y = true) :
    callTok ('<' :: y ++ ['>']) = some { c28 := nTokens + hash22 y, suffix := .none } := by
  rw [callTok, stdCall_brackets, hashTok, bracketed_brackets h, Option.map_some]

/-! ## What the packer reads before the calls -/

theorem cqTok_of_ne {x : List Char} (hde : x ≠ "DE".toList) (hqrz : x ≠ "QRZ".toList) (hcq : x ≠ "CQ".toList)
    (rest : List (List Char)) : cqTok (x :: rest) = none := by
  simp only [cqTok, if_neg hde, if_neg hqrz, if_neg hcq]

/-- CQ before another word: a number, a suffix with a further word after it, or CQ alone (R253). -/
theorem cqTok_cq_cons (y : List Char) (more : List (List Char)) :
    cqTok ("CQ".toList :: y :: more) =
      if y.length = 3 ∧ ∀ c ∈ y, c ∈ A10 then some (3 + alphaValue A10 y, 2)
      else if 1 ≤ y.length ∧ y.length ≤ 4 ∧ (∀ c ∈ y, c ∈ letters) ∧ more ≠ [] then
        some (1003 + alphaValue A27 (padLeft 4 y), 2)
      else some (2, 1) := by
  simp only [cqTok, List.all_eq_true, isDigit_iff, isLetter_iff]
  rw [if_neg (by decide), if_neg (by decide), if_pos trivial]

theorem cqTok_cq {y : List Char} (hdigit : ¬∀ c ∈ y, c ∈ A10) {more : List (List Char)}
    (hletter : more ≠ [] → ¬∀ c ∈ y, c ∈ letters) : cqTok ("CQ".toList :: y :: more) = some (2, 1) := by
  rw [cqTok_cq_cons, if_neg fun h => hdigit h.2, if_neg fun ⟨_, _, hy, hmore⟩ => hletter hmore hy]

theorem cqTok_number {d : List Char} (hlen : d.length = 3) (hd : ∀ c ∈ d, c ∈ A10) (more : List (List Char)) :
    cqTok ("CQ".toList :: d :: more) = some (3 + alphaValue A10 d, 2) := by
  rw [cqTok_cq_cons, if_pos ⟨hlen, hd⟩]

theorem cqTok_suffix {t : List Char} (h1 : 1 ≤ t.length) (h4 : t.length ≤ 4) (ht : ∀ c ∈ t, c ∈ letters)
    {more : List (List Char)} (hmore : more ≠ []) :
    cqTok ("CQ".toList :: t :: more) = some (1003 + alphaValue A27 (padLeft 4 t), 2) := by
  have hdigit : ¬∀ c ∈ t, c ∈ A10 := fun h => by
    obtain ⟨c, hc⟩ := List.exists_mem_of_length_pos h1
    exact not_digit_of_mem_letters c (ht c hc) (h c hc)
  rw [cqTok_cq_cons, if_neg fun h => hdigit h.2, if_pos ⟨h1, h4, ht, hmore⟩]

end Sys2Proof.Machine
end

section
/-! PROOFS. The two calls of a standard message (R245, R246, R250, R253, R258): each packs into a token that unpacks to
its text. -/

namespace Sys2Proof.Machine

/-! ## Tokens and their texts -/

theorem tokenOf_number {n : Nat} (h : n < 1000) :
    tokenOf (3 + n) = .special ("CQ ".toList ++ alphaText A10 3 n) := by
  rw [tokenOf, if_neg (by omega), if_neg (by omega), if_neg (by omega), if_pos (by omega), Nat.add_sub_cancel_left]

theorem tokenOf_suffix {n : Nat} (h : n < 531441) :
    tokenOf (1003 + n) = .special ("CQ ".toList ++ trim (alphaText A27 4 n)) := by
  rw [tokenOf, if_neg (by omega), if_neg (by omega), if_neg (by omega), if_neg (by omega), if_pos (by omega),
    Nat.add_sub_cancel_left]

theorem tokenOf_hashed {h : Nat} (hh : h < max22) : tokenOf (nTokens + h) = .hashed h := by
  have hn : nTokens = 2063592 := rfl
  rw [tokenOf, if_neg (by omega), if_neg (by omega), if_neg (by omega), if_neg (by omega), if_neg (by omega),
    if_neg (by omega), if_pos (by omega), Nat.add_sub_cancel_left]

theorem tokenOf_standard (n : Nat) : tokenOf (nTokens + max22 + n) = .standard (standardText n) := by
  have hn : nTokens = 2063592 := rfl
  rw [tokenOf, if_neg (by omega), if_neg (by omega), if_neg (by omega), if_neg (by omega), if_neg (by omega),
    if_neg (by omega), if_neg (by omega), Nat.add_assoc, Nat.add_sub_cancel_left, Nat.add_sub_cancel_left]

/-- A token with its suffix bit that fits its field and unpacks to a text, in the messages that can carry the
suffix. -/
structure TokenText (lookup : Nat → Option Callsign) (a : Call) (text : List Char) : Prop where
  fits : a.c28 < 2 ^ 28
  word : ∀ sfx, a.suffix = .none ∨ sfx = suffixText a.suffix →
    tokenWord lookup sfx (a.suffix != .none) (tokenOf a.c28) = some text

theorem tokenText_special (lookup : Nat → Option Callsign) {v : Nat} {text : List Char} (hv : v < 2 ^ 28)
    (h : tokenOf v = .special text) : TokenText lookup { c28 := v, suffix := .none } text :=
  ⟨hv, fun _ _ => by rw [h]; rfl⟩

theorem tokenText_hashed (lookup : Nat → Option Callsign) (y : List Char) :
    TokenText lookup { c28 := nTokens + hash22 y, suffix := .none } (resolvedText (lookup (hash22 y))) := by
  have hlt : hash22 y < max22 := hash22_lt y
  have hn : nTokens = 2063592 := rfl
  have hm : max22 = 4194304 := rfl
  exact ⟨show nTokens + hash22 y < 2 ^ 28 by omega, fun _ _ => by rw [tokenOf_hashed hlt]; rfl⟩

theorem tokenText_standard (lookup : Nat → Option Callsign) {c : List Char} {n : Nat} (h : standardValue c = some n)
    (s : Suffix) : TokenText lookup { c28 := nTokens + max22 + n, suffix := s } (c ++ suffixText s) := by
  have hlt := standardValue_lt h
  have hn : nTokens = 2063592 := rfl
  have hm : max22 = 4194304 := rfl
  refine ⟨show nTokens + max22 + n < 2 ^ 28 by omega, fun sfx hsfx => ?_⟩
  rw [tokenOf_standard, standardText_standardValue h]
  rcases hsfx with rfl | rfl
  · exact congrArg some (List.append_nil c).symm
  · cases s with
    | none => exact congrArg some (List.append_nil c).symm
    | slashR => rfl
    | slashP => rfl

/-! ## The two calls -/

section
variable {l22 : Nat → Option Callsign}

/-- A word for a call packs into a token that unpacks to its text and teaches its callsign. -/
theorem CallWord.token {x : List Char} {s : Suffix} {y : List Char} {learn : Option Callsign}
    (h : CallWord l22 x s y learn) :
    ∃ v, callTok x = some { c28 := v, suffix := s } ∧ TokenText l22 { c28 := v, suffix := s } y ∧ nTokens ≤ v ∧
      learnedCall (tokenOf v) = learn := by
  cases h with
  | standard c n s hc =>
    obtain ⟨p, hform⟩ := standardForm_of_standardValue hc
    refine ⟨_, callTok_standard hc s, tokenText_standard l22 hc s, by omega, ?_⟩
    rw [tokenOf_standard, standardText_standardValue hc, learnedCall, if_pos hform.valid]
  | hashed z hz =>
    refine ⟨_, callTok_brackets hz, tokenText_hashed l22 z, by omega, ?_⟩
    rw [tokenOf_hashed (hash22_lt z), learnedCall]

/-- A word for a call is neither a number nor letters alone. -/
theorem CallWord.mixed {x : List Char} {s : Suffix} {y : List Char} {learn : Option Callsign}
    (h : CallWord l22 x s y learn) : (¬∀ c ∈ x, c ∈ A10) ∧ ¬∀ c ∈ x, c ∈ letters := by
  cases h with
  | standard c n s hc =>
    obtain ⟨p, hform⟩ := standardForm_of_standardValue hc
    obtain ⟨l, hl, hletter⟩ := hform.exists_letter
    obtain ⟨d, hd, hdigit⟩ := hform.exists_digit
    exact ⟨fun h => not_digit_of_mem_letters l hletter (h l (List.mem_append_left _ hl)),
      fun h => not_digit_of_mem_letters d (h d (List.mem_append_left _ hd)) hdigit⟩
  | hashed z hz =>
    exact ⟨fun h => absurd (h '<' (by simp)) (by decide), fun h => absurd (h '<' (by simp)) (by decide)⟩

theorem firstCall_of_cqTok {w : List (List Char)} {v k : Nat} (h : cqTok w = some (v, k)) :
    firstCall w = some ({ c28 := v, suffix := .none }, k) := by
  simp only [firstCall, h]

theorem firstCall_call {x : List Char} {rest : List (List Char)} (h : cqTok (x :: rest) = none) :
    firstCall (x :: rest) = (callTok x).map fun a => (a, 1) := by
  simp only [firstCall, h]

/-- The words before the second call pack into a token that unpacks to their text. -/
theorem FirstWords.token {first : List (List Char)} {s : Suffix} {first' : List (List Char)}
    (h : FirstWords l22 first s first') {x : List Char} (hx : (¬∀ c ∈ x, c ∈ A10) ∧ ¬∀ c ∈ x, c ∈ letters)
    (rest : List (List Char)) :
    ∃ v, firstCall (first ++ x :: rest) = some ({ c28 := v, suffix := s }, first.length) ∧
      TokenText l22 { c28 := v, suffix := s } (unwords first') := by
  cases h with
  | de => exact ⟨0, firstCall_of_cqTok rfl, tokenText_special l22 (by decide) rfl⟩
  | qrz => exact ⟨1, firstCall_of_cqTok rfl, tokenText_special l22 (by decide) rfl⟩
  | cq => exact ⟨2, firstCall_of_cqTok (cqTok_cq hx.1 fun _ => hx.2), tokenText_special l22 (by decide) rfl⟩
  | cqNumber d hlen hd =>
    have hlt : alphaValue A10 d < 1000 := alphaValue_lt_of_length hlen hd
    refine ⟨_, firstCall_of_cqTok (cqTok_number hlen hd _), tokenText_special l22 (by omega) ?_⟩
    rw [tokenOf_number hlt, alphaText_of_length hlen hd]
    rfl
  | cqSuffix t h1 h4 ht =>
    have hmem : ∀ c ∈ padLeft 4 t, c ∈ A27 :=
      forall_mem_padLeft (by decide) (fun c hc => mem_A27_of_mem_letters c (ht c hc)) 4
    have hlt : alphaValue A27 (padLeft 4 t) < 531441 := alphaValue_lt_of_length (length_padLeft h4) hmem
    have htrim : Trimmed t :=
      trimmed_of_no_space (List.ne_nil_of_length_pos h1) fun c hc => ne_space_of_mem_letters c (ht c hc)
    refine ⟨_, firstCall_of_cqTok (cqTok_suffix h1 h4 ht (List.cons_ne_nil _ _)),
      tokenText_special l22 (by omega) ?_⟩
    rw [tokenOf_suffix hlt, alphaText_of_length (length_padLeft h4) hmem, trim_padLeft htrim]
    rfl
  | call z s y learn hz =>
    have hletters := hz.mixed.2
    obtain ⟨v, hv, htext, -⟩ := hz.token
    have hcq : cqTok (z :: x :: rest) = none := by
      refine cqTok_of_ne ?_ ?_ ?_ _ <;> rintro rfl <;> exact hletters (List.all_iff_forall_prop.mp (by decide))
    exact ⟨v, by rw [List.singleton_append, firstCall_call hcq, hv]; rfl, htext⟩

end

end Sys2Proof.Machine
end

section
/-! PROOFS. Standard messages (R244, R247, R248, R253, R254, R258): the words after the calls pack into R1 and g15 and
come back from them, and a message unpacks to its words. -/

namespace Sys2Proof.Machine

/-! ## Grids -/

theorem isGrid_gridText {g : Nat} (h : g < 32400) : isGrid (gridText g) = true := by
  have letter : ∀ k < 18, (letters.take 18).contains (alphaChar letters k) = true := fun k hk =>
    List.contains_iff_mem.mpr (alphaChar_mem_take hk (by decide))
  have digit : ∀ k < 10, isDigit (alphaChar A10 k) = true := fun k hk => isDigit_iff.mpr (alphaChar_mem hk)
  rw [gridText, isGrid, letter _ (by omega), letter _ (by omega), digit _ (by omega), digit _ (by omega)]
  rfl

/-- The number of a grid's text is the number (R248). -/
theorem gridValue_gridText {g : Nat} (h : g < 32400) : gridValue (gridText g) = g := by
  have letter : ∀ k < 18, alphaIdx letters (alphaChar letters k) = k := fun k hk =>
    alphaIdx_alphaChar (by decide) (Nat.lt_of_lt_of_le hk (by decide))
  have digit : ∀ k < 10, alphaIdx A10 (alphaChar A10 k) = k := fun k hk => alphaIdx_alphaChar (by decide) hk
  simp only [gridValue, gridText, List.getD_cons_zero, List.getD_cons_succ]
  rw [letter _ (by omega), letter _ (by omega), digit _ (by omega), digit _ (by omega)]
  omega

/-! ## Reports -/

/-- A report reads as its value: its two digits after its sign (R247, R253). -/
theorem reportValue_reportText {r : Int} (hlo : -30 ≤ r) (hhi : r ≤ 99) : reportValue (reportText r) = some r := by
  have hmem : ∀ c ∈ alphaText A10 2 r.natAbs, c ∈ A10 := fun c hc => mem_of_mem_alphaText (by decide) hc
  have hvalue : alphaValue A10 (alphaText A10 2 r.natAbs) = r.natAbs :=
    alphaValue_alphaText (by decide) (by decide) (show r.natAbs < 100 by omega)
  obtain ⟨d1, d2, hd⟩ := List.length_eq_two.mp (length_alphaText A10 2 r.natAbs)
  rw [hd] at hmem hvalue
  have digits : alphaIdx A10 d1 * 10 + alphaIdx A10 d2 = r.natAbs := by
    rw [← hvalue]
    simp [alphaValue, show A10.length = 10 from rfl]
  have isDigits : isDigit d1 = true ∧ isDigit d2 = true :=
    ⟨isDigit_iff.mpr (hmem d1 (by simp)), isDigit_iff.mpr (hmem d2 (by simp))⟩
  rw [reportText, hd, reportValue, if_pos isDigits, digits]
  by_cases hr : r < 0
  · rw [if_pos hr]
    simp only [show ('-' : Char) ≠ '+' by decide, if_false, true_and]
    rw [if_pos (by omega)]
    exact congrArg some (by omega)
  · rw [if_neg hr]
    exact congrArg some (by omega)

theorem report_form {x : List Char} {r : Int} (h : reportValue x = some r) :
    ∃ sign d1 d2, x = [sign, d1, d2] ∧ (sign = '+' ∨ sign = '-') := by
  unfold reportValue at h
  split at h
  next sign d1 d2 =>
    refine ⟨sign, d1, d2, rfl, ?_⟩
    split at h
    next =>
      dsimp only at h
      split at h
      next hplus => exact .inl hplus
      next =>
        split at h
        next hminus => exact .inr hminus.1
        next => exact nomatch h
    next => exact nomatch h
  next => exact nomatch h

/-! ## The words after the calls -/

theorem extraTok_grid {x : List Char} (h : isGrid x = true) (hne : x ≠ "RR73".toList) :
    extraTok [x] = some (false, gridValue x) := by
  have hrrr : x ≠ "RRR".toList := by rintro rfl; exact nomatch h
  have h73 : x ≠ "73".toList := by rintro rfl; exact nomatch h
  simp only [extraTok, if_neg hrrr, if_neg hne, if_neg h73, if_pos h]

theorem extraTok_report {x : List Char} {r : Int} (h : reportValue x = some r) :
    extraTok [x] = some (false, (32435 + r).toNat) := by
  obtain ⟨sign, d1, d2, rfl, hsign⟩ := report_form h
  have hgrid : isGrid [sign, d1, d2] = false := rfl
  have hrrr : [sign, d1, d2] ≠ "RRR".toList := by rintro ⟨⟩; exact nomatch hsign
  have hrr73 : [sign, d1, d2] ≠ "RR73".toList := by rintro ⟨⟩
  have h73 : [sign, d1, d2] ≠ "73".toList := by rintro ⟨⟩
  simp only [extraTok, if_neg hrrr, if_neg hrr73, if_neg h73, hgrid, h, Bool.false_eq_true, if_false]

theorem extraTok_rogerReport {x : List Char} {r : Int} (h : reportValue x = some r) :
    extraTok ['R' :: x] = some (true, (32435 + r).toNat) := by
  obtain ⟨sign, d1, d2, rfl, hsign⟩ := report_form h
  have hgrid : isGrid ['R', sign, d1, d2] = false := by
    have : (letters.take 18).contains sign = false := by rcases hsign with rfl | rfl <;> decide
    rw [isGrid, this, Bool.and_false, Bool.false_and, Bool.false_and]
  have hrrr : ['R', sign, d1, d2] ≠ "RRR".toList := by rintro ⟨⟩
  have hrr73 : ['R', sign, d1, d2] ≠ "RR73".toList := by rintro ⟨⟩; exact nomatch hsign
  have h73 : ['R', sign, d1, d2] ≠ "73".toList := by rintro ⟨⟩
  have hreport : reportValue ['R', sign, d1, d2] = none := rfl
  simp only [extraTok, if_neg hrrr, if_neg hrr73, if_neg h73, hgrid, hreport, Bool.false_eq_true, if_false,
    List.head?_cons, List.tail_cons, if_true, h, Option.map_some]

theorem extraTok_rogerGrid {y : List Char} (h : isGrid y = true) (hne : y ≠ "RR73".toList) :
    extraTok ["R".toList, y] = some (true, gridValue y) := by
  rw [extraTok, if_pos ⟨rfl, h, hne⟩]

theorem extraText_grid {g : Nat} (h : g < 32400) (r1 : Bool) :
    extraText r1 g = some (if r1 then "R ".toList ++ gridText g else gridText g) := by
  rw [extraText, if_pos h]

theorem extraText_report {r : Int} (hlo : -30 ≤ r) (hhi : r ≤ 99) (r1 : Bool) :
    extraText r1 (32435 + r).toNat = some (if r1 then 'R' :: reportText r else reportText r) := by
  rw [extraText, if_neg (by omega), if_pos (by omega), show ((32435 + r).toNat : Int) - 32435 = r by omega]

/-- The words after the calls pack into R1 and g15, which unpack to their text (R247, R253). -/
theorem ExtraWords.token {rest : List (List Char)} (h : ExtraWords rest) :
    ∃ r1 g, extraTok rest = some (r1, g) ∧ g < 2 ^ 15 ∧ extraText r1 g = some (unwords rest) := by
  rcases h with rfl | rfl | rfl | rfl | ⟨g, hg, h⟩ | ⟨r, hlo, hhi, h⟩
  · exact ⟨false, 32401, rfl, by decide, rfl⟩
  · exact ⟨false, 32402, rfl, by decide, rfl⟩
  · exact ⟨false, 32403, rfl, by decide, rfl⟩
  · exact ⟨false, 32404, rfl, by decide, rfl⟩
  · have hgrid := isGrid_gridText hg
    have hvalue := gridValue_gridText hg
    rcases h with rfl | ⟨hne, rfl⟩
    · by_cases hne : gridText g = "RR73".toList
      · rw [hne]
        exact ⟨false, 32403, rfl, by decide, rfl⟩
      · exact ⟨false, g, by rw [extraTok_grid hgrid hne, hvalue], by omega, extraText_grid hg false⟩
    · exact ⟨true, g, by rw [extraTok_rogerGrid hgrid hne, hvalue], by omega, extraText_grid hg true⟩
  · have hreport := reportValue_reportText hlo hhi
    rcases h with rfl | rfl
    · exact ⟨false, _, extraTok_report hreport, by omega, extraText_report hlo hhi false⟩
    · exact ⟨true, _, extraTok_rogerReport hreport, by omega, extraText_report hlo hhi true⟩

/-- Only no words at all have an empty text. -/
theorem ExtraWords.unwords_ne_nil {rest : List (List Char)} (h : ExtraWords rest) (hne : rest ≠ []) :
    unwords rest ≠ [] := by
  rcases h with rfl | rfl | rfl | rfl | ⟨g, -, rfl | ⟨-, rfl⟩⟩ | ⟨r, -, -, rfl | rfl⟩
  case inl => exact absurd rfl hne
  all_goals exact List.cons_ne_nil _ _

/-! ## The message -/

/-- The type that carries two suffixes (R254). -/
def standardType (s1 s2 : Suffix) : Nat := if s1 = .slashP ∨ s2 = .slashP then 2 else 1

theorem standardType_cases (s1 s2 : Suffix) : standardType s1 s2 = 1 ∨ standardType s1 s2 = 2 := by
  unfold standardType
  split
  · exact .inr rfl
  · exact .inl rfl

/-- Two suffixes that agree are the one their type means, where they are any (R244, R254). -/
theorem suffixText_standardType {s1 s2 : Suffix} (h : suffixesAgree s1 s2 = true) :
    (s1 = .none ∨ (if standardType s1 s2 = 1 then "/R".toList else "/P".toList) = suffixText s1) ∧
      (s2 = .none ∨ (if standardType s1 s2 = 1 then "/R".toList else "/P".toList) = suffixText s2) := by
  revert h
  cases s1 <;> cases s2 <;> decide

/-- Step 1 of PACK on the parts of a standard message (R254). -/
theorem packStandard_of_parts {first : List (List Char)} {x : List Char} {rest : List (List Char)} {a b : Call}
    {r1 : Bool} {g : Nat} (ha : firstCall (first ++ x :: rest) = some (a, first.length)) (hb : callTok x = some b)
    (he : extraTok rest = some (r1, g)) (hs : suffixesAgree a.suffix b.suffix = true) :
    packStandard (first ++ x :: rest) =
      some { bits := standardBits a b r1 g (standardType a.suffix b.suffix), i3 := standardType a.suffix b.suffix
             n3 := 0, form := 1 } := by
  have hx : (first ++ x :: rest)[first.length]? = some x := by simp
  have hrest : (first ++ x :: rest).drop (first.length + 1) = rest := by simp
  simp only [packStandard, ha, hx, hb, hrest, he, hs, bind, Option.bind_some, if_true, standardType]

theorem unpack_standard {m : List Bool} (h : messageI3 m = 1 ∨ messageI3 m = 2) (l22 l12 : Nat → Option Callsign) :
    unpack l22 l12 m = unpackStandard l22 m := by
  simp only [unpack]
  rw [if_neg (by omega), if_pos h]

/-- A standard message unpacks to its parts' texts (R258). -/
theorem unpackStandard_standardBits {l22 : Nat → Option Callsign} {a b : Call} {r1 : Bool} {g : Nat}
    {w1 w2 ext : List Char} (ha : TokenText l22 a w1) (hb : TokenText l22 b w2) (hb' : nTokens ≤ b.c28)
    (hg : g < 2 ^ 15) (he : extraText r1 g = some ext) (hs : suffixesAgree a.suffix b.suffix = true) :
    unpackStandard l22 (standardBits a b r1 g (standardType a.suffix b.suffix)) =
      some { text := w1 ++ ' ' :: w2 ++ (if ext = [] then [] else ' ' :: ext)
             learn := learnedCall (tokenOf b.c28) } := by
  obtain ⟨hs1, hs2⟩ := suffixText_standardType hs
  have hi3 : standardType a.suffix b.suffix < 2 ^ 3 := by have := standardType_cases a.suffix b.suffix; omega
  simp only [unpackStandard, messageI3_standardBits _ _ _ _ _ hi3, firstToken_standardBits _ _ _ _ _ ha.fits,
    firstSuffix_standardBits, secondToken_standardBits _ _ _ _ _ hb.fits, secondSuffix_standardBits, r1_standardBits,
    g15_standardBits _ _ _ _ _ hg, secondWord, if_neg (Nat.not_lt.mpr hb'), ha.word _ hs1, hb.word _ hs2, he, bind,
    Option.bind_some]

/-- Settles O56: each part of the message packs into its field, and each field unpacks to the part's text. -/
theorem standardMessageRoundTrip : Obligations.StandardMessageRoundTrip := by
  intro l22 l12 first first' second second' s1 s2 learn rest hfirst hsecond hs hrest
  obtain ⟨v2, hcall, htext2, hv2, hlearn⟩ := hsecond.token
  obtain ⟨v1, hfirstCall, htext1⟩ := hfirst.token hsecond.mixed rest
  obtain ⟨r1, g, hextra, hg, hext⟩ := hrest.token
  have hpack := pack_of_standard (packStandard_of_parts hfirstCall hcall hextra hs)
  have htype := standardType_cases s1 s2
  have hi3 : messageI3 (pack (first ++ second :: rest)).bits = standardType s1 s2 := by rw [messageI3_pack, hpack]
  rw [unpack_standard (by rwa [hi3])]
  rw [hpack]
  refine ⟨rfl, rfl, ?_⟩
  rw [unpackStandard_standardBits htext1 htext2 hv2 hg hext hs, hlearn]
  have hne : first' ≠ [] := by cases hfirst <;> exact List.cons_ne_nil _ _
  rw [unwords_append hne (List.cons_ne_nil _ _)]
  by_cases hnil : rest = []
  · subst hnil
    rw [unwords, if_pos rfl, List.append_nil, unwords]
  · rw [if_neg (hrest.unwords_ne_nil hnil), unwords_cons hnil, List.append_assoc, List.cons_append]

end Sys2Proof.Machine
end

section
/-! PROOFS. Free text (R243, R257) and messages with one hashed call (R249, R254, R259): what unpacking makes of what
PACK packs. -/

namespace Sys2Proof.Machine

/-! ## Free text -/

/-- A short text of the alphabet fills its 13 characters with spaces after it (R254). -/
theorem freeTextChars_eq {t : List Char} (hlen : t.length ≤ 13) (h : ∀ c ∈ t, c ∈ A42) :
    freeTextChars t = padRight 13 t := by
  have keep : ∀ c ∈ padRight 13 t, (if A42.contains c then c else ' ') = c := fun c hc =>
    if_pos (List.contains_iff_mem.mpr (forall_mem_padRight (by decide) h 13 c hc))
  rw [freeTextChars, List.take_of_length_le hlen, List.map_congr_left keep, List.map_id']

theorem unpackFree_packFree {t : List Char} (ht : Trimmed t) (hlen : t.length ≤ 13) (h : ∀ c ∈ t, c ∈ A42) :
    unpackFree (packFree t).bits = some { text := t, learn := none } := by
  have hmem := forall_mem_padRight (by decide) h 13
  have hlt : alphaValue A42 (padRight 13 t) < 42 ^ 13 := alphaValue_lt_of_length (length_padRight hlen) hmem
  have hfits : alphaValue A42 (freeTextChars t) < 2 ^ 71 := by
    rw [freeTextChars_eq hlen h]
    exact hlt.trans (by decide)
  simp only [unpackFree, text_packFree hfits, freeTextChars_eq hlen h,
    alphaText_of_length (length_padRight hlen) hmem, trim_padRight ht, if_neg (Nat.not_le.mpr hlt)]

theorem unpack_packFree (l22 l12 : Nat → Option Callsign) (t : List Char) :
    unpack l22 l12 (packFree t).bits = unpackFree (packFree t).bits := by
  simp only [unpack]
  rw [if_pos ⟨messageI3_packFree t, messageN3_packFree t⟩]

/-- Only step 3 of PACK packs free text (R254). -/
theorem pack_of_form_zero {w : List (List Char)} (h : (pack w).form = 0) : pack w = packFree (unwords w) := by
  rcases pack_cases w with hs | ⟨-, hh⟩ | ⟨-, -, hf⟩
  · obtain ⟨a, b, r1, g, hp, -⟩ := packStandard_bits hs
    rw [hp] at h
    exact nomatch h
  · obtain ⟨h12, call, h1, r2, c1, hp⟩ := packHashed_bits hh
    rw [hp] at h
    exact nomatch h
  · exact hf

/-- Settles O57: the words' text has no space at its ends, and so comes back whole from its 13 characters. -/
theorem freeTextRoundTrip : Obligations.FreeTextRoundTrip := by
  intro l22 l12 t hne hlen hchars hform
  have htrim := trimmed_unwords hne fun w hw => isWord_of_mem_words hw
  rw [pack_of_form_zero hform, unpack_packFree, unpackFree_packFree htrim hlen hchars]

/-! ## A nonstandard call in its field -/

/-- What R254 asks of a nonstandard call. -/
theorem nonStd_iff {y : List Char} :
    nonStd y = true ↔ (3 ≤ y.length ∧ y.length ≤ 11) ∧ (∀ c ∈ y, c ∈ A38 ∧ c ≠ ' ') ∧ stdCall y = none := by
  simp only [nonStd, callsignChar, Bool.and_eq_true, decide_eq_true_eq, List.all_eq_true, List.contains_iff_mem,
    bne_iff_ne, Option.isNone_iff_eq_none, and_assoc]

theorem validCallsign_of_nonStd {y : List Char} (h : nonStd y = true) : validCallsign y = true := by
  obtain ⟨⟨h3, h11⟩, hchars, -⟩ := nonStd_iff.mp h
  exact validCallsign_iff.mpr ⟨⟨by omega, h11⟩, hchars⟩

theorem bracketed_of_nonStd {y : List Char} (h : nonStd y = true) : bracketed y = none := by
  obtain ⟨-, hchars, -⟩ := nonStd_iff.mp h
  refine if_neg fun ⟨hhead, _⟩ => ?_
  exact absurd (hchars '<' (List.mem_of_mem_head? hhead)).1 (by decide)

theorem callTok_of_nonStd {y : List Char} (h : nonStd y = true) : callTok y = none := by
  obtain ⟨-, -, hstd⟩ := nonStd_iff.mp h
  rw [callTok, hstd, hashTok, bracketed_of_nonStd h, Option.map_none]

theorem nonStd_ne_short {y z : List Char} (h : nonStd y = true) (hz : z.length < 3) : y ≠ z := by
  obtain ⟨⟨h3, -⟩, -⟩ := nonStd_iff.mp h
  rintro rfl
  omega

/-- A callsign comes back from its number, which fits its 58 bits (R249, R259). -/
theorem callsign_roundTrip {y : List Char} (h : validCallsign y = true) :
    callsignNumber y < 38 ^ 11 ∧ trim (alphaText A38 11 (callsignNumber y)) = y := by
  obtain ⟨⟨h1, h11⟩, hchars⟩ := validCallsign_iff.mp h
  have hmem : ∀ c ∈ padRight 11 y, c ∈ A38 := forall_mem_padRight (by decide) (fun c hc => (hchars c hc).1) 11
  have htrim : Trimmed y := trimmed_of_no_space (List.ne_nil_of_length_pos h1) fun c hc => (hchars c hc).2
  have hlen := length_padRight h11
  exact ⟨alphaValue_lt_of_length hlen hmem, by
    rw [callsignNumber, alphaText_of_length hlen hmem, trim_padRight htrim]⟩

/-! ## The message -/

theorem unpack_hashed {m : List Bool} (h : messageI3 m = 4) (l22 l12 : Nat → Option Callsign) :
    unpack l22 l12 m = unpackHashed l12 m := by
  simp only [unpack]
  rw [if_neg (by omega), if_neg (by omega), if_pos h]

/-- A message with one hashed call unpacks to its calls and its acknowledgement, or to CQ and its call (R259). -/
theorem unpackHashed_hashedBits (l12 : Nat → Option Callsign) {h12 r2 : Nat} {y : List Char} (h1 c1 : Bool)
    (hh : h12 < 2 ^ 12) (hy : validCallsign y = true) (hr : r2 < 2 ^ 2) :
    unpackHashed l12 (hashedBits h12 y h1 r2 c1) =
      some {
        text := if c1 then "CQ ".toList ++ y
          else (if h1 then y ++ ' ' :: resolvedText (l12 h12) else resolvedText (l12 h12) ++ ' ' :: y) ++ ackText r2
        learn := none } := by
  obtain ⟨hlt, htext⟩ := callsign_roundTrip hy
  obtain ⟨⟨h1', -⟩, -⟩ := validCallsign_iff.mp hy
  have hgood : ¬(38 ^ 11 ≤ callsignNumber y ∨ y = []) :=
    not_or.mpr ⟨Nat.not_le.mpr hlt, List.ne_nil_of_length_pos h1'⟩
  simp only [unpackHashed, hash_hashedBits _ _ _ _ _ hh,
    callsign_hashedBits _ _ _ _ _ (hlt.trans (by decide : 38 ^ 11 < 2 ^ 58)), htext, if_neg hgood, h1_hashedBits,
    r2_hashedBits _ _ _ _ _ hr, c1_hashedBits]
  cases c1 <;> rfl

/-- A message that no standard message matches and that packs with one hashed call comes back. -/
theorem pack_hashed_roundTrip {w : List (List Char)} {h12 r2 : Nat} {y text : List Char} {h1 c1 : Bool}
    (l22 l12 : Nat → Option Callsign) (hs : packStandard w = none)
    (hp : packHashed w = some { bits := hashedBits h12 y h1 r2 c1, i3 := 4, n3 := 0, form := 4 })
    (hh : h12 < 2 ^ 12) (hy : validCallsign y = true) (hr : r2 < 2 ^ 2)
    (ht : (if c1 then "CQ ".toList ++ y
      else (if h1 then y ++ ' ' :: resolvedText (l12 h12) else resolvedText (l12 h12) ++ ' ' :: y) ++ ackText r2)
        = text) :
    (pack w).form = 4 ∧ (pack w).i3 = 4 ∧ unpack l22 l12 (pack w).bits = some { text := text, learn := none } := by
  rw [pack_of_hashed hs hp, unpack_hashed (messageI3_hashedBits ..), unpackHashed_hashedBits l12 h1 c1 hh hy hr, ht]
  exact ⟨rfl, rfl, rfl⟩

/-- The words after the calls pack into r2, which unpacks to their text (R249, R254). -/
theorem AckWords.token {rest : List (List Char)} (h : AckWords rest) :
    ∃ r, ackTok rest = some r ∧ r < 2 ^ 2 ∧ ∀ x y, x ++ ' ' :: y ++ ackText r = unwords (x :: y :: rest) := by
  have text : ∀ (r : Nat) (ack x y : List Char), ackText r = ' ' :: ack →
      x ++ ' ' :: y ++ ackText r = unwords [x, y, ack] := fun r ack x y h => by
    rw [h, unwords_cons (List.cons_ne_nil _ _), unwords_cons (List.cons_ne_nil _ _), unwords, List.append_assoc,
      List.cons_append]
  rcases h with rfl | rfl | rfl | rfl
  · exact ⟨0, rfl, by decide, fun x y => List.append_nil _⟩
  · exact ⟨1, rfl, by decide, fun x y => text 1 _ x y rfl⟩
  · exact ⟨2, rfl, by decide, fun x y => text 2 _ x y rfl⟩
  · exact ⟨3, rfl, by decide, fun x y => text 3 _ x y rfl⟩

/-! ## Step 1 of PACK matches none of them -/

theorem packStandard_none_of_first {w : List (List Char)} (h : firstCall w = none) : packStandard w = none := by
  simp only [packStandard, h, bind, Option.bind_none]

theorem packStandard_none_of_second {w : List (List Char)} {a : Call} {k : Nat} (hf : firstCall w = some (a, k))
    (hx : w[k]?.bind callTok = none) : packStandard w = none := by
  simp only [packStandard, hf, bind, Option.bind_some]
  rw [← Option.bind_assoc, hx, Option.bind_none]

theorem packStandard_cq_nonStd {y : List Char} (hy : nonStd y = true) : packStandard ["CQ".toList, y] = none := by
  have hcq := cqTok_cq_cons y []
  by_cases hnumber : y.length = 3 ∧ ∀ c ∈ y, c ∈ A10
  · rw [if_pos hnumber] at hcq
    exact packStandard_none_of_second (firstCall_of_cqTok hcq) rfl
  · rw [if_neg hnumber, if_neg fun h => h.2.2.2 rfl] at hcq
    exact packStandard_none_of_second (firstCall_of_cqTok hcq) (callTok_of_nonStd hy)

theorem brackets_ne {h z : List Char} (hz : z.head? ≠ some '<') : '<' :: h ++ ['>'] ≠ z := by
  rintro rfl
  exact hz rfl

theorem packStandard_hashed_nonStd {h y : List Char} (hh : validCallsign h = true) (hy : nonStd y = true)
    (rest : List (List Char)) : packStandard (('<' :: h ++ ['>']) :: y :: rest) = none := by
  have hfirst := firstCall_call
    (cqTok_of_ne (brackets_ne (h := h) (by decide)) (brackets_ne (by decide)) (brackets_ne (by decide)) (y :: rest))
  rw [callTok_brackets hh] at hfirst
  exact packStandard_none_of_second hfirst (callTok_of_nonStd hy)

theorem packStandard_nonStd_first {y : List Char} (hy : nonStd y = true) (hqrz : y ≠ "QRZ".toList)
    (rest : List (List Char)) : packStandard (y :: rest) = none := by
  refine packStandard_none_of_first ?_
  rw [firstCall_call (cqTok_of_ne (nonStd_ne_short hy (by decide)) hqrz (nonStd_ne_short hy (by decide)) rest),
    callTok_of_nonStd hy, Option.map_none]

/-! ## Step 2 of PACK -/

theorem packHashed_cq {y : List Char} (hy : nonStd y = true) :
    packHashed ["CQ".toList, y] = some { bits := hashedBits 0 y false 0 true, i3 := 4, n3 := 0, form := 4 } := by
  rw [packHashed, if_pos ⟨rfl, rfl, hy⟩, Option.map_some]

theorem packHashed_two {x : List Char} (hx : x ≠ "CQ".toList) (y : List Char) (rest : List (List Char)) :
    packHashed (x :: y :: rest) =
      (packTwoCalls x y rest).map fun bits => { bits := bits, i3 := 4, n3 := 0, form := 4 } := by
  rw [packHashed, if_neg fun h => hx h.1]

theorem packTwoCalls_hashed_first {h y : List Char} {rest : List (List Char)} {r : Nat} (hh : validCallsign h = true)
    (hy : nonStd y = true) (hr : ackTok rest = some r) :
    packTwoCalls ('<' :: h ++ ['>']) y rest = some (hashedBits (hash12 h) y false r false) := by
  simp only [packTwoCalls, hr, bracketed_brackets hh, bracketed_of_nonStd hy, hy, if_true]

theorem packTwoCalls_hashed_second {h y : List Char} {rest : List (List Char)} {r : Nat}
    (hh : validCallsign h = true) (hy : nonStd y = true) (hr : ackTok rest = some r) :
    packTwoCalls y ('<' :: h ++ ['>']) rest = some (hashedBits (hash12 h) y true r false) := by
  simp only [packTwoCalls, hr, bracketed_brackets hh, bracketed_of_nonStd hy, hy, if_true]

/-- Settles O58: in each form step 1 of PACK finds no second or no first call, and step 2 packs the message. -/
theorem hashedMessageRoundTrip : Obligations.HashedMessageRoundTrip := by
  intro l22 l12 h y rest hh hy hrest
  have hvalid := validCallsign_of_nonStd hy
  obtain ⟨r, hr, hr4, htext⟩ := hrest.token
  refine ⟨?_, ?_, fun hqrz => ?_⟩
  · exact pack_hashed_roundTrip l22 l12 (packStandard_cq_nonStd hy) (packHashed_cq hy) (by decide) hvalid (by decide)
      rfl
  · have hp : packHashed (('<' :: h ++ ['>']) :: y :: rest) =
        some { bits := hashedBits (hash12 h) y false r false, i3 := 4, n3 := 0, form := 4 } := by
      rw [packHashed_two (brackets_ne (by decide)), packTwoCalls_hashed_first hh hy hr, Option.map_some]
    exact pack_hashed_roundTrip l22 l12 (packStandard_hashed_nonStd hh hy rest) hp (hash12_lt h) hvalid hr4
      (htext _ _)
  · have hp : packHashed (y :: ('<' :: h ++ ['>']) :: rest) =
        some { bits := hashedBits (hash12 h) y true r false, i3 := 4, n3 := 0, form := 4 } := by
      rw [packHashed_two (nonStd_ne_short hy (by decide)), packTwoCalls_hashed_second hh hy hr, Option.map_some]
    exact pack_hashed_roundTrip l22 l12 (packStandard_nonStd_first hy hqrz _) hp (hash12_lt h) hvalid hr4 (htext _ _)

end Sys2Proof.Machine
end

section
/-! PROOFS. The hash-call table (R292 to R295): what a save leaves of each map, when it changes nothing, and the
callsigns HT22 holds after any number of saves. -/

namespace Sys2Proof.Machine

/-! ## HT22 after a save -/

section
variable {x : Callsign} {list : List (Nat × Callsign)}

theorem not_mem_map_snd_iff : x ∉ list.map Prod.snd ↔ ∀ p ∈ list, p.2 ≠ x := by
  simp only [List.mem_map, not_exists, not_and, ne_eq]

theorem saveFront_of_mem (h : x ∈ list.map Prod.snd) : saveFront x list = list :=
  if_pos ((any_snd_iff list x).mpr h)

theorem saveFront_of_not_mem (h : x ∉ list.map Prod.snd) :
    saveFront x list = (hash22 x, x) :: if list.length = ht22Cap then list.dropLast else list :=
  if_neg (mt (any_snd_iff list x).mp h)

theorem mem_saveFront (x : Callsign) (list : List (Nat × Callsign)) : x ∈ (saveFront x list).map Prod.snd := by
  by_cases h : x ∈ list.map Prod.snd
  · rwa [saveFront_of_mem h]
  · rw [saveFront_of_not_mem h]
    exact List.mem_cons_self

/-- A save leaves HT22 as it is exactly when the callsign is in it. -/
theorem saveFront_eq_self_iff : saveFront x list = list ↔ x ∈ list.map Prod.snd :=
  ⟨fun h => h ▸ mem_saveFront x list, saveFront_of_mem⟩

/-- A new callsign is the one its hash finds. -/
theorem getEntry_saveFront (h : x ∉ list.map Prod.snd) : getEntry (saveFront x list) (hash22 x) = some x := by
  rw [saveFront_of_not_mem h]
  exact if_pos rfl

/-- The pair that a full list loses is not the one at its front. -/
theorem front_mem_saveFront (y : Callsign) (p : Nat × Callsign) (rest : List (Nat × Callsign)) :
    p ∈ saveFront y (p :: rest) := by
  by_cases h : y ∈ (p :: rest).map Prod.snd
  · rw [saveFront_of_mem h]
    exact List.mem_cons_self
  · rw [saveFront_of_not_mem h]
    split
    next full =>
      have hrest : rest ≠ [] := by
        rintro rfl
        exact absurd (show 1 = 1000 from full) (by decide)
      rw [List.dropLast_cons_of_ne_nil hrest]
      exact List.mem_cons_of_mem _ List.mem_cons_self
    next => exact List.mem_cons_of_mem _ List.mem_cons_self

/-- A new callsign is still in HT22 after the next save. -/
theorem mem_saveFront_saveFront (h : x ∉ list.map Prod.snd) (y : Callsign) :
    x ∈ (saveFront y (saveFront x list)).map Prod.snd := by
  rw [saveFront_of_not_mem h]
  exact List.mem_map_of_mem (front_mem_saveFront y _ _)

/-- A new callsign goes to the front, and HT22 keeps the first of its callsigns that it has room for. -/
theorem map_snd_saveFront (h : x ∉ list.map Prod.snd) (hlen : list.length ≤ ht22Cap) :
    (saveFront x list).map Prod.snd = (x :: list.map Prod.snd).take ht22Cap := by
  have cap : ht22Cap = 999 + 1 := rfl
  rw [saveFront_of_not_mem h, List.map_cons, cap, List.take_succ_cons]
  split
  next full => rw [List.dropLast_eq_take, full, List.map_take]
  next room => rw [List.take_of_length_le (by rw [List.length_map]; omega)]

end

/-- Distinct callsigns saved one after another stand in HT22 with the last saved first, as many as it has room for. -/
theorem map_snd_ht22_saves {xs : List Callsign} (h : xs.Nodup) :
    (xs.foldl HashTable.save HashTable.empty).ht22.map Prod.snd = xs.reverse.take ht22Cap := by
  induction xs using List.reverseRecOn with
  | nil => rfl
  | append_singleton xs x ih =>
    obtain ⟨hxs, -, hnew⟩ := List.nodup_append.mp h
    have saved := ih hxs
    have old : x ∉ xs.reverse.take ht22Cap := fun hx =>
      hnew x (List.mem_reverse.mp (List.mem_of_mem_take hx)) x (List.mem_singleton_self x) rfl
    have short : (xs.foldl HashTable.save HashTable.empty).ht22.length ≤ ht22Cap := by
      rw [← List.length_map (f := Prod.snd), saved]
      exact List.length_take_le _ _
    calc ((xs ++ [x]).foldl HashTable.save HashTable.empty).ht22.map Prod.snd
        = (saveFront x (xs.foldl HashTable.save HashTable.empty).ht22).map Prod.snd := by
          rw [List.foldl_append]; rfl
      _ = (x :: xs.reverse.take ht22Cap).take ht22Cap := by
          rw [map_snd_saveFront (saved ▸ old) short, saved]
      _ = (xs ++ [x]).reverse.take ht22Cap := by
          rw [List.reverse_append, List.reverse_singleton, List.singleton_append, show ht22Cap = 999 + 1 from rfl,
            List.take_succ_cons, List.take_succ_cons, List.take_take, Nat.min_eq_left (by omega)]

/-- Settles O60, from the callsigns that HT22 holds after every save. -/
theorem tableOverflow : Obligations.TableOverflow := by
  intro xs hxs
  have saved := map_snd_ht22_saves hxs
  refine ⟨saved, fun hlen => ?_⟩
  rw [← List.length_map (f := Prod.snd), saved, List.length_take, List.length_reverse]
  exact Nat.min_eq_left hlen.le

/-! ## When a save changes nothing -/

theorem saveEntry_eq_self_iff {h : Nat} {x : Callsign} {map : List (Nat × Callsign)} :
    saveEntry h x map = map ↔ getEntry map h = some x := by
  refine ⟨fun same => ?_, fun held => if_pos held⟩
  have after := getEntry_saveEntry h x map h
  rwa [same, if_pos rfl] at after

section
variable {t : HashTable} {x : Callsign}

/-- A save changes nothing exactly when all three maps hold the callsign already. -/
theorem save_eq_self_iff :
    t.save x = t ↔
      t.lookup10 (hash10 x) = some x ∧ t.lookup12 (hash12 x) = some x ∧ x ∈ t.ht22.map Prod.snd := by
  obtain ⟨map10, map12, list⟩ := t
  simp only [HashTable.save, HashTable.mk.injEq, saveEntry_eq_self_iff, saveFront_eq_self_iff, HashTable.lookup10,
    HashTable.lookup12]

theorem saveChanges_eq_false_iff : t.saveChanges x = false ↔ t.save x = t := by
  rw [save_eq_self_iff, ← any_snd_iff]
  simp [HashTable.saveChanges, and_assoc]

end

theorem lookup10_save (t : HashTable) (x : Callsign) (h : Nat) :
    (t.save x).lookup10 h = if h = hash10 x then some x else t.lookup10 h := getEntry_saveEntry ..

theorem lookup12_save (t : HashTable) (x : Callsign) (h : Nat) :
    (t.save x).lookup12 h = if h = hash12 x then some x else t.lookup12 h := getEntry_saveEntry ..

theorem save_save (t : HashTable) (x : Callsign) : (t.save x).save x = t.save x :=
  save_eq_self_iff.mpr
    ⟨(lookup10_save t x _).trans (if_pos rfl), (lookup12_save t x _).trans (if_pos rfl), mem_saveFront x t.ht22⟩

/-- Of two new callsigns with one 22-bit hash the later one is found, even after a second save of the earlier one,
which is still in HT22 (R293, R294). -/
theorem lookup22_collision {t : HashTable} {x y : Callsign} (hxy : x ≠ y) (hx : x ∉ t.ht22.map Prod.snd)
    (hy : y ∉ t.ht22.map Prod.snd) :
    ((t.save x).save y).lookup22 (hash22 y) = some y ∧
      (((t.save x).save y).save x).lookup22 (hash22 y) = some y := by
  have newer : y ∉ (saveFront x t.ht22).map Prod.snd := by
    rw [saveFront_of_not_mem hx, List.map_cons, List.mem_cons, not_or]
    refine ⟨hxy.symm, fun h => hy ?_⟩
    split at h
    · exact List.map_subset _ (List.dropLast_subset _) h
    · exact h
  have found : getEntry (saveFront y (saveFront x t.ht22)) (hash22 y) = some y := getEntry_saveFront newer
  refine ⟨found, ?_⟩
  show getEntry (saveFront x (saveFront y (saveFront x t.ht22))) (hash22 y) = some y
  rw [saveFront_of_mem (mem_saveFront_saveFront hx y), found]

/-- Settles O59, from what a save leaves of each map and when it changes nothing. -/
theorem saveLaws : Obligations.SaveLaws := by
  intro t x
  refine ⟨(lookup10_save t x _).trans (if_pos rfl), (lookup12_save t x _).trans (if_pos rfl),
    fun h hne => (lookup10_save t x h).trans (if_neg hne), fun h hne => (lookup12_save t x h).trans (if_neg hne),
    fun hnew => getEntry_saveFront (not_mem_map_snd_iff.mpr hnew), save_save t x,
    saveChanges_eq_false_iff.mpr (save_save t x), saveChanges_eq_false_iff, fun y hxy _ hnew => ?_⟩
  exact lookup22_collision hxy (not_mem_map_snd_iff.mpr fun p hp => (hnew p hp).1)
    (not_mem_map_snd_iff.mpr fun p hp => (hnew p hp).2)

end Sys2Proof.Machine
end

section
/-! PROOFS. The commands HASH_COMPUTE, HASH_SAVE, HASH_LOOKUP, HASH_CLEAR, HASH_SIZE and NOP (R290, R296, R300 to R312):
what each rule answers on legal arguments. -/

namespace Sys2Proof.Machine

/-! ## NOP and HASH_CLEAR -/

/-- Settles O31: the rule makes no check, and the zero word is the encoding of NOP. -/
theorem nopCompletes : Obligations.NopCompletes := by
  refine ⟨(decodeInvertsEncode 0 .nop).mpr ⟨rfl, rfl⟩, fun s => ?_⟩
  have run : exec .nop s = .next (s.commit { writes := [], ht := s.ht, res := results [1] }) := exec_of_rule rfl
  exact ⟨_, run, completed_commit _ _, (irq_of_exec run).1, rfl, rfl⟩

/-- Settles O46: no hash has an entry in an empty map. -/
theorem hashClearCompletes : Obligations.HashClearCompletes := fun _ =>
  ⟨_, exec_of_rule rfl, completed_commit _ _, rfl, fun _ => rfl, fun _ => rfl, rfl⟩

/-! ## HASH_SIZE -/

/-- The hashes with an entry are those a map lists. -/
theorem getEntry_isSome_iff {map : List (Nat × Callsign)} {h : Nat} :
    (getEntry map h).isSome = true ↔ h ∈ map.map Prod.fst := by
  induction map with
  | nil => simp [getEntry]
  | cons p rest ih =>
    obtain ⟨k, x⟩ := p
    by_cases hk : k = h
    · simp [getEntry, hk]
    · simp [getEntry, hk, Ne.symm hk, ih]

/-- A direct-indexed map lists each of its occupied entries once. -/
theorem occupied_length {w n : Nat} {map : List (Nat × Callsign)} (hn : n = 2 ^ w) (hwf : mapWf w map = true) :
    ((List.range n).filter fun h => (getEntry map h).isSome).length = map.length := by
  simp only [mapWf, Bool.and_eq_true, decide_eq_true_eq, List.all_eq_true] at hwf
  obtain ⟨rising, entries⟩ := hwf
  have distinct : (map.map Prod.fst).Nodup := List.pairwise_map.mpr (rising.imp Nat.ne_of_lt)
  have below : ∀ h ∈ map.map Prod.fst, h < n := hn ▸ List.forall_mem_map.mpr fun p hp => (entries p hp).1.1
  have perm : ((List.range n).filter fun h => (getEntry map h).isSome).Perm (map.map Prod.fst) := by
    refine (List.perm_ext_iff_of_nodup (List.nodup_range.filter _) distinct).mpr fun h => ?_
    rw [List.mem_filter, List.mem_range, getEntry_isSome_iff]
    exact and_iff_right_of_imp (below h)
  rw [perm.length_eq, List.length_map]

/-- Settles O47: each map lists its occupied entries, of 2^10 and of 2^12. -/
theorem hashSizeCompletes : Obligations.HashSizeCompletes := by
  intro s hwf
  simp only [HashTable.wf, Bool.and_eq_true] at hwf
  obtain ⟨⟨h10, h12⟩, -⟩ := hwf
  have n10 : ((List.range 1024).filter fun h => (s.ht.lookup10 h).isSome).length = s.ht.ht10.length :=
    occupied_length rfl h10
  have n12 : ((List.range 4096).filter fun h => (s.ht.lookup12 h).isSome).length = s.ht.ht12.length :=
    occupied_length rfl h12
  rw [n10, n12]
  exact ⟨_, exec_of_rule rfl, rfl, rfl, completed_commit _ _⟩

/-! ## HASH_COMPUTE -/

/-- A text's number as the sum of its digits, each at its place. -/
theorem alphaValue_eq_sum (A t : List Char) (d : Char) :
    alphaValue A t =
      ((List.range t.length).map fun k => alphaIdx A (t.getD k d) * A.length ^ (t.length - 1 - k)).sum := by
  induction t using List.reverseRecOn with
  | nil => rfl
  | append_singleton t c ih =>
    have earlier : ∀ k ∈ List.range t.length,
        alphaIdx A ((t ++ [c]).getD k d) * A.length ^ (t.length + 1 - 1 - k) =
          alphaIdx A (t.getD k d) * A.length ^ (t.length - 1 - k) * A.length := fun k hk => by
      have hk := List.mem_range.mp hk
      rw [List.getD_append _ _ _ _ hk, Nat.mul_assoc, ← Nat.pow_succ]
      congr 2
      omega
    rw [alphaValue_append, ih, List.length_append, List.length_singleton, List.range_succ, List.map_append,
      List.sum_append, List.map_congr_left earlier, List.sum_map_mul_right]
    simp

/-- Padding adds the character that an index past the end gives. -/
theorem getD_padRight (n : Nat) (t : List Char) (k : Nat) : (padRight n t).getD k ' ' = t.getD k ' ' := by
  rcases lt_or_ge k t.length with h | h
  · rw [padRight, List.getD_append _ _ _ _ h]
  · rw [padRight, List.getD_append_right _ _ _ _ h, List.getD_eq_default _ _ h,
      List.getD_eq_getElem?_getD, List.getElem?_getD_replicate_default_eq]

/-- The formula of R290 for n8. -/
theorem callsignNumber_eq_sum {t : List Char} (h : t.length ≤ 11) :
    callsignNumber t = ((List.range 11).map fun k => alphaIdx A38 (t.getD k ' ') * 38 ^ (10 - k)).sum := by
  have value := alphaValue_eq_sum A38 (padRight 11 t) ' '
  simp only [length_padRight h, getD_padRight] at value
  exact value

theorem ruleOf_hashCompute {s : State} {text : List Char} (hlegal : ArgsLegal .hashCompute s.snapshot)
    (hlen : text.length = argNat s.snapshot 1) (hchars : ∀ c ∈ text, c.toNat < 128 ∧ upperChar c ∈ A38)
    (hwords : HoldsWords s.dmem (argNat s.snapshot 0) (text.map charWord)) :
    ruleOf .hashCompute s = .ok
      { writes := []
        ht := s.ht
        res := results [1, hash10 (upper text), hash12 (upper text), hash22 (upper text)] } := by
  obtain ⟨h1, h11⟩ : 1 ≤ argNat s.snapshot 1 ∧ argNat s.snapshot 1 ≤ 11 := hlegal.lengths
  have alphabet : (upper text).all A38.contains = true :=
    List.all_eq_true.mpr (List.forall_mem_map.mpr fun c hc => List.contains_iff_mem.mpr (hchars c hc).2)
  rw [ruleOf, hashComputeRule, require_pass ⟨Nat.one_le_iff_ne_zero.mp h1, h11⟩, ok_bind,
    checkRanges_legal hlegal rfl, ok_bind, readChars_ok hlen (fun c hc => (hchars c hc).1) hwords, ok_bind]
  simp only [alphabet, require_true, ok_bind]

/-- Settles O43: the number that the three hashes are taken of is R290's sum. -/
theorem hashComputeCompletes : Obligations.HashComputeCompletes := by
  intro s text hlegal hlen hchars hwords
  have short : (upper text).length ≤ 11 := by
    rw [upper, List.length_map, hlen]
    exact hlegal.lengths.2
  exact ⟨_, callsignNumber (upper text), exec_of_rule (ruleOf_hashCompute hlegal hlen hchars hwords),
    callsignNumber_eq_sum short, completed_commit _ _, wrote_none rfl, rfl⟩

/-! ## HASH_SAVE -/

theorem ruleOf_hashSave {s : State} {text : List Char} (hlegal : ArgsLegal .hashSave s.snapshot)
    (hlen : text.length = argNat s.snapshot 1) (hascii : ∀ c ∈ text, c.toNat < 128)
    (hwords : HoldsWords s.dmem (argNat s.snapshot 0) (text.map charWord)) :
    ruleOf .hashSave s = .ok (saveEffect s (canon text)) := by
  rw [ruleOf, hashSaveRule, require_pass (show argNat s.snapshot 1 ≤ 256 from hlegal.lengths), ok_bind,
    checkRanges_legal hlegal rfl, ok_bind, readChars_ok hlen hascii hwords, ok_bind]

theorem saveChanges_toNat (t : HashTable) (x : Callsign) :
    (t.saveChanges x).toNat = if t.save x = t then 0 else 1 := by
  simp only [← saveChanges_eq_false_iff]
  cases t.saveChanges x <;> rfl

/-- Settles O44: the effect of the rule, by whether the text is a callsign. -/
theorem hashSaveCompletes : Obligations.HashSaveCompletes := by
  intro s text hlegal hlen hascii hwords
  have run := exec_of_rule (ruleOf_hashSave hlegal hlen hascii hwords)
  cases hcanon : canon text with
  | none =>
    rw [hcanon] at run
    exact ⟨_, run, wrote_none rfl, fun _ => ⟨completed_commit _ _, rfl⟩, nofun⟩
  | some x =>
    rw [hcanon, saveEffect, saveChanges_toNat] at run
    refine ⟨_, run, wrote_none rfl, nofun, ?_⟩
    rintro _ ⟨⟩
    exact ⟨rfl, completed_commit _ _⟩

/-! ## HASH_LOOKUP -/

theorem ruleOf_hashLookup {width : BitVec 2} {s : State} (hlegal : ArgsLegal (.hashLookup width) s.snapshot) :
    ruleOf (.hashLookup width) s =
      .ok (lookupEffect s (argNat s.snapshot 1) (s.ht.lookup width (argNat s.snapshot 0))) := by
  obtain ⟨w, hdef⟩ := widthBits_defined (bne_iff_ne.mp hlegal.wellFormed)
  simp only [ruleOf, hashLookupRule, hdef]
  rw [require_pass (hlegal.hash width w rfl hdef), ok_bind, require_pass (show 11 ≤ _ from hlegal.lengths), ok_bind,
    checkRanges_legal hlegal rfl, ok_bind]

theorem lookupEffect_ht (s : State) (out : Nat) (x : Option Callsign) : (lookupEffect s out x).ht = s.ht := by
  cases x <;> rfl

/-- Settles O45: the effect of the rule, by whether the selected map has an entry. -/
theorem hashLookupCompletes : Obligations.HashLookupCompletes := by
  intro width s hlegal
  refine ⟨_, s.ht.lookup width (argNat s.snapshot 0), exec_of_rule (ruleOf_hashLookup hlegal), lookupEffect_ht _ _ _,
    ?_, ?_, ?_, fun hmiss => ?_, fun x hhit => ?_⟩
  · rintro rfl; rfl
  · rintro rfl; rfl
  · rintro rfl; rfl
  · rw [hmiss]
    exact ⟨completed_commit _ _, wrote_none rfl⟩
  · rw [hhit]
    exact ⟨completed_commit _ _, wrote_one rfl⟩

end Sys2Proof.Machine
end

section
/-! PROOFS. Reset (R350 to R353): soft reset of a busy engine and of an idle one, the power-on state, and the engine
that waits. -/

namespace Sys2Proof.Machine

/-! ## Words an abandoned command leaves -/

theorem abandonWord_cases (k : Nat) (m : Memory) (a : Nat) :
    abandonWord k m a = m ∨ ∃ w, abandonWord k m a = writeWords m a [w] := by
  unfold abandonWord
  split
  · exact .inl rfl
  · exact .inr ⟨_, rfl⟩

theorem readByte_abandonWord_outside {m : Memory} {a b : Nat} (h : b / 8 ≠ a) (k : Nat) :
    readByte (abandonWord k m a) b = readByte m b := by
  obtain kept | ⟨w, written⟩ := abandonWord_cases k m a
  · rw [kept]
  · rw [written]
    exact readByte_writeWords_outside (by rw [List.length_singleton]; omega)

theorem readByte_abandonWords_outside {m : Memory} {as : List Nat} {b : Nat} (h : b / 8 ∉ as) (k : Nat) :
    readByte (abandonWords k m as) b = readByte m b := by
  induction as generalizing k m with
  | nil => rfl
  | cons a as ih =>
    obtain ⟨head, tail⟩ : b / 8 ≠ a ∧ b / 8 ∉ as := by rwa [List.mem_cons, not_or] at h
    exact (ih tail (k + 1)).trans (readByte_abandonWord_outside head k)

/-- Word `a` has the bytes it had, or it has some value (R352). -/
def KeptOrValued (m m' : Memory) (a : Nat) : Prop :=
  (∀ k < 8, readByte m' (8 * a + k) = readByte m (8 * a + k)) ∨ ∃ w, readWord m' a = some w

theorem KeptOrValued.trans {m m' m'' : Memory} {a : Nat} (first : KeptOrValued m m' a)
    (second : KeptOrValued m' m'' a) : KeptOrValued m m'' a := by
  obtain kept | valued := second
  · obtain before | ⟨w, hw⟩ := first
    · exact .inl fun k hk => (kept k hk).trans (before k hk)
    · exact .inr ⟨w, (readWord_congr kept).trans hw⟩
  · exact .inr valued

theorem keptOrValued_abandonWord (k : Nat) (m : Memory) (a c : Nat) : KeptOrValued m (abandonWord k m a) c := by
  by_cases hc : c = a
  · subst hc
    obtain kept | ⟨w, written⟩ := abandonWord_cases k m c
    · exact .inl fun _ _ => by rw [kept]
    · exact .inr ⟨w, by rw [written]; exact readWord_writeWords m c [w] 0 Nat.one_pos⟩
  · exact .inl fun j hj => readByte_abandonWord_outside (by omega) k

theorem keptOrValued_abandonWords (k : Nat) (m : Memory) (as : List Nat) (c : Nat) :
    KeptOrValued m (abandonWords k m as) c := by
  induction as generalizing k m with
  | nil => exact .inl fun _ _ => rfl
  | cons a as ih => exact (keptOrValued_abandonWord k m a c).trans (ih (k + 1) _)

theorem Range.mem_of_mem_words {r : Range} {a : Nat} (h : a ∈ r.words) : r.mem a = true := by
  obtain ⟨k, hk, rfl⟩ := List.mem_map.mp h
  have hlt : k < min r.len (Config.dmemWords - r.base) := List.mem_range.mp hk
  exact decide_eq_true (by omega)

/-- Only words of the running command's output ranges are abandoned (R352). -/
theorem sameOutside_abandonWords (s : State) (k : Nat) :
    SameOutside s.runningOutputs s.dmem (abandonWords k s.dmem s.abandonedWords) := by
  refine fun b hout => readByte_abandonWords_outside (fun hb => ?_) k
  obtain ⟨r, hr, hword⟩ := List.mem_flatMap.mp hb
  exact Bool.false_ne_true ((hout r hr).symm.trans (Range.mem_of_mem_words hword))

/-! ## Soft reset -/

/-- Settles O17: what the abandoned words keep or take, and that they all lie in the output ranges. -/
theorem softResetBusy : Obligations.SoftResetBusy := fun s _ _ _ hv hb =>
  ⟨_, _, step_writeCtrl_reset hv hb, sameOutside_abandonWords s s.draws, keptOrValued_abandonWords s.draws s.dmem _⟩

theorem abandonedWords_idle {s : State} (h : s.phase = .idle) : s.abandonedWords = [] := by
  simp only [State.abandonedWords, State.runningOutputs, State.running, h, List.flatMap_nil]

/-- An idle engine has no words to abandon, so the data memory and the draws stay (R351). -/
theorem softReset_idle {s : State} (h : s.phase = .idle) :
    s.softReset = { State.reset with dmem := s.dmem, bus := s.bus, response := s.response, draws := s.draws } := by
  rw [State.softReset, abandonedWords_idle h]
  rfl

/-- Settles O16: the write reaches CTRL, and the soft reset abandons nothing. -/
theorem softResetIdle : Obligations.SoftResetIdle := by
  intro s v rest hidle hv hb
  rw [step_writeCtrl_reset hv hb, softReset_idle (s := { s with bus := rest }) hidle]

/-! ## Power-on reset -/

theorem Regs8.getElem_zero : ∀ i : Fin 8, Regs8.zero[i] = 0 := by decide

/-- Settles O18: the registers by computing what they read, the memory and both maps by having no entry. -/
theorem resetState : Obligations.ResetState :=
  ⟨rfl, rfl, rfl, rfl, rfl, Regs8.getElem_zero, Regs8.getElem_zero, rfl, rfl, fun _ => rfl, fun _ => rfl,
    fun _ => rfl, rfl⟩

/-- Settles O26: the empty memory and the empty table have their forms, and the registers are all zero. -/
theorem resetMeetsInvariant : Obligations.ResetMeetsInvariant :=
  { memory := rfl
    bounds := rfl
    table := wf_empty
    registers := { lastOp := rfl, ok := zero_flag.symm, failed := fun _ => rfl, running := nofun } }

/-! ## The idle engine -/

theorem engineStep_idle {s : State} (h : s.phase = .idle) : engineStep s = .next s := by
  simp only [engineStep, State.fetchCommand, h]

theorem step_idle {s : State} (h : s.phase = .idle) (hb : s.bus = []) : step s = .next s := by
  rw [step_quiet hb, engineStep_idle h]

/-- Settles O19: with no event the step is the engine's, and an idle engine fetches no command. -/
theorem idleEngineWaits : Obligations.IdleEngineWaits :=
  ⟨fun _ => step_idle, step_idle State.reset_phase State.reset_bus⟩

end Sys2Proof.Machine
end
